-- ==== Sys2Proof/Word.lean ====
section
/-! DEFINITION. The value types of RBLP (spec/00_scope.md R8 to R11). -/

namespace Sys2Proof

/-- `Byte` of R10: an unsigned integer 0..255. -/
abbrev Byte := BitVec 8

/-- `U16` of R10; the segment masks of R85 are of this type. -/
abbrev Mask := BitVec 16

/-- The level of a pin: `false` is 0, `true` is 1 (R12). -/
abbrev Level := Bool

/-- `Frac` of R9: the exact rational numbers. -/
abbrev Frac := Rat

/-- A character of R11: an unsigned code; its bound `2^CHARW` is a check of WellFormed.lean. -/
abbrev CharCode := Nat

/-- `Text` of R11: a finite sequence of characters, possibly empty (DOC0's null text is the empty one). -/
abbrev Text := List CharCode

end Sys2Proof
end

