-- ==== Sys2Proof/Config.lean ====
section
/-! DEFINITION. The implementation parameters of RBLP (spec/00_scope.md R5). A value R5 marks "source" is a number here;
a parameter R5 marks OPEN is an `opaque` constant with no body, so that no proof can lean on a value of it
(but HOST_CODEC, which is Decode.lean, see notes/assumptions/1.md). -/

namespace Sys2Proof.Config

/-- `N_PIX` (R5): 7 pixels on this hardware. `State.reset` has this many; the meanings are written for any number. -/
def nPix : Nat := 7

/-- `START_BITS` (R5, R75). -/
def startBits : Nat := 32

/-- `END_PULSES` (R5, R77; 90_conflicts.md C2). -/
def endPulses : Nat := 36

/-- `BR_MAX` (R5): the brightness multiplier of LSE. -/
def brMax : Nat := 31

/-- `LV_MAX` (R5): the brightness multiplier of DCS. -/
def lvMax : Nat := 15

/-- `BUF_LEN` (R5): bytes of the display buffer. -/
def bufLen : Nat := 16

/-- `N_DIGITS` (R5): digit positions used. -/
def nDigits : Nat := 4

/-- `I2C_ADDR` (R5, R84): the device address of every DCS transaction. -/
def i2cAddr : Byte := 0x70#8

/-- `MAX_DECIMALS` (R5, R147). -/
def maxDecimals : Nat := 3

/-- `DEF_LED_BRIGHT` (R5): 0.2. -/
def defLedBright : Frac := mkRat 1 5

/-- `DEF_DECIMALS` (R5). -/
def defDecimals : Nat := 2

/-- `DEF_SPEED` (R5). -/
def defSpeed : Frac := 1

/-- What `CHARW` has above its least value 7 (R5): OPEN. -/
opaque charWExtra : Nat

/-- `CHARW` (R5, R11): OPEN, at least 7 (notes/assumptions/4.md). -/
def charW : Nat := 7 + charWExtra

/-- `CS_ACTIVE` (R5): OPEN; the level that asserts chip-select. -/
opaque csActive : Level

/-- `INIT_BLINK_FLUSH` (R5, R130): OPEN; whether DINIT's blink step carries the flush. -/
opaque initBlinkFlush : Bool

/-- The free bits of `SEGROM` (R5, R122): 14 segment bits and the decimal-point bit of each entry. Bit 15 and the entry
for space are fixed by the constraints of R122, see `Sys2Proof.Machine.segRom`. -/
opaque segBits : Nat → BitVec 15

/-- `FMT` (R5, R147): OPEN; the text of a value with `n` fractional digits. -/
opaque fmt : Frac → Nat → Text

end Sys2Proof.Config
end

