-- ==== Sys2Proof/Syntax.lean ====
section
/-! DEFINITION. The operations of RBLP and the items of its wire formats: one constructor per row of
spec/opcode_table.json (30_encoding.md R71 for the operations and CANCEL; R75 to R85 for the formats), and the packets
in which they reach the model. -/

namespace Sys2Proof

/-- The blink `rate` operand (R72, R81): four values and no other. -/
inductive BlinkRate where
  | off
  | hz2
  | hz1
  | hzHalf
  deriving DecidableEq, Repr

/-- One constructor per row of the opcode table, operands in the order of R71. -/
inductive Instr where
  -- LSE (40_led_strip.md)
  | linit
  | setpixel (index : Int) (r g b : Byte) (brightness : Frac)
  | setall (r g b : Byte) (brightness : Frac)
  | lsetbright (brightness : Frac)
  | lclear
  | getpixel (index : Int)
  | lshow
  | lteardown
  -- SEGROM (41_char_rom.md)
  | encodeChar (c : CharCode)
  -- DCS (42_display.md)
  | dinit
  | dsetbright (level : Frac)
  | dsetblink (rate : BlinkRate)
  | dclear
  | flush
  | setchar (position : Int) (c : CharCode) (showDecimal : Bool)
  | bufrd (position : Int)
  | bufwr (position : Int) (value : Byte)
  | disptext (text : Text) (justifyRight : Bool)
  | dispnum (text : Text) (justifyRight : Bool)
  | dispfloat (value : Frac) (decimalPlaces : Nat) (justifyRight : Bool)
  | disphex (value : Int) (justifyRight : Bool)
  | dteardown
  -- STE (43_scroll.md), and its asynchronous input (R207)
  | scroll (text : Text) (speed : Frac) (loop : Bool)
  | cancel
  -- one-byte and two-byte I2C transactions (R80 to R83)
  | i2cOscOn
  | i2cBlink (rate : BlinkRate)
  | i2cBright (level : BitVec 4)
  | i2cData (position : BitVec 4) (value : Byte)
  -- the LED wire (R75 to R78), fields in wire order
  | ledStart
  | ledPixel (br : BitVec 5) (b g r : Byte)
  | ledEnd
  | ledBitcell (bit : Bool)
  -- the segment mask (R85)
  | segMask (mask : Mask)
  deriving DecidableEq, Repr

/-- The "format" column of the opcode table. -/
inductive Format where
  | op
  | input
  | i2c1
  | i2c2
  | ledFrame
  | ledEnd
  | pinSeq
  | mask16
  deriving DecidableEq, Repr

/-- What the model fetches: the bytes of one row's item, with the format they are in. An operation of R70 is a packet of
format `op`: the operation number and then its operands. -/
structure Packet where
  fmt : Format
  bytes : List Byte
  deriving DecidableEq, Repr

/-- Why a packet spells nothing (30_encoding.md R86). -/
inductive DecodeError where
  /-- a record of no bytes -/
  | emptyRecord
  /-- an operation number that is not in R71 -/
  | unknownOperation (number : Byte)
  /-- the record ends inside an operand -/
  | truncated
  /-- bytes are left over after the last operand -/
  | trailing
  /-- a number with a needless last digit -/
  | numberNotCanonical
  /-- a fraction not in lowest terms -/
  | fracNotCanonical
  /-- a Bool byte other than 0 and 1 -/
  | badBool
  /-- a blink rate byte above 3 -/
  | badRate
  /-- a character code of more than CHARW bits -/
  | badChar
  /-- a wire or input item that is in no row of its format -/
  | badItem (fmt : Format)
  deriving DecidableEq, Repr

end Sys2Proof
end

