-- ==== Sys2Proof/WellFormed.lean ====
section
/-! DEFINITION. What the types of Syntax.lean leave open: a character is a code of `CHARW` bits (00_scope.md R11), and a
segment mask has bit 15 clear (30_encoding.md R85, R86 (a)). Every other operand of R72 is right by its type. -/

namespace Sys2Proof

/-- A character code fits `CHARW` bits (R11). Codes of seven bits always do, since `CHARW` is at least 7 (R5); they are
tested first so that checking them needs no value of `CHARW` (`charOk_iff` in Laws/Codec.lean). -/
def charOk (c : CharCode) : Bool := decide (c < 128) || decide (c < 2 ^ Config.charW)

/-- Every character of a text does. -/
def textOk (t : Text) : Bool := t.all charOk

/-- "bit 15 unused/must be 0" (R85). -/
def maskOk (m : Mask) : Bool := !m.getLsbD 15

/-- The checks on an instruction, one arm per constructor. -/
def Instr.wellFormed : Instr → Bool
  | .linit => true
  | .setpixel _ _ _ _ _ => true
  | .setall _ _ _ _ => true
  | .lsetbright _ => true
  | .lclear => true
  | .getpixel _ => true
  | .lshow => true
  | .lteardown => true
  | .encodeChar c => charOk c
  | .dinit => true
  | .dsetbright _ => true
  | .dsetblink _ => true
  | .dclear => true
  | .flush => true
  | .setchar _ c _ => charOk c
  | .bufrd _ => true
  | .bufwr _ _ => true
  | .disptext t _ => textOk t
  | .dispnum t _ => textOk t
  | .dispfloat _ _ _ => true
  | .disphex _ _ => true
  | .dteardown => true
  | .scroll t _ _ => textOk t
  | .cancel => true
  | .i2cOscOn => true
  | .i2cBlink _ => true
  | .i2cBright _ => true
  | .i2cData _ _ => true
  | .ledStart => true
  | .ledPixel _ _ _ _ => true
  | .ledEnd => true
  | .ledBitcell _ => true
  | .segMask m => maskOk m

end Sys2Proof
end

