-- ==== Sys2Proof/Decode.lean ====
section
/-! DEFINITION. From packets to instructions and back.

The spec fixes the operation numbers (30_encoding.md R71), the operand types (R72) and, bit for bit, the wire formats
(R75 to R85). It leaves the bit-level codec of operation records OPEN as `HOST_CODEC` (R70, R5): the byte coding of
operands below is the model's (DESIGN CHOICE, notes/assumptions/1.md). Each value has exactly one spelling in it, and the
spelling of zero is zero bytes. -/

namespace Sys2Proof

/-! ### Operation numbers (R71) -/

namespace Op

abbrev linit : Byte := 0x10#8
abbrev setpixel : Byte := 0x11#8
abbrev setall : Byte := 0x12#8
abbrev lsetbright : Byte := 0x13#8
abbrev lclear : Byte := 0x14#8
abbrev getpixel : Byte := 0x15#8
abbrev lshow : Byte := 0x16#8
abbrev lteardown : Byte := 0x1F#8
abbrev encodeChar : Byte := 0x20#8
abbrev dinit : Byte := 0x30#8
abbrev dsetbright : Byte := 0x31#8
abbrev dsetblink : Byte := 0x32#8
abbrev dclear : Byte := 0x33#8
abbrev flush : Byte := 0x34#8
abbrev setchar : Byte := 0x35#8
abbrev bufrd : Byte := 0x36#8
abbrev bufwr : Byte := 0x37#8
abbrev disptext : Byte := 0x38#8
abbrev dispnum : Byte := 0x39#8
abbrev dispfloat : Byte := 0x3A#8
abbrev disphex : Byte := 0x3B#8
abbrev dteardown : Byte := 0x3F#8
abbrev scroll : Byte := 0x40#8

end Op

/-! ### Reading operands -/

/-- A reader's answer: the value and the bytes after it. -/
abbrev Read (α : Type) := Except DecodeError (α × List Byte)

/-- Reads one operand and goes on with the bytes after it; the first error is the answer. -/
def andRead {α β : Type} (x : Read α) (next : α → List Byte → Read β) : Read β :=
  match x with
  | .error e => .error e
  | .ok (a, rest) => next a rest

/-- A `Byte` operand: the byte itself. -/
def getByte : List Byte → Read Byte
  | [] => .error .truncated
  | b :: rest => .ok (b, rest)

/-- A natural number: base-128 digits, least significant first, bit 7 set on every digit but the last. -/
def getNat : List Byte → Read Nat
  | [] => .error .truncated
  | b :: rest =>
    if b.toNat < 128 then .ok (b.toNat, rest)
    else
      match getNat rest with
      | .error e => .error e
      | .ok (q, rest') => if q = 0 then .error .numberNotCanonical else .ok (b.toNat - 128 + 128 * q, rest')

/-- An `Int` operand (unbounded, R72): `2n` spells `n`, `2n+1` spells `-n-1`. -/
def getInt (bs : List Byte) : Read Int :=
  andRead (getNat bs) fun n rest => .ok (if n % 2 = 0 then .ofNat (n / 2) else .negSucc (n / 2), rest)

/-- A `Frac` operand (R9): numerator, then denominator less one, in lowest terms. -/
def getFrac (bs : List Byte) : Read Frac :=
  andRead (getInt bs) fun num rest =>
    andRead (getNat rest) fun d rest =>
      if h : num.natAbs.Coprime (d + 1) then .ok (⟨num, d + 1, Nat.succ_ne_zero d, h⟩, rest)
      else .error .fracNotCanonical

/-- A `Bool` operand: 0 or 1. -/
def getBool : List Byte → Read Bool
  | [] => .error .truncated
  | b :: rest => if b = 0#8 then .ok (false, rest) else if b = 1#8 then .ok (true, rest) else .error .badBool

/-- The blink `rate` operand, in the order in which R71 lists the four names. -/
def getRate : List Byte → Read BlinkRate
  | [] => .error .truncated
  | b :: rest =>
    if b = 0#8 then .ok (.off, rest)
    else if b = 1#8 then .ok (.hz2, rest)
    else if b = 2#8 then .ok (.hz1, rest)
    else if b = 3#8 then .ok (.hzHalf, rest)
    else .error .badRate

/-- A `Char` operand (R11): its code, of at most `CHARW` bits. -/
def getChar (bs : List Byte) : Read CharCode :=
  andRead (getNat bs) fun c rest => if charOk c then .ok (c, rest) else .error .badChar

/-- `n` characters. -/
def getChars : Nat → List Byte → Read Text
  | 0, bs => .ok ([], bs)
  | n + 1, bs => andRead (getChar bs) fun c rest => andRead (getChars n rest) fun t rest => .ok (c :: t, rest)

/-- A `Text` operand: it carries its own length (R70). -/
def getText (bs : List Byte) : Read Text := andRead (getNat bs) fun n rest => getChars n rest

/-- The operands of an operation number, in the order of R71; any other number spells no operation (R86 (g)). -/
def decodeOp (number : Byte) (bs : List Byte) : Read Instr :=
  match number.toNat with
  | 0x10 => .ok (.linit, bs)
  | 0x11 =>
    andRead (getInt bs) fun index bs =>
    andRead (getByte bs) fun r bs =>
    andRead (getByte bs) fun g bs =>
    andRead (getByte bs) fun b bs =>
    andRead (getFrac bs) fun f bs =>
    .ok (.setpixel index r g b f, bs)
  | 0x12 =>
    andRead (getByte bs) fun r bs =>
    andRead (getByte bs) fun g bs =>
    andRead (getByte bs) fun b bs =>
    andRead (getFrac bs) fun f bs =>
    .ok (.setall r g b f, bs)
  | 0x13 =>
    andRead (getFrac bs) fun f bs =>
    .ok (.lsetbright f, bs)
  | 0x14 => .ok (.lclear, bs)
  | 0x15 =>
    andRead (getInt bs) fun index bs =>
    .ok (.getpixel index, bs)
  | 0x16 => .ok (.lshow, bs)
  | 0x1F => .ok (.lteardown, bs)
  | 0x20 =>
    andRead (getChar bs) fun c bs =>
    .ok (.encodeChar c, bs)
  | 0x30 => .ok (.dinit, bs)
  | 0x31 =>
    andRead (getFrac bs) fun f bs =>
    .ok (.dsetbright f, bs)
  | 0x32 =>
    andRead (getRate bs) fun rate bs =>
    .ok (.dsetblink rate, bs)
  | 0x33 => .ok (.dclear, bs)
  | 0x34 => .ok (.flush, bs)
  | 0x35 =>
    andRead (getInt bs) fun p bs =>
    andRead (getChar bs) fun c bs =>
    andRead (getBool bs) fun d bs =>
    .ok (.setchar p c d, bs)
  | 0x36 =>
    andRead (getInt bs) fun p bs =>
    .ok (.bufrd p, bs)
  | 0x37 =>
    andRead (getInt bs) fun p bs =>
    andRead (getByte bs) fun v bs =>
    .ok (.bufwr p v, bs)
  | 0x38 =>
    andRead (getText bs) fun t bs =>
    andRead (getBool bs) fun j bs =>
    .ok (.disptext t j, bs)
  | 0x39 =>
    andRead (getText bs) fun t bs =>
    andRead (getBool bs) fun j bs =>
    .ok (.dispnum t j, bs)
  | 0x3A =>
    andRead (getFrac bs) fun v bs =>
    andRead (getNat bs) fun n bs =>
    andRead (getBool bs) fun j bs =>
    .ok (.dispfloat v n j, bs)
  | 0x3B =>
    andRead (getInt bs) fun v bs =>
    andRead (getBool bs) fun j bs =>
    .ok (.disphex v j, bs)
  | 0x3F => .ok (.dteardown, bs)
  | 0x40 =>
    andRead (getText bs) fun t bs =>
    andRead (getFrac bs) fun f bs =>
    andRead (getBool bs) fun l bs =>
    .ok (.scroll t f l, bs)
  | _ => .error (.unknownOperation number)

/-! ### The wire formats -/

/-- The `rate` code of R81: the pairing of names and codes is the spec's decision D14. -/
def BlinkRate.code : BlinkRate → Byte
  | .off => 0x00#8
  | .hz2 => 0x02#8
  | .hz1 => 0x04#8
  | .hzHalf => 0x06#8

/-- The rate of bits 2:1 of a blink command byte (R81). -/
def BlinkRate.ofField (field : BitVec 2) : BlinkRate :=
  if field = 0#2 then .off else if field = 1#2 then .hz2 else if field = 2#2 then .hz1 else .hzHalf

/-- R80: `0x20|0x01`. -/
def oscOnBytes : List Byte := [0x20#8 ||| 0x01#8]

/-- R81: `0x80|0x01|rate`. -/
def blinkBytes (rate : BlinkRate) : List Byte := [0x80#8 ||| 0x01#8 ||| rate.code]

/-- R82: `0xE0|level`. -/
def brightBytes (level : BitVec 4) : List Byte := [0xE0#8 ||| level.setWidth 8]

/-- R83: position first, value second. -/
def dataBytes (position : BitVec 4) (value : Byte) : List Byte := [position.setWidth 8, value]

/-- R75: "4 zero bytes". -/
def startBytes : List Byte := [0x00#8, 0x00#8, 0x00#8, 0x00#8]

/-- R76: `0xE0|br`, blue, green, red. -/
def pixelBytes (br : BitVec 5) (b g r : Byte) : List Byte := [0xE0#8 ||| br.setWidth 8, b, g, r]

/-- One byte of a one-byte transaction (R80 to R82); R86 (b) to (d): no other byte is one. -/
def decodeI2c1 : List Byte → Except DecodeError Instr
  | [b] =>
    if b = 0x21#8 then .ok .i2cOscOn
    else if b &&& 0xF9#8 = 0x81#8 then .ok (.i2cBlink (BlinkRate.ofField (b.extractLsb' 1 2)))
    else if b &&& 0xF0#8 = 0xE0#8 then .ok (.i2cBright (b.setWidth 4))
    else .error (.badItem .i2c1)
  | _ => .error (.badItem .i2c1)

/-- A two-byte transaction (R83); R86 (e): the first byte is 0x00 to 0x0F. -/
def decodeI2c2 : List Byte → Except DecodeError Instr
  | [p, v] => if p &&& 0xF0#8 = 0x00#8 then .ok (.i2cData (p.setWidth 4) v) else .error (.badItem .i2c2)
  | _ => .error (.badItem .i2c2)

/-- A 32-bit LED frame, first byte on the wire first (R75, R76); R86 (f): the top three bits tell the two apart. -/
def decodeLedFrame : List Byte → Except DecodeError Instr
  | [v, b, g, r] =>
    if v &&& 0xE0#8 = 0xE0#8 then .ok (.ledPixel (v.setWidth 5) b g r)
    else if v = 0x00#8 ∧ b = 0x00#8 ∧ g = 0x00#8 ∧ r = 0x00#8 then .ok .ledStart
    else .error (.badItem .ledFrame)
  | _ => .error (.badItem .ledFrame)

/-- The 36 zero bits of the end frame (R77), in five bytes. -/
def decodeLedEnd (bs : List Byte) : Except DecodeError Instr :=
  if bs = List.replicate 5 0x00#8 then .ok .ledEnd else .error (.badItem .ledEnd)

/-- The data bit of one bit cell (R78), as a byte. -/
def decodePinSeq : List Byte → Except DecodeError Instr
  | [b] =>
    if b = 0x00#8 then .ok (.ledBitcell false) else if b = 0x01#8 then .ok (.ledBitcell true) else .error (.badItem .pinSeq)
  | _ => .error (.badItem .pinSeq)

/-- A segment mask, low byte first as in a buffer slot (R85, 20_memory.md R51). -/
def decodeMask : List Byte → Except DecodeError Instr
  | [lo, hi] =>
    let m : Mask := hi ++ lo
    if maskOk m then .ok (.segMask m) else .error (.badItem .mask16)
  | _ => .error (.badItem .mask16)

/-- The CANCEL input (R207): a signal with no content. -/
def decodeInput : List Byte → Except DecodeError Instr
  | [] => .ok .cancel
  | _ => .error (.badItem .input)

/-- An operation record (R70): nothing may be left over. -/
def decodeRecord : List Byte → Except DecodeError Instr
  | [] => .error .emptyRecord
  | number :: operands =>
    match decodeOp number operands with
    | .error e => .error e
    | .ok (i, []) => .ok i
    | .ok (_, _ :: _) => .error .trailing

/-- The decoder, total on packets. -/
def decode (p : Packet) : Except DecodeError Instr :=
  match p.fmt with
  | .op => decodeRecord p.bytes
  | .input => decodeInput p.bytes
  | .i2c1 => decodeI2c1 p.bytes
  | .i2c2 => decodeI2c2 p.bytes
  | .ledFrame => decodeLedFrame p.bytes
  | .ledEnd => decodeLedEnd p.bytes
  | .pinSeq => decodePinSeq p.bytes
  | .mask16 => decodeMask p.bytes

/-! ### The encoder -/

/-- The digits of `getNat`; `fuel` bounds their number. -/
def putNatDigits : Nat → Nat → List Byte
  | 0, _ => []
  | fuel + 1, n =>
    if n < 128 then [BitVec.ofNat 8 n] else BitVec.ofNat 8 (n % 128 + 128) :: putNatDigits fuel (n / 128)

def putNat (n : Nat) : List Byte := putNatDigits (n + 1) n

def putInt : Int → List Byte
  | .ofNat n => putNat (2 * n)
  | .negSucc n => putNat (2 * n + 1)

def putFrac (f : Frac) : List Byte := putInt f.num ++ putNat (f.den - 1)

def putBool (b : Bool) : List Byte := [if b then 1#8 else 0#8]

def putRate : BlinkRate → List Byte
  | .off => [0#8]
  | .hz2 => [1#8]
  | .hz1 => [2#8]
  | .hzHalf => [3#8]

def putText (t : Text) : List Byte := putNat t.length ++ t.flatMap putNat

/-- The packet of an instruction. -/
def encode : Instr → Packet
  | .linit => ⟨.op, [Op.linit]⟩
  | .setpixel index r g b f => ⟨.op, Op.setpixel :: (putInt index ++ (r :: g :: b :: putFrac f))⟩
  | .setall r g b f => ⟨.op, Op.setall :: r :: g :: b :: putFrac f⟩
  | .lsetbright f => ⟨.op, Op.lsetbright :: putFrac f⟩
  | .lclear => ⟨.op, [Op.lclear]⟩
  | .getpixel index => ⟨.op, Op.getpixel :: putInt index⟩
  | .lshow => ⟨.op, [Op.lshow]⟩
  | .lteardown => ⟨.op, [Op.lteardown]⟩
  | .encodeChar c => ⟨.op, Op.encodeChar :: putNat c⟩
  | .dinit => ⟨.op, [Op.dinit]⟩
  | .dsetbright f => ⟨.op, Op.dsetbright :: putFrac f⟩
  | .dsetblink rate => ⟨.op, Op.dsetblink :: putRate rate⟩
  | .dclear => ⟨.op, [Op.dclear]⟩
  | .flush => ⟨.op, [Op.flush]⟩
  | .setchar p c d => ⟨.op, Op.setchar :: (putInt p ++ (putNat c ++ putBool d))⟩
  | .bufrd p => ⟨.op, Op.bufrd :: putInt p⟩
  | .bufwr p v => ⟨.op, Op.bufwr :: (putInt p ++ [v])⟩
  | .disptext t j => ⟨.op, Op.disptext :: (putText t ++ putBool j)⟩
  | .dispnum t j => ⟨.op, Op.dispnum :: (putText t ++ putBool j)⟩
  | .dispfloat v n j => ⟨.op, Op.dispfloat :: (putFrac v ++ (putNat n ++ putBool j))⟩
  | .disphex v j => ⟨.op, Op.disphex :: (putInt v ++ putBool j)⟩
  | .dteardown => ⟨.op, [Op.dteardown]⟩
  | .scroll t f l => ⟨.op, Op.scroll :: (putText t ++ (putFrac f ++ putBool l))⟩
  | .cancel => ⟨.input, []⟩
  | .i2cOscOn => ⟨.i2c1, oscOnBytes⟩
  | .i2cBlink rate => ⟨.i2c1, blinkBytes rate⟩
  | .i2cBright level => ⟨.i2c1, brightBytes level⟩
  | .i2cData p v => ⟨.i2c2, dataBytes p v⟩
  | .ledStart => ⟨.ledFrame, startBytes⟩
  | .ledPixel br b g r => ⟨.ledFrame, pixelBytes br b g r⟩
  | .ledEnd => ⟨.ledEnd, List.replicate 5 0x00#8⟩
  | .ledBitcell bit => ⟨.pinSeq, putBool bit⟩
  | .segMask m => ⟨.mask16, [m.setWidth 8, m.extractLsb' 8 8]⟩

/-! ### The opcode table's words -/

/-- The low byte of `w` shifted down by `8*k`. -/
def wordByte (w k : Nat) : Byte := BitVec.ofNat 8 (w / 256 ^ k)

/-- An operation number with operands of zero bytes, cut to the length of that operation's record. -/
def zeroRecord (number : Byte) : List Byte :=
  let bytes := number :: List.replicate 8 0x00#8
  match decodeOp number (List.replicate 8 0x00#8) with
  | .error _ => bytes
  | .ok (_, rest) => bytes.take (bytes.length - rest.length)

/-- The packet of a table word of `nbits` bits (DESIGN CHOICE, notes/assumptions/1.md). The table's formats are told apart
by length in whole bytes and, at the same length, by value (20_memory.md R50): no bits at all are the CANCEL input; up to 8
bits are the operation of that number if R71 has one, else a one-byte transaction; 9 to 16 bits are a data transaction,
first byte high, if the first byte is a position 0..15, else a mask; 25 to 32 bits are an LED frame, first wire byte high;
33 to 40 bits are the end frame. No row of the table has another length: a word of 17 to 24 bits, or of more than 40, is an
operation record with the operation number in its lowest byte and the operands in the bytes above it. -/
def tablePacket (nbits w : Nat) : Packet :=
  match (nbits + 7) / 8 with
  | 0 => ⟨.input, []⟩
  | 1 =>
    match decodeOp (wordByte w 0) (List.replicate 8 0x00#8) with
    | .ok _ => ⟨.op, zeroRecord (wordByte w 0)⟩
    | .error _ => ⟨.i2c1, [wordByte w 0]⟩
  | 2 => if w < 0x1000 then ⟨.i2c2, [wordByte w 1, wordByte w 0]⟩ else ⟨.mask16, [wordByte w 0, wordByte w 1]⟩
  | 4 => ⟨.ledFrame, [wordByte w 3, wordByte w 2, wordByte w 1, wordByte w 0]⟩
  | 5 => ⟨.ledEnd, [wordByte w 4, wordByte w 3, wordByte w 2, wordByte w 1, wordByte w 0]⟩
  | n => ⟨.op, (List.range n).map (wordByte w)⟩

/-- The instruction the decoder reads from a table word. -/
def decodeTableWord (nbits w : Nat) : Option Instr :=
  match decode (tablePacket nbits w) with
  | .ok i => some i
  | .error _ => none

end Sys2Proof
end

