-- ==== Sys2Proof/Machine/State.lean ====
section
/-! DEFINITION. The state of RBLP (spec/10_state.md), its reset value (R36), and the reasons a step can stop.

Beside the state the spec names, `State` holds the inputs from outside (the host's operations, the collaborators' answers,
the cancel tokens, the timer's expiry) as lists the step reads, and the histories of what RBLP sends out. -/

namespace Sys2Proof.Machine

/-- One pixel register (R21). -/
structure Pixel where
  r : Byte
  g : Byte
  b : Byte
  br : BitVec 5
  deriving DecidableEq, Repr

/-- Black at zero brightness. -/
def Pixel.zero : Pixel := ⟨0#8, 0#8, 0#8, 0#5⟩

/-- `LST` and `DST` (R23, R26). -/
inductive Lifecycle where
  | uninit
  | opened
  | closed
  deriving DecidableEq, Repr

/-- The three pins LSE uses (R4). The identifiers `PIN_CS`, `PIN_DAT`, `PIN_CLK` are OPEN and distinct (R5): these names
stand for them. -/
inductive Pin where
  | cs
  | dat
  | clk
  deriving DecidableEq, Repr

/-- An entry of `PINTRACE` (R34). -/
inductive PinEvent where
  | pinsOpen
  | write (p : Pin) (l : Level)
  | pinsClose
  deriving DecidableEq, Repr

/-- An entry of `I2CTRACE` (R34): a write transaction with the address it goes to (R84), or a lifecycle event. -/
inductive BusEvent where
  | busOpen
  | xfer (addr : Byte) (bytes : List Byte)
  | busClose
  deriving DecidableEq, Repr

/-- `ScrollState` (R28, R30, R173). -/
structure ScrollState where
  text : Text
  pad : Text
  off : Nat
  loop : Bool
  delay : Frac
  cancel : Bool
  deriving DecidableEq, Repr

/-- `SPH` (R29). -/
inductive Phase where
  | idle
  | shows
  | waits
  deriving DecidableEq, Repr

/-- STE: phase `SPH` (R29) with `ScrollState`, which "exists only while a SCROLL operation is active" (R28). -/
inductive Ste where
  | idle
  | showing (S : ScrollState)
  | waiting (S : ScrollState)
  deriving DecidableEq, Repr

/-- `SPH`. -/
def Ste.phase : Ste → Phase
  | .idle => .idle
  | .showing _ => .shows
  | .waiting _ => .waits

/-- `ScrollState`, absent in IDLE. -/
def Ste.scrollState : Ste → Option ScrollState
  | .idle => none
  | .showing S => some S
  | .waiting S => some S

/-- The one-shot delay timer (R218): running, with the delay it was started with, exactly in phase WAIT (R208, R221). -/
def Ste.timer : Ste → Option Frac
  | .waiting S => some S.delay
  | _ => none

/-- The statuses of R200. -/
inductive Status where
  | ok
  | rangeError
  | resourceError
  | cancelled
  deriving DecidableEq, Repr

/-- What an operation returns beside its status: GETPIXEL (R105), ENCODE (R121) and BUFRD (R138) return a value. -/
inductive Result where
  | none
  | pixel (p : Pixel)
  | mask (m : Mask)
  | byte (b : Byte)
  deriving DecidableEq, Repr

/-- What the host gets with the end of an operation (R200): its status, with no payload (R205), and its result. `op` is the
number of the operation that ended, `none` for a wire-format item. -/
structure Reply where
  op : Option Byte
  status : Status
  result : Result
  deriving DecidableEq, Repr

/-- The environment's answer `IO_OK` to one collaborator call (R5, R12, R202). -/
inductive IoAnswer where
  | ok
  | fail
  deriving DecidableEq, Repr

/-- What can arrive from outside: a packet (an operation record, the CANCEL input, a wire-format item), or the expiry of
the delay timer (R208). `cancelNow` says that the cancel flag becomes set at the very moment of expiry (R178). -/
inductive Event where
  | packet (p : Packet)
  | expiry (cancelNow : Bool)
  deriving DecidableEq, Repr

/-- The whole state. Reset values: `State.reset`. -/
structure State where
  /-- `PIX` (R20); `N_PIX` is its length. -/
  pix : List Pixel
  /-- Latch of pin CS (R22). -/
  cs : Level
  /-- Latch of pin DAT (R22). -/
  dat : Level
  /-- Latch of pin CLK (R22). -/
  clk : Level
  /-- `LST` (R23). -/
  lst : Lifecycle
  /-- `BUF` (R24) as a memory: (position, byte) pairs, positions strictly rising, no byte equal to `bufDefault`. -/
  buf : List Host.Cell
  /-- `DST` (R26). -/
  dst : Lifecycle
  /-- STE: `SPH` and `ScrollState` (R28 to R30). -/
  ste : Ste
  /-- `lseq` (R31), live only while a SHOW runs. -/
  lseq : Option Nat
  /-- `dseq` (R31), live only while a flush runs. -/
  dseq : Option Nat
  /-- DINIT is under way, so that the oscillator-on command may be sent (30_encoding.md R80); live only while a DINIT runs
  (the model's own field, notes/assumptions/2.md). -/
  constructing : Bool
  /-- `PINTRACE` (R34), oldest first. -/
  pinTrace : List PinEvent
  /-- `I2CTRACE` (R34), oldest first. -/
  i2cTrace : List BusEvent
  /-- `WAITTRACE` (R34), oldest first: delays in milliseconds. -/
  waitTrace : List Frac
  /-- The statuses and results delivered to the host, oldest first (R200; the model's own field, notes/assumptions/8.md). -/
  replies : List Reply
  /-- What is still to arrive, next first (the model's own field, notes/assumptions/5.md). -/
  inbox : List Event
  /-- The answers to the collaborator calls to come, next first; past its end every answer is `ok`
  (the model's own field, notes/assumptions/6.md). -/
  io : List IoAnswer
  /-- For each SCROLL still to start, whether its cancel token is already set; past its end no token is
  (R171; the model's own field, notes/assumptions/7.md). -/
  tokens : List Bool
  deriving DecidableEq, Repr

/-- What a buffer position that `buf` does not list reads as: the reset contents of `BUF` (R36). -/
def bufDefault : Byte := 0x00#8

/-- `N_PIX` (R5, R20). -/
def State.nPix (s : State) : Nat := s.pix.length

/-- The machine right after reset (R36, R230). The pin latches, "unspecified until LINIT", are 0 (DESIGN CHOICE,
notes/assumptions/3.md). The spec gives no value at reset for what is not its state, so each of these is the model's
choice (DESIGN CHOICE): nothing is to arrive (`inbox`, notes/assumptions/5.md), no answer is fixed, so that every
collaborator call is ok until answers are placed (`io`, 6.md), no cancel token is set until tokens are placed (`tokens`,
7.md), nothing has been delivered (`replies`, 8.md), and no DINIT runs (`constructing`, 2.md). -/
def State.reset : State where
  pix := List.replicate Config.nPix Pixel.zero
  cs := false
  dat := false
  clk := false
  lst := .uninit
  buf := []
  dst := .uninit
  ste := .idle
  lseq := none
  dseq := none
  constructing := false
  pinTrace := []
  i2cTrace := []
  waitTrace := []
  replies := []
  inbox := []
  io := []
  tokens := []

/-- RBLP has no fault: every way the spec lets an operation end is a status (R200, R214), and no access can be misaligned
or fall outside its address space without a status of its own (R54, R57). So this type has no constructor. -/
inductive Fault where
  deriving DecidableEq, Repr

/-- Why a step can stop. -/
inductive Refusal where
  /-- Raised by an arm of `exec` whose instruction has no meaning yet: safe. -/
  | notModelled (mnemonic : String)
  /-- Raised by `step` for a packet that spells nothing (R86 (g), 93_implementation_defined.md U10): safe. -/
  | undecodable (e : DecodeError)
  /-- Raised by LINIT when `LST` is not UNINIT (R100, U10): safe. -/
  | lseNotUninit
  /-- Raised by every other LSE operation and LED item when `LST` is not OPEN, but LTEARDOWN in CLOSED (R112, U10): safe. -/
  | lseNotOpen
  /-- Raised by DINIT when `DST` is not UNINIT (R130, U10): safe. -/
  | dcsNotUninit
  /-- Raised by every other DCS operation, I2C.BLINK, I2C.BRIGHT and SCROLL when `DST` is not OPEN, but DTEARDOWN in CLOSED
  (R134, R170, U10): safe. -/
  | dcsNotOpen
  /-- Raised by a DCS operation, I2C.BLINK, I2C.BRIGHT or SCROLL issued while a scroll is active (R134, R6, U9): safe. -/
  | scrollActive
  /-- Raised by I2C.OSC_ON outside a DINIT: the command is "Sent only by DINIT" (R80; notes/assumptions/2.md): safe. -/
  | oscOnOutsideDinit
  /-- Raised by I2C.DATA unless it is the transaction a flush under way sends next: the device positions are reached by
  "FLUSH only" (20_memory.md R50, R83; notes/assumptions/2.md): safe. -/
  | dataOutsideFlush
  /-- Raised by DISPNUM, and DISPFLOAT through it, for a string that begins with a dot (R142, U6): safe. -/
  | leadingDot
  /-- Raised by SEG.MASK for a mask with bit 15 set, which no decoded packet gives (R85, R86 (a), U3): safe. -/
  | maskBit15
  deriving DecidableEq, Repr

end Sys2Proof.Machine
end

