-- ==== Sys2Proof/Machine/Ops.lean ====
section
/-! DEFINITION. The named operations over the state: the display buffer as a memory, the collaborator calls with the
environment's answer to each, the end of an operation with a status (what this hardware has for taking an exception), and
the lifecycle guards. -/

namespace Sys2Proof.Machine

/-! ### The display buffer (20_memory.md R50, R51, R57) -/

/-- A memory: see `State.buf`. -/
abbrev Memory := List Host.Cell

/-- The byte at a position. -/
def Memory.read : Memory → Nat → Byte
  | [], _ => bufDefault
  | (a, v) :: rest, p => if a = p then v else Memory.read rest p

/-- Removes a position from the list. -/
def Memory.erase : Memory → Nat → Memory
  | [], _ => []
  | (a, v) :: rest, p => if a = p then Memory.erase rest p else (a, v) :: Memory.erase rest p

/-- Puts an unlisted position into its place. -/
def Memory.insert : Memory → Nat → Byte → Memory
  | [], p, x => [(p, x)]
  | (a, v) :: rest, p, x => if p < a then (p, x) :: (a, v) :: rest else (a, v) :: Memory.insert rest p x

/-- Writes one byte, keeping the canonical form. -/
def Memory.write (m : Memory) (p : Nat) (x : Byte) : Memory :=
  if x = bufDefault then Memory.erase m p else Memory.insert (Memory.erase m p) p x

/-- `for p in 0 .. 15: BUF[p] <- 0x00`: no position is listed. -/
def Memory.zeroed : Memory := []

/-- `MemWrite(addr, 2, v)` of R12: low byte first (R51). -/
def Memory.write2 (m : Memory) (p : Nat) (v : Mask) : Memory :=
  Memory.write (Memory.write m p (v.setWidth 8)) (p + 1) (v.extractLsb' 8 8)

/-- `MemRead(addr, 2)` of R12: `BUF[addr] + 256 * BUF[addr+1]` (R51). -/
def Memory.read2 (m : Memory) (p : Nat) : Mask := Memory.read m (p + 1) ++ Memory.read m p

/-- Positions rise strictly. -/
def Memory.rising : Memory → Bool
  | [] => true
  | [_] => true
  | (a, _) :: (b, y) :: rest => decide (a < b) && Memory.rising ((b, y) :: rest)

/-- The canonical form: positions rising and inside the buffer (R24), no byte equal to what an unlisted position reads as. -/
def Memory.wf (m : Memory) : Bool :=
  Memory.rising m && m.all (fun c => decide (c.1 < Config.bufLen) && c.2 != bufDefault)

/-! ### Sequences of collaborator calls -/

/-- A state with the answer whether every collaborator call so far succeeded. -/
structure Run where
  st : State
  ok : Bool
  deriving DecidableEq, Repr

/-- Goes on only after success: "the operation stops at that point ..., every state write it made before that point is
kept, and every effect after that point is not made" (R202). -/
def Run.andThen (r : Run) (next : State → Run) : Run := if r.ok then next r.st else r

/-- Changes the state whatever the answer was. -/
def Run.always (r : Run) (f : State → State) : Run := ⟨f r.st, r.ok⟩

/-- One collaborator call: it "first takes the environment's answer IO_OK for that call"; "on fail the call performs
nothing, appends nothing" (R12, R202). -/
def collaborator (effect : State → State) (s : State) : Run :=
  match s.io with
  | [] => ⟨effect s, true⟩
  | .ok :: rest => ⟨effect { s with io := rest }, true⟩
  | .fail :: rest => ⟨{ s with io := rest }, false⟩

/-- The level of a pin latch (R22). -/
def State.latch (s : State) : Pin → Level
  | .cs => s.cs
  | .dat => s.dat
  | .clk => s.clk

/-- Sets a pin latch (R22). -/
def State.setLatch (s : State) (p : Pin) (l : Level) : State :=
  match p with
  | .cs => { s with cs := l }
  | .dat => { s with dat := l }
  | .clk => { s with clk := l }

/-- Appends to `PINTRACE`. -/
def State.logPin (s : State) (e : PinEvent) : State := { s with pinTrace := s.pinTrace ++ [e] }

/-- Appends to `I2CTRACE`. -/
def State.logBus (s : State) (e : BusEvent) : State := { s with i2cTrace := s.i2cTrace ++ [e] }

/-- `PinWrite(p, l)` of R12. -/
def pinWrite (p : Pin) (l : Level) (s : State) : Run :=
  collaborator (fun t => (t.setLatch p l).logPin (.write p l)) s

/-- One call for each of the three pins, each with its own answer (R202); the one event for the three (D7) is appended
once all three have succeeded (notes/assumptions/9.md). -/
def forThreePins (e : PinEvent) (s : State) : Run :=
  (collaborator id s).andThen fun s => (collaborator id s).andThen (collaborator fun t => t.logPin e)

/-- The opening of the three pins (R100). -/
def openPins (s : State) : Run := forThreePins .pinsOpen s

/-- The closing of the three pins (R111). -/
def closePins (s : State) : Run := forThreePins .pinsClose s

/-- `I2cWrite(bytes)` of R12, to the fixed address (R84). -/
def i2cWrite (bytes : List Byte) (s : State) : Run :=
  collaborator (fun t => t.logBus (.xfer Config.i2cAddr bytes)) s

/-- The opening of the bus connection (R130). -/
def openBus (s : State) : Run := collaborator (fun t => t.logBus .busOpen) s

/-- The release of the bus handle (R151). -/
def closeBus (s : State) : Run := collaborator (fun t => t.logBus .busClose) s

/-- `Wait(d)` of R12: the delay goes on `WAITTRACE`; the wait itself is phase WAIT (R178). -/
def State.logWait (s : State) (d : Frac) : State := { s with waitTrace := s.waitTrace ++ [d] }

/-! ### The end of an operation (60_exceptions.md R200, R214)

A status that is not OK is what this hardware has for an exception. "Nothing is saved, no mode changes, no handler runs
inside RBLP, control goes nowhere": the status goes to the host and the state is what the operation left up to that point.
There is no return from it (R216). -/

/-- What a step answers. -/
abbrev Answer := Host.Outcome State Fault Refusal

/-- The status and result go to the host. -/
def State.reply (s : State) (op : Option Byte) (status : Status) (result : Result) : State :=
  { s with replies := s.replies ++ [⟨op, status, result⟩] }

/-- Normal completion. -/
def complete (op : Byte) (result : Result) (s : State) : Answer := .next (s.reply (some op) .ok result)

/-- `raise` of R12. -/
def raise (op : Byte) (status : Status) (s : State) : Answer := .next (s.reply (some op) status .none)

/-- The status of a sequence of collaborator calls: OK, or ResourceError at the first that failed (R202). -/
def Run.status (r : Run) : Status := if r.ok then .ok else .resourceError

/-- The end of an operation that does I/O. -/
def finish (op : Option Byte) (r : Run) : Answer := .next (r.st.reply op r.status .none)

/-! ### Lifecycle guards (40_led_strip.md R112, 42_display.md R134) -/

/-- The operation has a meaning only while `LST = OPEN` (R112). -/
def whenLseOpen (s : State) (k : State → Answer) : Answer :=
  match s.lst with
  | .opened => k s
  | _ => .refused .lseNotOpen

/-- The operation has a meaning only while `DST = OPEN` and no scroll is active (R134). -/
def whenDcsFree (s : State) (k : State → Answer) : Answer :=
  match s.dst with
  | .opened =>
    match s.ste with
    | .idle => k s
    | _ => .refused .scrollActive
  | _ => .refused .dcsNotOpen

end Sys2Proof.Machine
end

