-- ==== Sys2Proof/Machine/Flags.lean ====
section
/-! DEFINITION. RBLP has no status flags and no condition codes (10_state.md R32). What stands in their place is the
status of an operation: its number (60_exceptions.md R200) and the argument checks that raise RangeError (R201). -/

namespace Sys2Proof.Machine

/-- The status codes of R200. -/
def Status.code : Status → Nat
  | .ok => 0
  | .rangeError => 1
  | .resourceError => 2
  | .cancelled => 3

/-- `i < 0 or i >= n`: the index and position checks of R201. -/
def outOfRange (i : Int) (n : Nat) : Bool := decide (i < 0) || decide ((n : Int) ≤ i)

/-- `f < 0 or f > 1`: the brightness and level checks of R201. -/
def fracOutOfRange (f : Frac) : Bool := decide (f < 0) || decide (1 < f)

/-- `speed <= 0`: the check of SCROLL. -/
def speedOutOfRange (speed : Frac) : Bool := decide (speed ≤ 0)

end Sys2Proof.Machine
end

