-- ==== Sys2Proof/Machine/Operands.lean ====
section
/-! DEFINITION. What operands are turned into: the fraction conversions (30_encoding.md R87), the character masks
(41_char_rom.md), the placing of characters (42_display.md R141 to R149) and the padded text and windows of a scroll
(43_scroll.md R172 to R174). -/

namespace Sys2Proof.Machine

/-! ### Fractions -/

/-- `floor(k * f)`, exact (R9): the floor of `k*num/den`. -/
def mulFloor (k : Nat) (f : Frac) : Int := ((k : Int) * f.num) / (f.den : Int)

/-- `BR5(f) = floor(31 * f)` (R87). -/
def br5 (f : Frac) : BitVec 5 := BitVec.ofInt 5 (mulFloor Config.brMax f)

/-- `LV4(f) = floor(15 * f)` (R87; 90_conflicts.md C1). -/
def lv4 (f : Frac) : BitVec 4 := BitVec.ofInt 4 (mulFloor Config.lvMax f)

/-- `DELAY(speed) = speed * 1000` milliseconds, an exact `Frac` (R87, R173). -/
def delay (speed : Frac) : Frac := mkRat (speed.num * 1000) speed.den

/-! ### Characters -/

/-- `SEGROM[k]` (R120): bit 15 is 0 and the entry for space is 0 (R122 (a), (c)); the other bits are free. -/
def segRom (k : Nat) : Mask := if k = 0 then 0#16 else (Config.segBits k).setWidth 16

/-- `ENCODE(c)` (R121): codes outside 0x20..0x7E fall back to the entry of `'?'`. -/
def encodeMask (c : CharCode) : Mask := if 0x20 ≤ c ∧ c ≤ 0x7E then segRom (c - 0x20) else segRom (0x3F - 0x20)

/-- `DP` (R85). -/
def dpMask : Mask := 0x4000#16

/-- The code of `'.'`. -/
def dotChar : CharCode := 0x2E

/-- The code of `'-'`. -/
def dashChar : CharCode := 0x2D

/-- The code of space. -/
def spaceChar : CharCode := 0x20

/-- `MASK(c, dp)` (R124). -/
def charMask (c : CharCode) (dp : Bool) : Mask := if dp ∨ c = dotChar then encodeMask c ||| dpMask else encodeMask c

/-- The buffer writes of SETCHAR (R136): two bytes at the digit position, or none outside 0..3. -/
def putChar (position : Int) (c : CharCode) (dp : Bool) (m : Memory) : Memory :=
  if outOfRange position Config.nDigits then m else Memory.write2 m (2 * position.toNat) (charMask c dp)

/-! ### Placing characters -/

/-- A digit slot of R142: a character with its decimal flag. -/
structure Slot where
  ch : CharCode
  dp : Bool
  deriving DecidableEq, Repr

/-- `START(L, justifyRight)` (R141). -/
def startPos (len : Nat) (justifyRight : Bool) : Nat := if justifyRight then Config.nDigits - len else 0

/-- SETCHAR per slot, at rising positions (R140, R143). -/
def place : Nat → List Slot → Memory → Memory
  | _, [], m => m
  | p, x :: rest, m => place (p + 1) rest (putChar p x.ch x.dp m)

/-- A zeroed buffer with the slots placed (R140, R143). -/
def render (slots : List Slot) (justifyRight : Bool) : Memory :=
  place (startPos slots.length justifyRight) slots Memory.zeroed

/-- The slots of a text: its first four characters at most, no decimal flag (R140). -/
def textSlots (t : Text) : List Slot := (t.take Config.nDigits).map (fun c => ⟨c, false⟩)

/-- R142, with the slots so far, last first. A dot with no slot before it is unspecified. -/
def parseSlotsFrom : List Slot → Text → Option (List Slot)
  | acc, [] => some acc.reverse
  | acc, ch :: rest =>
    if ch = dotChar then
      match acc with
      | [] => none
      | x :: acc' => parseSlotsFrom (⟨x.ch, true⟩ :: acc') rest
    else parseSlotsFrom (⟨ch, false⟩ :: acc) rest

/-- The parsing of DISPNUM (R142). -/
def parseSlots (t : Text) : Option (List Slot) := parseSlotsFrom [] t

/-- `"----"` (R143). -/
def dashes : Text := [dashChar, dashChar, dashChar, dashChar]

/-- What DISPNUM shows for a list of slots: more than four fall back to `"----"` (R143). -/
def numberSlots (slots : List Slot) : List Slot := if slots.length > Config.nDigits then textSlots dashes else slots

/-- The index from 0 of the first dot, if any. -/
def dotIndex (t : Text) : Option Nat := t.findIdx? (fun c => decide (c = dotChar))

/-- The reduced place count of DISPFLOAT for a string that is too long (R147), clamped at 0. -/
def reducedPlaces (value : Frac) (t : Text) : Nat :=
  match dotIndex t with
  | some i => if -1 < value ∧ value < 0 then 3 - i else 4 - i
  | none => 4 - t.length

/-- The string DISPFLOAT hands to DISPNUM (R147), for a formatting function. -/
def floatTextBy (fmt : Frac → Nat → Text) (value : Frac) (decimalPlaces : Nat) : Text :=
  let t := fmt value (min decimalPlaces Config.maxDecimals)
  if t.length > 5 then fmt value (reducedPlaces value t) else t

/-- A base-16 digit, upper case (R149). -/
def hexDigit (d : Nat) : CharCode := if d < 10 then 0x30 + d else 0x41 + (d - 10)

/-- Base-16 digits before `tail`, no leading zeros; `fuel` bounds their number. -/
def hexDigits : Nat → Nat → Text → Text
  | 0, _, tail => tail
  | fuel + 1, v, tail => if v < 16 then hexDigit v :: tail else hexDigits fuel (v / 16) (hexDigit (v % 16) :: tail)

/-- `HEX(v)` for `0 <= v <= 65535` (R149). -/
def hexText (v : Nat) : Text := hexDigits 4 v []

/-! ### Scrolling -/

/-- `base` of R172: right-padded with spaces to at least four characters. -/
def padBase (t : Text) : Text := t ++ List.replicate (4 - t.length) spaceChar

/-- `PAD(text, loop)` (R172). -/
def padText (t : Text) (loop : Bool) : Text := padBase t ++ (if loop then t else List.replicate 4 spaceChar)

/-- `WIN(o)` (R174). -/
def window (pad : Text) (o : Nat) : Text := (pad.drop o).take 4

end Sys2Proof.Machine
end

