-- ==== Sys2Proof/Machine/Dcs.lean ====
section
/-! DEFINITION. DCS, the display command sequencer (spec/42_display.md): DINIT, DSETBRIGHT, DSETBLINK, DCLEAR, FLUSH,
SETCHAR, BUFRD, BUFWR, DISPTEXT, DISPNUM, DISPFLOAT, DISPHEX, DTEARDOWN. -/

namespace Sys2Proof.Machine

/-! ### Shared sequences -/

/-- One transaction of a flush: `I2cWrite([dseq, BUF[dseq]])`, then `dseq` moves on (R135, 10_state.md R31). -/
def flushOne (s : State) : Run :=
  let p := s.dseq.getD 0
  (i2cWrite (dataBytes (BitVec.ofNat 4 p) (Memory.read s.buf p)) s).andThen fun s => ⟨{ s with dseq := some (p + 1) }, true⟩

/-- `n` transactions of a flush. -/
def flushLoop : Nat → State → Run
  | 0, s => ⟨s, true⟩
  | n + 1, s => (flushOne s).andThen (flushLoop n)

/-- FLUSH (R135). `dseq` lives from its start to its end (10_state.md R31). -/
def flushSeq (s : State) : Run :=
  (flushLoop Config.bufLen { s with dseq := some 0 }).always fun s => { s with dseq := none }

/-- DCLEAR (R133). -/
def clearSeq (s : State) : Run := flushSeq { s with buf := Memory.zeroed }

/-- DSETBLINK (R132): the command, and the coupled flush. -/
def blinkSeq (rate : BlinkRate) (s : State) : Run := (i2cWrite (blinkBytes rate) s).andThen flushSeq

/-- The common end of DISPTEXT and DISPNUM: the buffer zeroed, the slots placed, one flush (R140, R143). -/
def slotsSeq (slots : List Slot) (justifyRight : Bool) (s : State) : Run :=
  flushSeq { s with buf := render slots justifyRight }

/-- DISPTEXT (R140): the empty text clears the display. -/
def textSeq (t : Text) (justifyRight : Bool) (s : State) : Run :=
  match t with
  | [] => clearSeq s
  | _ :: _ => slotsSeq (textSlots t) justifyRight s

/-- The oscillator-on command (R80). -/
def oscOn (s : State) : Run := i2cWrite oscOnBytes s

/-- The calls of DINIT, and `DST` (R130). -/
def dinitBody (s : State) : Run :=
  (openBus { s with buf := Memory.zeroed }).andThen fun s =>
    (oscOn s).andThen fun s =>
      (if Config.initBlinkFlush then blinkSeq .off s else i2cWrite (blinkBytes .off) s).andThen fun s =>
        (i2cWrite (brightBytes 15#4) s).andThen fun s =>
          (clearSeq s).andThen fun s => ⟨{ s with dst := .opened }, true⟩

/-- DINIT up to its end (R130), under way from its first call to its last (notes/assumptions/2.md). -/
def dinitSeq (s : State) : Run :=
  (dinitBody { s with constructing := true }).always fun s => { s with constructing := false }

/-- DTEARDOWN in state OPEN (R151): the handle is released and `DST` goes to CLOSED whatever the clear answered. -/
def dteardownSeq (s : State) : Run :=
  let cleared := clearSeq s
  let released := closeBus cleared.st
  ⟨{ released.st with dst := .closed }, cleared.ok && released.ok⟩

/-! ### The operations -/

/-- DINIT (R130). -/
def execDinit (s : State) : Answer :=
  match s.dst with
  | .uninit => finish (some Op.dinit) (dinitSeq s)
  | _ => .refused .dcsNotUninit

/-- DSETBRIGHT (R131): the check comes before any I/O (R211). -/
def execDsetbright (level : Frac) (s : State) : Answer :=
  whenDcsFree s fun s =>
    if fracOutOfRange level then raise Op.dsetbright .rangeError s
    else finish (some Op.dsetbright) (i2cWrite (brightBytes (lv4 level)) s)

/-- DSETBLINK (R132). -/
def execDsetblink (rate : BlinkRate) (s : State) : Answer :=
  whenDcsFree s fun s => finish (some Op.dsetblink) (blinkSeq rate s)

/-- DCLEAR (R133). -/
def execDclear (s : State) : Answer := whenDcsFree s fun s => finish (some Op.dclear) (clearSeq s)

/-- FLUSH (R135). -/
def execFlush (s : State) : Answer := whenDcsFree s fun s => finish (some Op.flush) (flushSeq s)

/-- SETCHAR (R136): always OK; a position outside 0..3 is a silent no-op. -/
def execSetchar (position : Int) (c : CharCode) (showDecimal : Bool) (s : State) : Answer :=
  whenDcsFree s fun s => complete Op.setchar .none { s with buf := putChar position c showDecimal s.buf }

/-- BUFRD (R138). -/
def execBufrd (position : Int) (s : State) : Answer :=
  whenDcsFree s fun s =>
    if outOfRange position Config.bufLen then raise Op.bufrd .rangeError s
    else complete Op.bufrd (.byte (Memory.read s.buf position.toNat)) s

/-- BUFWR (R139). -/
def execBufwr (position : Int) (value : Byte) (s : State) : Answer :=
  whenDcsFree s fun s =>
    if outOfRange position Config.bufLen then raise Op.bufwr .rangeError s
    else complete Op.bufwr .none { s with buf := Memory.write s.buf position.toNat value }

/-- DISPTEXT (R140). -/
def execDisptext (t : Text) (justifyRight : Bool) (s : State) : Answer :=
  whenDcsFree s fun s => finish (some Op.disptext) (textSeq t justifyRight s)

/-- The common part of DISPNUM and DISPFLOAT (R142, R143): parsing, and the refusal of a leading dot (U6). The fallback
`DISPTEXT("----", justifyRight)` is `slotsSeq` of its slots. -/
def showNumber (op : Byte) (t : Text) (justifyRight : Bool) (s : State) : Answer :=
  match parseSlots t with
  | none => .refused .leadingDot
  | some slots => finish (some op) (slotsSeq (numberSlots slots) justifyRight s)

/-- DISPNUM (R142, R143). -/
def execDispnum (t : Text) (justifyRight : Bool) (s : State) : Answer :=
  whenDcsFree s fun s => showNumber Op.dispnum t justifyRight s

/-- DISPFLOAT for a formatting function (R147). -/
def dispfloatBy (fmt : Frac → Nat → Text) (value : Frac) (decimalPlaces : Nat) (justifyRight : Bool) (s : State) : Answer :=
  whenDcsFree s fun s => showNumber Op.dispfloat (floatTextBy fmt value decimalPlaces) justifyRight s

/-- DISPFLOAT (R147), with `FMT` (R5). -/
def execDispfloat (value : Frac) (decimalPlaces : Nat) (justifyRight : Bool) (s : State) : Answer :=
  dispfloatBy Config.fmt value decimalPlaces justifyRight s

/-- DISPHEX (R148): a value outside 0..0xFFFF is silently ignored. -/
def execDisphex (value : Int) (justifyRight : Bool) (s : State) : Answer :=
  whenDcsFree s fun s =>
    if outOfRange value 0x10000 then complete Op.disphex .none s
    else finish (some Op.disphex) (textSeq (hexText value.toNat) justifyRight s)

/-- DTEARDOWN (R151): in CLOSED nothing happens. -/
def execDteardown (s : State) : Answer :=
  match s.dst with
  | .closed => complete Op.dteardown .none s
  | _ => whenDcsFree s fun s => finish (some Op.dteardown) (dteardownSeq s)

end Sys2Proof.Machine
end

