-- ==== Sys2Proof/Machine/Lse.lean ====
section
/-! DEFINITION. LSE, the LED strip serial encoder (spec/40_led_strip.md): LINIT, SETPIXEL, SETALL, LSETBRIGHT, LCLEAR,
GETPIXEL, SHOW, LTEARDOWN. -/

namespace Sys2Proof.Machine

/-! ### Sending (R106, 30_encoding.md R75 to R78) -/

/-- `lseq <- lseq + 1`, while it is live (10_state.md R31). -/
def State.bumpLseq (s : State) : State := { s with lseq := s.lseq.map (· + 1) }

/-- `SendBit(b)` (R106, R78). -/
def sendBit (b : Bool) (s : State) : Run :=
  (pinWrite .dat b s).andThen fun s =>
    (pinWrite .clk true s).andThen fun s =>
      (pinWrite .clk false s).andThen fun s => ⟨s.bumpLseq, true⟩

/-- Bit cells in order. -/
def sendBits : List Bool → State → Run
  | [], s => ⟨s, true⟩
  | b :: rest, s => (sendBit b s).andThen (sendBits rest)

/-- `Bits8(v)` of R107: most significant bit first. -/
def bits8 (v : Byte) : List Bool :=
  [v.getLsbD 7, v.getLsbD 6, v.getLsbD 5, v.getLsbD 4, v.getLsbD 3, v.getLsbD 2, v.getLsbD 1, v.getLsbD 0]

/-- `SendByte` for each byte (R106). -/
def sendBytes (bs : List Byte) (s : State) : Run := sendBits (bs.flatMap bits8) s

/-- The start frame (R75). -/
def startFrame (s : State) : Run := sendBits (List.replicate Config.startBits false) s

/-- The frame of one pixel (R76). -/
def pixelFrame (p : Pixel) (s : State) : Run := sendBytes (pixelBytes p.br p.b p.g p.r) s

/-- The frames of the pixels, in index order (R79). -/
def pixelFrames : List Pixel → State → Run
  | [], s => ⟨s, true⟩
  | p :: rest, s => (pixelFrame p s).andThen (pixelFrames rest)

/-- A clock pulse, CLK "high-then-low" (R77). -/
def pulse (s : State) : Run :=
  (pinWrite .clk true s).andThen fun s => (pinWrite .clk false s).andThen fun s => ⟨s.bumpLseq, true⟩

/-- `n` clock pulses. -/
def pulses : Nat → State → Run
  | 0, s => ⟨s, true⟩
  | n + 1, s => (pulse s).andThen (pulses n)

/-- The end frame (R77): DAT low once, then the pulses (R106). -/
def endFrame (s : State) : Run := (pinWrite .dat false s).andThen (pulses Config.endPulses)

/-- The transmission of SHOW (R106). `lseq` lives from its start to its end (10_state.md R31). -/
def showSeq (s : State) : Run :=
  ((pinWrite .cs Config.csActive { s with lseq := some 0 }).andThen fun s =>
    (startFrame s).andThen fun s =>
      (pixelFrames s.pix s).andThen fun s =>
        (endFrame s).andThen (pinWrite .cs (!Config.csActive))).always fun s => { s with lseq := none }

/-- The writes of LCLEAR (R104). -/
def blackened (s : State) : State :=
  { s with pix := s.pix.map (fun p => { p with r := 0#8, g := 0#8, b := 0#8 }) }

/-! ### The operations -/

/-- The body of LINIT (R100). -/
def linitSeq (s : State) : Run :=
  (openPins { s with pix := s.pix.map (fun _ => Pixel.zero) }).andThen fun s =>
    ⟨{ s with cs := !Config.csActive, dat := false, clk := false, lst := .opened }, true⟩

/-- LINIT (R100). -/
def execLinit (s : State) : Answer :=
  match s.lst with
  | .uninit => finish (some Op.linit) (linitSeq s)
  | _ => .refused .lseNotUninit

/-- SETPIXEL (R101). -/
def execSetpixel (index : Int) (r g b : Byte) (brightness : Frac) (s : State) : Answer :=
  whenLseOpen s fun s =>
    if outOfRange index s.nPix ∨ fracOutOfRange brightness then raise Op.setpixel .rangeError s
    else complete Op.setpixel .none { s with pix := s.pix.set index.toNat ⟨r, g, b, br5 brightness⟩ }

/-- SETALL (R102). -/
def execSetall (r g b : Byte) (brightness : Frac) (s : State) : Answer :=
  whenLseOpen s fun s =>
    if fracOutOfRange brightness then raise Op.setall .rangeError s
    else complete Op.setall .none { s with pix := s.pix.map (fun _ => ⟨r, g, b, br5 brightness⟩) }

/-- LSETBRIGHT (R103). -/
def execLsetbright (brightness : Frac) (s : State) : Answer :=
  whenLseOpen s fun s =>
    if fracOutOfRange brightness then raise Op.lsetbright .rangeError s
    else complete Op.lsetbright .none { s with pix := s.pix.map (fun p => { p with br := br5 brightness }) }

/-- LCLEAR (R104). -/
def execLclear (s : State) : Answer := whenLseOpen s fun s => complete Op.lclear .none (blackened s)

/-- GETPIXEL (R105). -/
def execGetpixel (index : Int) (s : State) : Answer :=
  whenLseOpen s fun s =>
    if outOfRange index s.nPix then raise Op.getpixel .rangeError s
    else complete Op.getpixel (.pixel (s.pix.getD index.toNat Pixel.zero)) s

/-- SHOW (R106). -/
def execLshow (s : State) : Answer := whenLseOpen s fun s => finish (some Op.lshow) (showSeq s)

/-- The steps of LTEARDOWN (R111): a failure of its SHOW or its close ends that step only. -/
def lteardownSteps (s : State) : State :=
  let shown := (showSeq (blackened s)).st
  let released := (closePins shown).st
  { released with lst := .closed }

/-- LTEARDOWN (R111): always OK; in CLOSED nothing happens. -/
def execLteardown (s : State) : Answer :=
  match s.lst with
  | .closed => complete Op.lteardown .none s
  | .opened => complete Op.lteardown .none (lteardownSteps s)
  | .uninit => .refused .lseNotOpen

end Sys2Proof.Machine
end

