-- ==== Sys2Proof/Machine/Segrom.lean ====
section
/-! DEFINITION. SEGROM, the character-encoding ROM (spec/41_char_rom.md): ENCODE. -/

namespace Sys2Proof.Machine

/-- ENCODE (R121): "No failure mode", defined in every lifecycle state. -/
def execEncodeChar (c : CharCode) (s : State) : Answer := complete Op.encodeChar (.mask (encodeMask c)) s

end Sys2Proof.Machine
end

