-- ==== Sys2Proof/Machine/Ste.lean ====
section
/-! DEFINITION. STE, the scrolling-text engine (spec/43_scroll.md): SCROLL, the CANCEL input, and the steps STE takes by
itself (show, end of the wait, advance, completion, cancel, failure). -/

namespace Sys2Proof.Machine

/-! ### Start, and the cancel input -/

/-- The ScrollState of a new scroll (R170). `S.cancel` is the token's flag as the host hands it over (R171). -/
def newScroll (t : Text) (speed : Frac) (loop : Bool) (token : Bool) : ScrollState where
  text := t
  pad := padText t loop
  off := 0
  loop := loop
  delay := delay speed
  cancel := token

/-- SCROLL (R170): it starts the scroll; the operation ends in a later step. -/
def execScroll (t : Text) (speed : Frac) (loop : Bool) (s : State) : Answer :=
  whenDcsFree s fun s =>
    if speedOutOfRange speed then raise Op.scroll .rangeError s
    else .next { s with ste := .showing (newScroll t speed loop (s.tokens.headD false)), tokens := s.tokens.tail }

/-- CANCEL (R207): latched while a scroll is active (10_state.md R30); outside a scroll it has no effect. -/
def execCancel (s : State) : Answer :=
  match s.ste with
  | .idle => .next s
  | .showing S => .next { s with ste := .showing { S with cancel := true } }
  | .waiting S => .next { s with ste := .waiting { S with cancel := true } }

/-! ### The steps of an active scroll -/

/-- The end of the SCROLL operation: ScrollState is discarded, `SPH <- IDLE`, the status goes to the host
(R180, R181, R182). -/
def endScroll (status : Status) (s : State) : State := State.reply { s with ste := .idle } (some Op.scroll) status .none

/-- The show step (R176, R182): the window, left-justified, then the wait. -/
def showStep (S : ScrollState) (s : State) : State :=
  let r := textSeq (window S.pad S.off) false s
  if r.ok then State.logWait { r.st with ste := .waiting S } S.delay else endScroll .resourceError r.st

/-- The cancel step (R181, R182): DCLEAR, then Cancelled, or ResourceError if the clear failed. -/
def cancelStep (s : State) : State :=
  let r := clearSeq s
  endScroll (if r.ok then .cancelled else .resourceError) r.st

/-- The advance step (R179) and completion (R180). -/
def advanceStep (S : ScrollState) (s : State) : State :=
  if S.off < S.pad.length - 4 then { s with ste := .showing { S with off := S.off + 1 } }
  else if S.loop then { s with ste := .showing { S with off := 0 } }
  else endScroll .ok s

/-- Timer expiry (R178, R208): it ends a wait, and a cancel request at the same moment wins; outside phase WAIT there is
nothing it belongs to. -/
def expireStep (cancelNow : Bool) (s : State) : State :=
  match s.ste with
  | .waiting S => if S.cancel ∨ cancelNow then cancelStep s else advanceStep S s
  | _ => s

end Sys2Proof.Machine
end

