-- ==== Sys2Proof/Machine/Wire.lean ====
section
/-! DEFINITION. The wire-format rows of the opcode table (30_encoding.md R75 to R85) as items by themselves: each LED and
I2C row is the emission its rule describes, by the same sequences the operations use, under the guard of the sub-block
whose wire it is; I2C.OSC_ON while a DINIT is under way, and I2C.DATA while a flush is (DESIGN CHOICE,
notes/assumptions/2.md). An item that is not an operation of R71 has no number. -/

namespace Sys2Proof.Machine

/-- I2C.OSC_ON (R80): "Sent only by DINIT", so it has a meaning while a DINIT is under way, by the call DINIT makes, and
no other. -/
def execI2cOscOn (s : State) : Answer := if s.constructing then finish none (oscOn s) else .refused .oscOnOutsideDinit

/-- I2C.BLINK (R81): the command byte alone; the coupled flush belongs to DSETBLINK (R132). -/
def execI2cBlink (rate : BlinkRate) (s : State) : Answer := whenDcsFree s fun s => finish none (i2cWrite (blinkBytes rate) s)

/-- I2C.BRIGHT (R82). -/
def execI2cBright (level : BitVec 4) (s : State) : Answer :=
  whenDcsFree s fun s => finish none (i2cWrite (brightBytes level) s)

/-- I2C.DATA (R83): the device positions are reached by "FLUSH only" (20_memory.md R50), so it has a meaning while a flush
is under way, as the transaction `[dseq, BUF[dseq]]` that the flush sends next, by the call the flush makes, and no other. -/
def execI2cData (position : BitVec 4) (value : Byte) (s : State) : Answer :=
  if s.dseq = some position.toNat ∧ value = Memory.read s.buf position.toNat then finish none (flushOne s)
  else .refused .dataOutsideFlush

/-- LED.START (R75). -/
def execLedStart (s : State) : Answer := whenLseOpen s fun s => finish none (startFrame s)

/-- LED.PIXEL (R76). -/
def execLedPixel (br : BitVec 5) (b g r : Byte) (s : State) : Answer :=
  whenLseOpen s fun s => finish none (pixelFrame ⟨r, g, b, br⟩ s)

/-- LED.END (R77). -/
def execLedEnd (s : State) : Answer := whenLseOpen s fun s => finish none (endFrame s)

/-- LED.BITCELL (R78). -/
def execLedBitcell (bit : Bool) (s : State) : Answer := whenLseOpen s fun s => finish none (sendBit bit s)

/-- SEG.MASK (R85): the mask as a value, which is what ENCODE returns (R121); bit 15 must be 0. It moves no state. -/
def execSegMask (mask : Mask) (s : State) : Answer :=
  if maskOk mask then .next (s.reply none .ok (.mask mask)) else .refused .maskBit15

end Sys2Proof.Machine
end

