-- ==== Sys2Proof/Machine/Dispatch.lean ====
section
/-! DEFINITION. One arm per constructor of Instr. -/

namespace Sys2Proof.Machine

def exec (i : Instr) (s : State) : Host.Outcome State Fault Refusal :=
  match i with
  | .linit => Sys2Proof.Machine.execLinit s
  | .setpixel index r g b brightness => Sys2Proof.Machine.execSetpixel index r g b brightness s
  | .setall r g b brightness => Sys2Proof.Machine.execSetall r g b brightness s
  | .lsetbright brightness => Sys2Proof.Machine.execLsetbright brightness s
  | .lclear => Sys2Proof.Machine.execLclear s
  | .getpixel index => Sys2Proof.Machine.execGetpixel index s
  | .lshow => Sys2Proof.Machine.execLshow s
  | .lteardown => Sys2Proof.Machine.execLteardown s
  | .encodeChar c => Sys2Proof.Machine.execEncodeChar c s
  | .dinit => Sys2Proof.Machine.execDinit s
  | .dsetbright level => Sys2Proof.Machine.execDsetbright level s
  | .dsetblink rate => Sys2Proof.Machine.execDsetblink rate s
  | .dclear => Sys2Proof.Machine.execDclear s
  | .flush => Sys2Proof.Machine.execFlush s
  | .setchar position c showDecimal => Sys2Proof.Machine.execSetchar position c showDecimal s
  | .bufrd position => Sys2Proof.Machine.execBufrd position s
  | .bufwr position value => Sys2Proof.Machine.execBufwr position value s
  | .disptext text justifyRight => Sys2Proof.Machine.execDisptext text justifyRight s
  | .dispnum text justifyRight => Sys2Proof.Machine.execDispnum text justifyRight s
  | .dispfloat value decimalPlaces justifyRight => Sys2Proof.Machine.execDispfloat value decimalPlaces justifyRight s
  | .disphex value justifyRight => Sys2Proof.Machine.execDisphex value justifyRight s
  | .dteardown => Sys2Proof.Machine.execDteardown s
  | .scroll text speed loop => Sys2Proof.Machine.execScroll text speed loop s
  | .cancel => Sys2Proof.Machine.execCancel s
  | .i2cOscOn => Sys2Proof.Machine.execI2cOscOn s
  | .i2cBlink rate => Sys2Proof.Machine.execI2cBlink rate s
  | .i2cBright level => Sys2Proof.Machine.execI2cBright level s
  | .i2cData position value => Sys2Proof.Machine.execI2cData position value s
  | .ledStart => Sys2Proof.Machine.execLedStart s
  | .ledPixel br b g r => Sys2Proof.Machine.execLedPixel br b g r s
  | .ledEnd => Sys2Proof.Machine.execLedEnd s
  | .ledBitcell bit => Sys2Proof.Machine.execLedBitcell bit s
  | .segMask mask => Sys2Proof.Machine.execSegMask mask s

end Sys2Proof.Machine
end

