-- ==== Sys2Proof/Machine/Fetch.lean ====
section
/-! DEFINITION. What RBLP does next (00_scope.md R6, 43_scroll.md R176 to R182): the next step of an active scroll, or the
next thing that arrives from outside. -/

namespace Sys2Proof.Machine

/-- What a step is going to do. -/
inductive Action where
  /-- executes an instruction -/
  | run (i : Instr) (s : State)
  /-- takes a step of its own, or waits -/
  | move (s : State)
  /-- stops -/
  | reject (r : Refusal)

/-- Decodes a packet and executes it. -/
def deliver (p : Packet) (s : State) : Action :=
  match decode p with
  | .ok i => .run i s
  | .error e => .reject (.undecodable e)

/-- Takes the next event; with none there, RBLP waits for the host (R231) or for the timer (R221). -/
def takeEvent (s : State) : Action :=
  match s.inbox with
  | [] => .move s
  | .packet p :: rest => deliver p { s with inbox := rest }
  | .expiry cancelNow :: rest => .move (expireStep cancelNow { s with inbox := rest })

/-- In phase SHOW only the CANCEL input can arrive before the window is done (10_state.md R30); everything else comes
after it. -/
def takeInputOr (otherwise : Action) (s : State) : Action :=
  match s.inbox with
  | .packet p :: rest => if p.fmt = .input then deliver p { s with inbox := rest } else otherwise
  | _ => otherwise

/-- The next action: in phase SHOW the show step (R176); in phase WAIT the cancel step as soon as the flag is set (R178);
else the next event. -/
def nextAction (s : State) : Action :=
  match s.ste with
  | .idle => takeEvent s
  | .showing S => takeInputOr (.move (showStep S s)) s
  | .waiting S => if S.cancel then .move (cancelStep s) else takeEvent s

/-- Whether STE's next step is its own, so that no operation is fetched. -/
def Ste.busy : Ste → Bool
  | .idle => false
  | .showing _ => true
  | .waiting S => S.cancel

end Sys2Proof.Machine
end

