-- ==== Sys2Proof/Machine/Step.lean ====
section
/-! DEFINITION. One step of RBLP, and the placing of a table word where the step fetches. -/

namespace Sys2Proof.Machine

/-- One step. -/
def step (s : State) : Host.Outcome State Fault Refusal :=
  match nextAction s with
  | .run i t => exec i t
  | .move t => .next t
  | .reject r => .refused r

/-- `s` with the packet of a table word next to arrive. A scroll whose own step would come first is taken out, since
while it is there nothing is fetched; all else stays. -/
def State.withFetchWord (s : State) (nbits w : Nat) : State :=
  { s with inbox := .packet (tablePacket nbits w) :: s.inbox, ste := if s.ste.busy then .idle else s.ste }

end Sys2Proof.Machine
end

