-- ==== Sys2Proof/Machine/Observe.lean ====
section
/-! DEFINITION. What RBLP sends, as functions of its state: the event lists of SHOW and of a flush (40_led_strip.md R107,
42_display.md R135) and the level-exact samples of the LED wire (R108, 30_encoding.md R79). Claims are stated with these;
no meaning uses them. -/

namespace Sys2Proof.Machine

/-! ### How far a sequence of collaborator calls gets -/

/-- Of `n` calls in a row that stop at the first failure, how many succeed (R202). -/
def okCalls : Nat → List IoAnswer → Nat
  | 0, _ => 0
  | n + 1, [] => n + 1
  | n + 1, .ok :: rest => okCalls n rest + 1
  | _ + 1, .fail :: _ => 0

/-- The answers left after such a sequence. -/
def answersLeft : Nat → List IoAnswer → List IoAnswer
  | 0, io => io
  | _ + 1, [] => []
  | n + 1, .ok :: rest => answersLeft n rest
  | _ + 1, .fail :: rest => rest

/-- `n` calls succeed in this state. -/
def State.ioOk (s : State) (n : Nat) : Prop := okCalls n s.io = n

/-! ### SHOW (R107) -/

/-- `W(p, l)` of R107. -/
abbrev PinStep := Pin × Level

/-- `Cells(bits)` of R107. -/
def cells (bits : List Bool) : List PinStep := bits.flatMap fun b => [(.dat, b), (.clk, true), (.clk, false)]

/-- `Pulses(n)` of R107. -/
def pulseEvents (n : Nat) : List PinStep := (List.replicate n [(.clk, true), (.clk, false)]).flatten

/-- The 32 bits of a pixel frame in wire order (R76). -/
def pixelBits (p : Pixel) : List Bool := (pixelBytes p.br p.b p.g p.r).flatMap bits8

/-- `ShowEvents(PIX)` (R107). -/
def showEvents (pix : List Pixel) : List PinStep :=
  (.cs, Config.csActive) ::
    (cells (List.replicate Config.startBits false) ++ (cells (pix.flatMap pixelBits) ++
      ((.dat, false) :: (pulseEvents Config.endPulses ++ [(.cs, !Config.csActive)]))))

/-- The pin writes of a list, in order, up to the first that fails: a sequence as a list of calls. -/
def pinWrites : List PinStep → State → Run
  | [], s => ⟨s, true⟩
  | w :: rest, s => (pinWrite w.1 w.2 s).andThen (pinWrites rest)

/-! ### Samples (R108) -/

/-- The levels of the three pins. -/
structure Levels where
  cs : Level
  dat : Level
  clk : Level
  deriving DecidableEq, Repr

/-- The levels after one pin write. -/
def Levels.after (v : Levels) (w : PinStep) : Levels :=
  match w.1 with
  | .cs => { v with cs := w.2 }
  | .dat => { v with dat := w.2 }
  | .clk => { v with clk := w.2 }

/-- The levels after a list of pin writes. -/
def levelsAfter (v : Levels) (ws : List PinStep) : Levels := ws.foldl Levels.after v

/-- The levels of the latches (R22). -/
def State.levels (s : State) : Levels := ⟨s.cs, s.dat, s.clk⟩

/-- "the level of DAT at a moment CLK goes from 0 to 1 while CS is at `CS_ACTIVE`" (R108). -/
def samples : Levels → List PinStep → List Bool
  | _, [] => []
  | v, w :: rest =>
    let v' := v.after w
    if v.clk = false ∧ v'.clk = true ∧ v'.cs = Config.csActive then v'.dat :: samples v' rest else samples v' rest

/-- The 32-bit word of a pixel frame (R79). -/
def pixelWord (p : Pixel) : BitVec 32 := (0xE0#8 ||| p.br.setWidth 8) ++ p.b ++ p.g ++ p.r

/-- The DAT level at rising edge `k` of a transmission (R79). -/
def frameBit (pix : List Pixel) (k : Nat) : Bool :=
  if k < 32 then false
  else if k < 32 + 32 * pix.length then (pixelWord (pix.getD ((k - 32) / 32) Pixel.zero)).getLsbD (31 - (k - 32) % 32)
  else false

/-! ### A flush (R135, R83) -/

/-- One data transaction of a flush. -/
def flushEvent (buf : Memory) (p : Nat) : BusEvent := .xfer Config.i2cAddr (dataBytes (BitVec.ofNat 4 p) (Memory.read buf p))

/-- The 16 transactions of a flush, position 0 to 15. -/
def flushEvents (buf : Memory) : List BusEvent := (List.range Config.bufLen).map (flushEvent buf)

/-- The one-byte transaction of a command. -/
def commandEvent (b : Byte) : BusEvent := .xfer Config.i2cAddr [b]

/-- The bus calls of a list, in order, up to the first that fails. -/
def busCalls : List BusEvent → State → Run
  | [], s => ⟨s, true⟩
  | e :: rest, s => (collaborator (fun t => t.logBus e) s).andThen (busCalls rest)

end Sys2Proof.Machine
end

