-- ==== Sys2Proof/Safety.lean ====
section
/-! DEFINITION. What holds in every state of a run: the invariants the spec states of its own state and wires. -/

namespace Sys2Proof.Machine

/-- `k` steps, stopping at the first refusal. -/
def steps : Nat → State → Host.Outcome State Fault Refusal
  | 0, s => .next s
  | k + 1, s =>
    match step s with
    | .next t => steps k t
    | .fault f => .fault f
    | .refused r => .refused r

/-- What RBLP can put on the bus (30_encoding.md R80 to R84, R86 (b) to (e)): to `I2C_ADDR`, the one byte 0x21, a blink
command with its bit 0 set, a brightness command, or a position 0..15 with a value. -/
def BusEvent.legal : BusEvent → Bool
  | .busOpen => true
  | .busClose => true
  | .xfer addr bytes =>
    decide (addr = 0x70#8) &&
      match bytes with
      | [b] => decide (b = 0x21#8) || decide (b ∈ [0x81#8, 0x83#8, 0x85#8, 0x87#8]) || decide (0xE0#8 ≤ b ∧ b ≤ 0xEF#8)
      | [p, _] => decide (p ≤ 0x0F#8)
      | _ => false

/-- ScrollState is what R170 made of the operands, with an offset inside the sweep (R28, R172, R173). -/
def ScrollState.wf (S : ScrollState) : Prop :=
  S.pad = padText S.text S.loop ∧ S.off + 4 ≤ S.pad.length ∧ 0 < S.delay

/-- STE and DCS agree: a scroll is active only while `DST = OPEN` (R134, R170), on a well-formed ScrollState. -/
def State.scrollWf (s : State) : Prop :=
  match s.ste.scrollState with
  | none => True
  | some S => s.dst = .opened ∧ S.wf

/-- The invariant: the pixel file has `N_PIX` registers (R20), the buffer is a canonical memory of positions 0..15 (R24),
the sequence counters are dead between operations (R31), no DINIT is under way between them, the scroll state is
consistent (R28), and everything sent on the bus is legal (R86). -/
structure State.Inv (s : State) : Prop where
  pixCount : s.pix.length = Config.nPix
  bufWf : Memory.wf s.buf = true
  lseqDead : s.lseq = none
  dseqDead : s.dseq = none
  notConstructing : s.constructing = false
  scrollOk : s.scrollWf
  busLegal : ∀ e ∈ s.i2cTrace, BusEvent.legal e = true

/-- The mask of every digit slot has bit 15 clear (30_encoding.md R85, R86 (a)): bit 7 of every odd byte. -/
def State.maskClear (s : State) : Prop := ∀ p < 8, (Memory.read s.buf (2 * p + 1)).getLsbD 7 = false

/-- What only LSE owns (10_state.md R20 to R23). -/
def State.sameLse (s t : State) : Prop :=
  t.pix = s.pix ∧ t.cs = s.cs ∧ t.dat = s.dat ∧ t.clk = s.clk ∧ t.lst = s.lst ∧ t.lseq = s.lseq ∧ t.pinTrace = s.pinTrace

/-- What only DCS and STE own (R24 to R30). -/
def State.sameDisplay (s t : State) : Prop :=
  (∀ p, Memory.read t.buf p = Memory.read s.buf p) ∧ t.dst = s.dst ∧ t.ste = s.ste ∧ t.dseq = s.dseq ∧
    t.constructing = s.constructing ∧ t.i2cTrace = s.i2cTrace ∧ t.waitTrace = s.waitTrace ∧ t.tokens = s.tokens

/-- Two states with the same histories (R34). -/
def State.sameHistories (s t : State) : Prop :=
  t.pinTrace = s.pinTrace ∧ t.i2cTrace = s.i2cTrace ∧ t.waitTrace = s.waitTrace

/-- The same state with other histories, for claims that no rule reads them (R34). -/
def State.withHistories (s : State) (pins : List PinEvent) (bus : List BusEvent) (waits : List Frac) : State :=
  { s with pinTrace := pins, i2cTrace := bus, waitTrace := waits }

end Sys2Proof.Machine
end

