-- ==== Sys2Proof/Certificates/Slice0/Obligations.lean ====
section
/-! DEFINITION. The statements about RBLP for the provers, each from numbered rules of spec/. `Sys2Proof.Spec` holds the
vocabulary they share, written from the rules and not from the meanings. -/

open Sys2Proof Sys2Proof.Machine

namespace Sys2Proof.Spec

/-- The sixteen transactions of a flush of a buffer that reads as `rd`: `[i, BUF[i]]` to 0x70, position 0 to 15 (R83,
R84, R135). -/
def flushOf (rd : Nat → Byte) : List BusEvent := (List.range 16).map fun i => .xfer 0x70#8 [BitVec.ofNat 8 i, rd i]

/-- A one-byte transaction to 0x70. -/
def command (b : Byte) : BusEvent := .xfer 0x70#8 [b]

/-- The sixteen transactions `[i, 0x00]`. -/
def flushZeros : List BusEvent := flushOf fun _ => 0x00#8

/-- OK if `n` collaborator calls in a row succeed, else ResourceError (R202). -/
def ioStatus (n : Nat) (s : State) : Status := if okCalls n s.io = n then .ok else .resourceError

/-- The state after a list of bus calls of which the environment lets the first so many succeed: those are on `I2CTRACE`,
the answers are used up, nothing else changes (R12, R202). -/
def sent (es : List BusEvent) (s : State) : State :=
  { s with i2cTrace := s.i2cTrace ++ es.take (okCalls es.length s.io), io := answersLeft es.length s.io }

/-- ... and the status goes to the host (R200). -/
def sentReply (op : Option Byte) (es : List BusEvent) (s : State) : State :=
  (sent es s).reply op (ioStatus es.length s) .none

/-- The state after a list of pin writes of which the environment lets the first so many succeed (R12, R22, R202). -/
def pinned (ws : List PinStep) (s : State) : State :=
  let done := ws.take (okCalls ws.length s.io)
  { s with
    cs := (levelsAfter s.levels done).cs, dat := (levelsAfter s.levels done).dat, clk := (levelsAfter s.levels done).clk,
    pinTrace := s.pinTrace ++ done.map (fun w => .write w.1 w.2), io := answersLeft ws.length s.io }

/-- ... and the status goes to the host. -/
def pinnedReply (op : Option Byte) (ws : List PinStep) (s : State) : State :=
  (pinned ws s).reply op (ioStatus ws.length s) .none

/-- The mask in digit position `p` when slots are placed from `START(L, justifyRight)` on (R141): `4 - L` or 0. -/
def slotMask (slots : List Slot) (justifyRight : Bool) (p : Nat) : Mask :=
  let start := if justifyRight then 4 - slots.length else 0
  if start ≤ p then
    match slots[p - start]? with
    | some x => charMask x.ch x.dp
    | none => 0#16
  else 0#16

/-- The buffer shows these slots and nothing else: digit positions 0 to 3 hold their masks, bytes 8 to 15 are zero
(R140, R143). -/
def Shows (m : Memory) (slots : List Slot) (justifyRight : Bool) : Prop :=
  Memory.wf m = true ∧ (∀ p < 4, Memory.read2 m (2 * p) = slotMask slots justifyRight p) ∧
    ∀ a, 8 ≤ a → Memory.read m a = 0x00#8

/-- A text made of characters that are no dots, each followed by some number of dots: every text with no leading dot is
one, in one way. -/
def dotted (gs : List (CharCode × Nat)) : Text := gs.flatMap fun g => g.1 :: List.replicate g.2 0x2E

/-- The slots of such a text (R142): a dot attaches a flag to the character before it. -/
def dottedSlots (gs : List (CharCode × Nat)) : List Slot := gs.map fun g => ⟨g.1, decide (g.2 ≠ 0)⟩

/-- What DISPNUM shows for them (R143): more than four slots fall back to `"----"`. -/
def numberShown (gs : List (CharCode × Nat)) : List Slot :=
  if gs.length > 4 then [⟨0x2D, false⟩, ⟨0x2D, false⟩, ⟨0x2D, false⟩, ⟨0x2D, false⟩] else dottedSlots gs

/-- The characters of a text, no decimal flag (R140). -/
def plain (t : Text) : List Slot := t.map fun c => ⟨c, false⟩

/-- The value of an upper-case base-16 digit. -/
def hexValue (c : CharCode) : Option Nat :=
  if 0x30 ≤ c ∧ c ≤ 0x39 then some (c - 0x30) else if 0x41 ≤ c ∧ c ≤ 0x46 then some (c - 0x41 + 10) else none

/-- `t` is the upper-case base-16 spelling of `v`, most significant digit first, with no leading zeros (R149). -/
def SpellsHex (t : Text) (v : Nat) : Prop :=
  t ≠ [] ∧ (∀ c ∈ t, (hexValue c).isSome) ∧ t.foldl (fun n c => 16 * n + (hexValue c).getD 0) 0 = v ∧
    (1 < t.length → t.head? ≠ some 0x30)

/-- The string of DISPFLOAT by the literal formula (R147), with the place count an integer clamped at 0. -/
def floatString (fmt : Frac → Nat → Text) (value : Frac) (decimalPlaces : Nat) : Text :=
  let t := fmt value (min decimalPlaces 3)
  let q : Int :=
    match t.findIdx? (fun c => decide (c = 0x2E)) with
    | some i => if -1 < value ∧ value < 0 then 3 - i else 4 - i
    | none => 4 - t.length
  if t.length > 5 then fmt value (max q 0).toNat else t

/-- `n` windows of `pad` from offset `o` on are shown: the transactions of their flushes. -/
def windowFlushes (pad : Text) (o n : Nat) : List BusEvent :=
  (List.range n).flatMap fun j => flushOf (Memory.read (render (plain ((pad.drop (o + j)).take 4)) false))

/-- An operation of LSE, or an item of the LED wire. -/
def ofStrip : Instr → Bool
  | .linit => true
  | .setpixel _ _ _ _ _ => true
  | .setall _ _ _ _ => true
  | .lsetbright _ => true
  | .lclear => true
  | .getpixel _ => true
  | .lshow => true
  | .lteardown => true
  | .encodeChar _ => false
  | .dinit => false
  | .dsetbright _ => false
  | .dsetblink _ => false
  | .dclear => false
  | .flush => false
  | .setchar _ _ _ => false
  | .bufrd _ => false
  | .bufwr _ _ => false
  | .disptext _ _ => false
  | .dispnum _ _ => false
  | .dispfloat _ _ _ => false
  | .disphex _ _ => false
  | .dteardown => false
  | .scroll _ _ _ => false
  | .cancel => false
  | .i2cOscOn => false
  | .i2cBlink _ => false
  | .i2cBright _ => false
  | .i2cData _ _ => false
  | .ledStart => true
  | .ledPixel _ _ _ _ => true
  | .ledEnd => true
  | .ledBitcell _ => true
  | .segMask _ => false

/-- The operations R202 lists as able to raise ResourceError, and the wire items, which are the same calls. -/
def canFail : Instr → Bool
  | .linit => true
  | .setpixel _ _ _ _ _ => false
  | .setall _ _ _ _ => false
  | .lsetbright _ => false
  | .lclear => false
  | .getpixel _ => false
  | .lshow => true
  | .lteardown => false
  | .encodeChar _ => false
  | .dinit => true
  | .dsetbright _ => true
  | .dsetblink _ => true
  | .dclear => true
  | .flush => true
  | .setchar _ _ _ => false
  | .bufrd _ => false
  | .bufwr _ _ => false
  | .disptext _ _ => true
  | .dispnum _ _ => true
  | .dispfloat _ _ _ => true
  | .disphex _ _ => true
  | .dteardown => true
  | .scroll _ _ _ => false
  | .cancel => false
  | .i2cOscOn => true
  | .i2cBlink _ => true
  | .i2cBright _ => true
  | .i2cData _ _ => true
  | .ledStart => true
  | .ledPixel _ _ _ _ => true
  | .ledEnd => true
  | .ledBitcell _ => true
  | .segMask _ => false

/-- The raising conditions of R201. -/
def RangeCondition (s : State) : Instr → Prop
  | .linit => False
  | .setpixel index _ _ _ f => index < 0 ∨ (s.nPix : Int) ≤ index ∨ f < 0 ∨ 1 < f
  | .setall _ _ _ f => f < 0 ∨ 1 < f
  | .lsetbright f => f < 0 ∨ 1 < f
  | .lclear => False
  | .getpixel index => index < 0 ∨ (s.nPix : Int) ≤ index
  | .lshow => False
  | .lteardown => False
  | .encodeChar _ => False
  | .dinit => False
  | .dsetbright f => f < 0 ∨ 1 < f
  | .dsetblink _ => False
  | .dclear => False
  | .flush => False
  | .setchar _ _ _ => False
  | .bufrd p => p < 0 ∨ 16 ≤ p
  | .bufwr p _ => p < 0 ∨ 16 ≤ p
  | .disptext _ _ => False
  | .dispnum _ _ => False
  | .dispfloat _ _ _ => False
  | .disphex _ _ => False
  | .dteardown => False
  | .scroll _ speed _ => speed ≤ 0
  | .cancel => False
  | .i2cOscOn => False
  | .i2cBlink _ => False
  | .i2cBright _ => False
  | .i2cData _ _ => False
  | .ledStart => False
  | .ledPixel _ _ _ _ => False
  | .ledEnd => False
  | .ledBitcell _ => False
  | .segMask _ => False

/-- A bus write transaction, not a lifecycle event. -/
def isXfer : BusEvent → Bool
  | .xfer _ _ => true
  | _ => false

/-- R152: the transactions of a successful operation. -/
def transactions (s : State) : Instr → Nat
  | .linit => 0
  | .setpixel _ _ _ _ _ => 0
  | .setall _ _ _ _ => 0
  | .lsetbright _ => 0
  | .lclear => 0
  | .getpixel _ => 0
  | .lshow => 0
  | .lteardown => 0
  | .encodeChar _ => 0
  | .dinit => if Config.initBlinkFlush then 35 else 19
  | .dsetbright _ => 1
  | .dsetblink _ => 17
  | .dclear => 16
  | .flush => 16
  | .setchar _ _ _ => 0
  | .bufrd _ => 0
  | .bufwr _ _ => 0
  | .disptext _ _ => 16
  | .dispnum _ _ => 16
  | .dispfloat _ _ _ => 16
  | .disphex v _ => if v < 0 ∨ 0xFFFF < v then 0 else 16
  | .dteardown => if s.dst = .closed then 0 else 16
  | .scroll _ _ _ => 0
  | .cancel => 0
  | .i2cOscOn => 1
  | .i2cBlink _ => 1
  | .i2cBright _ => 1
  | .i2cData _ _ => 1
  | .ledStart => 0
  | .ledPixel _ _ _ _ => 0
  | .ledEnd => 0
  | .ledBitcell _ => 0
  | .segMask _ => 0

/-- `N_PIX` pixel frames between a start and an end frame: how many samples one SHOW makes (R79). -/
def sampleCount (pix : List Pixel) : Nat := 32 + 32 * pix.length + 36

end Sys2Proof.Spec

/-! ### Encoding -/

/-- 30_encoding.md R71, R72, R75 to R85: every well-formed instruction is decoded from its packet, with every operand.
The numbers are the spec's decision D1, the coding of the operands the model's (notes/assumptions/1.md). -/
def Obligations.DecodingInvertsEncoding : Prop := ∀ i : Instr, i.wellFormed = true → decode (encode i) = .ok i

/-- The other direction: a packet that decodes is the one packet of a well-formed instruction, so each packet has one
meaning and no two packets share one (the record codec is the model's choice, notes/assumptions/1.md). -/
def Obligations.DecodedPacketsAreCanonical : Prop :=
  ∀ (p : Packet) (i : Instr), decode p = .ok i → i.wellFormed = true ∧ encode i = p

/-- R71, R75, R76, R80 to R83: words written out from the spec's encodings. The operation numbers are the spec's
decision D1, the pairing of blink names and codes its D14, the bytes of a record and of a mask the model's
(notes/assumptions/1.md). -/
def Obligations.SampleWordsDecode : Prop :=
  decode ⟨.op, [0x16#8]⟩ = .ok .lshow ∧
    decode ⟨.op, [0x32#8, 0x02#8]⟩ = .ok (.dsetblink .hz1) ∧
    decode ⟨.i2c1, [0x21#8]⟩ = .ok .i2cOscOn ∧
    decode ⟨.i2c1, [0x87#8]⟩ = .ok (.i2cBlink .hzHalf) ∧
    decode ⟨.i2c1, [0xE7#8]⟩ = .ok (.i2cBright 7#4) ∧
    decode ⟨.i2c2, [0x08#8, 0xAA#8]⟩ = .ok (.i2cData 8#4 0xAA#8) ∧
    decode ⟨.ledFrame, [0x00#8, 0x00#8, 0x00#8, 0x00#8]⟩ = .ok .ledStart ∧
    decode ⟨.ledFrame, [0xEF#8, 0x00#8, 0x00#8, 0xFF#8]⟩ = .ok (.ledPixel 15#5 0x00#8 0x00#8 0xFF#8) ∧
    decode ⟨.mask16, [0x00#8, 0x40#8]⟩ = .ok (.segMask 0x4000#16)

/-- R86 (g): a record whose number is not in R71 spells no operation, and the step that meets it is refused by name.
The numbers are the spec's decision D1, and the refusal its treatment U10; the form of a record is the model's
(notes/assumptions/1.md). -/
def Obligations.UnknownOperationNumbersAreRefused : Prop :=
  ∀ (s : State) (n : Byte) (operands : List Byte) (rest : List Event),
    n ∉ [0x10#8, 0x11#8, 0x12#8, 0x13#8, 0x14#8, 0x15#8, 0x16#8, 0x1F#8, 0x20#8, 0x30#8, 0x31#8, 0x32#8, 0x33#8, 0x34#8,
      0x35#8, 0x36#8, 0x37#8, 0x38#8, 0x39#8, 0x3A#8, 0x3B#8, 0x3F#8, 0x40#8] →
    s.ste.busy = false → s.inbox = .packet ⟨.op, n :: operands⟩ :: rest →
    step s = .refused (.undecodable (.unknownOperation n))

/-! ### Steps -/

/-- R6, 43_scroll.md R184: when the next thing to arrive decodes to `i` and STE has no step of its own to take, the
step is `exec i` of the state with that packet taken; in phase SHOW only the CANCEL input is taken so (10_state.md
R30); with nothing there, RBLP waits (R231). The list of what is to arrive is the model's (notes/assumptions/5.md). -/
def Obligations.StepRunsTheDecodedInstruction : Prop :=
  (∀ (s : State) (p : Packet) (rest : List Event) (i : Instr), s.inbox = .packet p :: rest → decode p = .ok i →
      s.ste.busy = false ∨ (s.ste.phase = .shows ∧ p.fmt = .input) → step s = exec i { s with inbox := rest }) ∧
    ∀ s : State, s.inbox = [] → s.ste.busy = false → step s = .next s

/-- A table word placed where the step fetches is executed by that step. How a word is placed is the model's choice
(notes/assumptions/5.md). -/
def Obligations.PlacedTableWordsAreExecuted : Prop :=
  ∀ (s : State) (nbits w : Nat) (i : Instr), decodeTableWord nbits w = some i →
    step (s.withFetchWord nbits w) = exec i { s with ste := if s.ste.busy then .idle else s.ste }

/-! ### Reset -/

/-- R36, R230: what the spec gives reset. The pin latches, which it leaves open, and the model's own fields
(notes/assumptions/2.md, 5.md to 8.md) are not in it. All but the zero
pixels and buffer is the spec's decision D29. -/
def Obligations.ResetIsBeforeConstruction : Prop :=
  State.reset.pix = List.replicate 7 ⟨0#8, 0#8, 0#8, 0#5⟩ ∧ (∀ p, Memory.read State.reset.buf p = 0x00#8) ∧
    State.reset.lst = .uninit ∧ State.reset.dst = .uninit ∧ State.reset.ste = .idle ∧ State.reset.lseq = none ∧
    State.reset.dseq = none ∧ State.reset.pinTrace = [] ∧ State.reset.i2cTrace = [] ∧ State.reset.waitTrace = []

/-- The invariant holds at reset. Of its clauses, the pixel count as the length of the list (notes/assumptions/10.md), the
canonical form of the buffer (18.md) and the field for a DINIT under way (2.md) are the model's; the dead counters are the
spec's decision D3, and the reset values its D29. -/
def Obligations.ResetMeetsTheInvariant : Prop := State.reset.Inv

/-- R231: before both constructions the only operations with a meaning are LINIT, DINIT and ENCODE (and, beside the
operations, the CANCEL input, which then has no effect, and the mask value of SEG.MASK). R231 is derived in the spec,
from its decision D10; the mask value, and the field that says that a DINIT is under way, are the model's
(notes/assumptions/2.md). No DINIT and no flush is under way then. -/
def Obligations.OnlyInitialisersRunBeforeConstruction : Prop :=
  ∀ (i : Instr) (s t : State), s.lst = .uninit → s.dst = .uninit → s.ste = .idle → s.constructing = false →
    s.dseq = none → exec i s = .next t →
    i = .linit ∨ i = .dinit ∨ (∃ c, i = .encodeChar c) ∨ (i = .cancel ∧ t = s) ∨ ∃ m, i = .segMask m

/-! ### Whole-machine rules -/

/-- Every step keeps the invariant: the pixel count (R20), the canonical buffer (R24), dead sequence counters (R31), a
consistent ScrollState on an open display (R28, R134), and only legal transactions on the bus (R86). No DINIT is
under way between steps, so that none but DINIT sends the oscillator-on command (R80). The dead counters are the spec's
decision D3, R86 is derived in the spec, and the canonical form and the field for DINIT are the model's
(notes/assumptions/18.md, 2.md). -/
def Obligations.EveryStepKeepsTheInvariant : Prop := ∀ s t : State, s.Inv → step s = .next t → t.Inv

/-- 42_display.md R139: BUFWR "is the only operation that can write a non-zero value to bytes 8 to 15 or set mask bit
15". That BUFWR exists is the spec's decision D33; that no entry of SEGROM has bit 15 set is R122 (a), held by
construction (notes/assumptions/11.md). -/
def Obligations.OnlyBufwrDirtiesTheUnusedBits : Prop :=
  ∀ s t : State, step s = .next t → (∀ p v s', nextAction s ≠ .run (.bufwr p v) s') →
    (s.maskClear → t.maskClear) ∧
      ((∀ a, 8 ≤ a → Memory.read s.buf a = 0x00#8) → ∀ a, 8 ≤ a → Memory.read t.buf a = 0x00#8)

/-- 10_state.md R34: the histories only grow. The histories are the spec's decision D30. -/
def Obligations.HistoriesOnlyGrow : Prop :=
  ∀ s t : State, step s = .next t →
    s.pinTrace <+: t.pinTrace ∧ s.i2cTrace <+: t.i2cTrace ∧ s.waitTrace <+: t.waitTrace

/-- R34: "The histories are never read by any rule": with other histories in front, every step answers the same, with
those in front. The histories are the spec's decision D30. -/
def Obligations.NoRuleReadsTheHistories : Prop :=
  ∀ (s : State) (ps : List PinEvent) (bs : List BusEvent) (ws : List Frac),
    (∀ t, step s = .next t →
      step (s.withHistories (ps ++ s.pinTrace) (bs ++ s.i2cTrace) (ws ++ s.waitTrace)) =
        .next (t.withHistories (ps ++ t.pinTrace) (bs ++ t.i2cTrace) (ws ++ t.waitTrace))) ∧
      ∀ r, step s = .refused r →
        step (s.withHistories (ps ++ s.pinTrace) (bs ++ s.i2cTrace) (ws ++ s.waitTrace)) = .refused r

/-- R20: the pixel file has a fixed length and is "owned exclusively by LedStripDriver": no step changes its length,
and no other instruction, nor any step of STE's own, writes it or is swayed by it. The LED items stand in for LSE by
the model's choice (notes/assumptions/2.md). -/
def Obligations.OnlyLseTouchesThePixels : Prop :=
  (∀ s t : State, step s = .next t → t.pix.length = s.pix.length) ∧
    (∀ (i : Instr) (s t : State) (q : List Pixel), Spec.ofStrip i = false → exec i s = .next t →
      t.pix = s.pix ∧ exec i { s with pix := q } = .next { t with pix := q }) ∧
    ∀ (s t : State) (q : List Pixel), nextAction s = .move t →
      t.pix = s.pix ∧ nextAction { s with pix := q } = .move { t with pix := q }

/-- R24: the buffer is "owned exclusively by DisplayBufferDriver", and R6: the drivers share nothing: an LSE operation
changes nothing of the display's and is not swayed by its buffer. The LED items stand in for LSE by the model's choice
(notes/assumptions/2.md). -/
def Obligations.LseNeverTouchesTheDisplay : Prop :=
  ∀ (i : Instr) (s t : State) (m : Memory), Spec.ofStrip i = true → exec i s = .next t →
    s.sameDisplay t ∧ exec i { s with buf := m } = .next { t with buf := m }

/-- 60_exceptions.md R201, the complete list of raising conditions: where an operation has a meaning it raises RangeError
exactly when its condition holds, and then everything else is as it was. -/
def Obligations.RangeErrorsAreExactlyTheListed : Prop :=
  ∀ (i : Instr) (s t : State), exec i s = .next t →
    ((∃ op r, t.replies = s.replies ++ [⟨op, .rangeError, r⟩]) ↔ Spec.RangeCondition s i) ∧
      (Spec.RangeCondition s i → ∃ op, t = s.reply op .rangeError .none)

/-- R202: the operations that can raise ResourceError; LTEARDOWN never reports it. The failure model is the spec's
decision D25; the wire items are the model's (notes/assumptions/2.md). -/
def Obligations.OnlyIoOperationsRaiseResourceError : Prop :=
  ∀ (i : Instr) (s t : State) (op : Option Byte) (r : Result), exec i s = .next t →
    t.replies = s.replies ++ [⟨op, .resourceError, r⟩] → Spec.canFail i = true

/-- R203, R215: Cancelled is raised only by an active scroll, at a wait, after the display was cleared. The clear with
its flush and the wait it comes from are the spec's decisions D22 and D23. -/
def Obligations.CancelledOnlyAfterTheClear : Prop :=
  ∀ (s t : State) (op : Option Byte) (r : Result), step s = .next t →
    t.replies = s.replies ++ [⟨op, .cancelled, r⟩] →
    op = some 0x40#8 ∧ s.ste.phase = .waits ∧ t.ste = .idle ∧ (∀ a, Memory.read t.buf a = 0x00#8) ∧
      t.i2cTrace = s.i2cTrace ++ Spec.flushZeros

/-- 60_exceptions.md R200, R71: an operation that runs ends with exactly one status, delivered under its own number (an
item that is no operation has none); a SCROLL that starts gives its status later, and CANCEL is no operation and gives
none. That deliveries are recorded is the model's choice (notes/assumptions/8.md), and the numbers are the spec's decision
D1. -/
def Obligations.EveryOperationEndsWithOneStatus : Prop :=
  ∀ (i : Instr) (s t : State), exec i s = .next t →
    (∃ r : Reply, t.replies = s.replies ++ [r] ∧ r.op = if (encode i).fmt = .op then (encode i).bytes.head? else none) ∨
      (i = .cancel ∧ t.replies = s.replies) ∨
      ∃ x f l, i = .scroll x f l ∧ 0 < f ∧ t.ste.phase = .shows ∧ t.replies = s.replies

/-! ### LSE -/

/-- 40_led_strip.md R112, R100: outside OPEN an LSE operation is refused, LINIT outside UNINIT; the one exception is
LTEARDOWN in CLOSED, which does nothing and is OK (R111). The LED items follow their sub-block
(notes/assumptions/2.md). The refusals and the second teardown are the spec's decisions D10 and D11. -/
def Obligations.LseIsRefusedOutsideOpen : Prop :=
  (∀ (i : Instr) (s : State), Spec.ofStrip i = true → i ≠ .linit → s.lst ≠ .opened →
      ¬ (i = .lteardown ∧ s.lst = .closed) → exec i s = .refused .lseNotOpen) ∧
    (∀ s : State, s.lst ≠ .uninit → exec .linit s = .refused .lseNotUninit) ∧
    ∀ s : State, s.lst = .closed → exec .lteardown s = .next (s.reply (some 0x1F#8) .ok .none)

/-- R100: LINIT zeroes the pixels, opens the pins, sets the latches (the spec's decision D4) and opens LSE; if an
open fails the pixels are zeroed and `LST` stays UNINIT. The latches are the spec's decision D4, the one event for
three opens its D7, the failure model its D25; that the event stands for three successful opens, each with its answer,
is notes/assumptions/9.md. -/
def Obligations.LinitOpensTheStrip : Prop :=
  ∀ s : State, s.lst = .uninit →
    let s0 : State :=
      { s with pix := List.replicate s.pix.length ⟨0#8, 0#8, 0#8, 0#5⟩, io := answersLeft 3 s.io }
    exec .linit s = .next
      (if okCalls 3 s.io = 3 then
        ({ s0 with
            pinTrace := s.pinTrace ++ [.pinsOpen], cs := !Config.csActive, dat := false, clk := false,
            lst := .opened } : State).reply (some 0x10#8) .ok .none
      else s0.reply (some 0x10#8) .resourceError .none)

/-- R101: SETPIXEL raises RangeError for an index outside the pixel file or a brightness outside `[0,1]`, with everything
as it was; else it stores the colour and `floor(31 * brightness)` in one pixel. -/
def Obligations.SetpixelStoresThePixel : Prop :=
  ∀ (s : State) (index : Int) (r g b : Byte) (f : Frac), s.lst = .opened →
    (index < 0 ∨ s.pix.length ≤ index ∨ f < 0 ∨ 1 < f →
      exec (.setpixel index r g b f) s = .next (s.reply (some 0x11#8) .rangeError .none)) ∧
    (0 ≤ index → index < s.pix.length → 0 ≤ f → f ≤ 1 →
      exec (.setpixel index r g b f) s = .next
        (({ s with pix := s.pix.set index.toNat ⟨r, g, b, BitVec.ofInt 5 (31 * f).floor⟩ } : State).reply
          (some 0x11#8) .ok .none))

/-- R102: SETALL raises RangeError for a brightness outside `[0,1]`, with everything as it was; else it stores the
same in every pixel. That a failing SETALL changes nothing is derived in the spec. -/
def Obligations.SetallStoresEveryPixel : Prop :=
  ∀ (s : State) (r g b : Byte) (f : Frac), s.lst = .opened →
    (f < 0 ∨ 1 < f → exec (.setall r g b f) s = .next (s.reply (some 0x12#8) .rangeError .none)) ∧
    (0 ≤ f → f ≤ 1 →
      exec (.setall r g b f) s = .next
        (({ s with pix := List.replicate s.pix.length ⟨r, g, b, BitVec.ofInt 5 (31 * f).floor⟩ } : State).reply
          (some 0x12#8) .ok .none))

/-- R103: LSETBRIGHT raises RangeError for a brightness outside `[0,1]`, with everything as it was; else it sets the
brightness of every pixel to `floor(31 * brightness)` and keeps its colour. -/
def Obligations.LsetbrightKeepsTheColours : Prop :=
  ∀ (s : State) (f : Frac), s.lst = .opened →
    (f < 0 ∨ 1 < f → exec (.lsetbright f) s = .next (s.reply (some 0x13#8) .rangeError .none)) ∧
    (0 ≤ f → f ≤ 1 →
      ∃ pix, exec (.lsetbright f) s = .next (({ s with pix := pix } : State).reply (some 0x13#8) .ok .none) ∧
        pix.length = s.pix.length ∧
        ∀ (n : Nat) (p : Pixel), s.pix[n]? = some p →
          pix[n]? = some ⟨p.r, p.g, p.b, BitVec.ofInt 5 (31 * f).floor⟩)

/-- R104: LCLEAR zeroes the colour of every pixel and keeps its brightness. -/
def Obligations.LclearKeepsTheBrightness : Prop :=
  ∀ s : State, s.lst = .opened →
    ∃ pix, exec .lclear s = .next (({ s with pix := pix } : State).reply (some 0x14#8) .ok .none) ∧
      pix.length = s.pix.length ∧ ∀ (n : Nat) (p : Pixel), s.pix[n]? = some p → pix[n]? = some ⟨0#8, 0#8, 0#8, p.br⟩

/-- R105: GETPIXEL returns the four stored fields, or raises RangeError for an index outside the pixel file; it
changes nothing. The operation is the spec's decision D8. -/
def Obligations.GetpixelReturnsThePixel : Prop :=
  ∀ (s : State) (index : Int), s.lst = .opened →
    (index < 0 ∨ s.pix.length ≤ index →
      exec (.getpixel index) s = .next (s.reply (some 0x15#8) .rangeError .none)) ∧
    ∀ (n : Nat) (p : Pixel), index = n → s.pix[n]? = some p →
      exec (.getpixel index) s = .next (s.reply (some 0x15#8) .ok (.pixel p))

/-- R106, R107: SHOW, which steps through its bit cells, sends the event list of R107, or the part of it before the
first write that fails; it changes the latches and nothing else. The exact list of writes is the spec's decision D6,
the failure model its D25. -/
def Obligations.ShowSendsItsEventList : Prop :=
  ∀ s : State, s.lst = .opened → s.lseq = none →
    exec .lshow s = .next (Spec.pinnedReply (some 0x16#8) (showEvents s.pix) s) ∧
      (showEvents s.pix).length = 1 + 3 * (32 + 32 * s.pix.length) + 1 + 2 * 36 + 1

/-- R108, R79: from a low clock, the event list of a SHOW makes exactly the samples of R79, and leaves CS deasserted,
DAT and CLK low. R79 and R108 are derived in the spec. -/
def Obligations.ShowSamplesAreTheFrames : Prop :=
  ∀ (pix : List Pixel) (v : Levels), v.clk = false →
    samples v (showEvents pix) = (List.range (Spec.sampleCount pix)).map (frameBit pix) ∧
      levelsAfter v (showEvents pix) = ⟨!Config.csActive, false, false⟩

/-- R111: LTEARDOWN blanks the pixels, shows them, releases the pins and closes, whatever fails on the way; its status
is always OK. That failures are swallowed one by one is the spec's decision D26, the one event for three
closes its D7; that the event stands for three successful closes, each with its answer, is notes/assumptions/9.md, and
a failing close is notes/assumptions/15.md. -/
def Obligations.LteardownBlanksAndCloses : Prop :=
  ∀ s : State, s.lst = .opened → s.lseq = none →
    let black : State := { s with pix := s.pix.map fun p => (⟨0#8, 0#8, 0#8, p.br⟩ : Pixel) }
    let shown := Spec.pinned (showEvents black.pix) black
    exec .lteardown s = .next
      (({ shown with pinTrace := shown.pinTrace ++ (if okCalls 3 shown.io = 3 then [.pinsClose] else []),
                     io := answersLeft 3 shown.io, lst := .closed } : State).reply (some 0x1F#8) .ok .none)

/-- R75 to R78: the LED items send the bit cells of their frames, most significant bit first, and the end frame its
pulses (as items by themselves: notes/assumptions/2.md). The write of DAT at the start of the end frame is the spec's
decision D6. -/
def Obligations.LedItemsSendTheirFrames : Prop :=
  ∀ s : State, s.lst = .opened → s.lseq = none →
    exec .ledStart s = .next (Spec.pinnedReply none (cells (List.replicate 32 false)) s) ∧
      (∀ (br : BitVec 5) (b g r : Byte),
        exec (.ledPixel br b g r) s = .next (Spec.pinnedReply none
          (cells ((List.range 32).map fun k => frameBit [⟨r, g, b, br⟩] (32 + k))) s)) ∧
      exec .ledEnd s = .next (Spec.pinnedReply none ((.dat, false) :: pulseEvents 36) s) ∧
      ∀ bit : Bool, exec (.ledBitcell bit) s =
        .next (Spec.pinnedReply none [(.dat, bit), (.clk, true), (.clk, false)] s)

/-- R101 to R105, R55, R56: what the pixel operations leave unchanged: all but the pixels they name, and of those all
but the fields they write; no latch, no lifecycle, no display state, no history, no input. GETPIXEL is the spec's
decision D8. -/
def Obligations.PixelOperationFrames : Prop :=
  (∀ (index : Int) (r g b : Byte) (f : Frac) (s t : State), exec (.setpixel index r g b f) s = .next t →
      (∀ n : Nat, (n : Int) ≠ index → t.pix[n]? = s.pix[n]?) ∧ ∃ pix, t = { s with pix := pix, replies := t.replies }) ∧
    (∀ (r g b : Byte) (f : Frac) (s t : State), exec (.setall r g b f) s = .next t →
      ∃ pix, t = { s with pix := pix, replies := t.replies } ∧ pix.length = s.pix.length) ∧
    (∀ (f : Frac) (s t : State), exec (.lsetbright f) s = .next t →
      (t.pix.map fun p => (p.r, p.g, p.b)) = (s.pix.map fun p => (p.r, p.g, p.b)) ∧
        ∃ pix, t = { s with pix := pix, replies := t.replies }) ∧
    (∀ s t : State, exec .lclear s = .next t →
      (t.pix.map fun p => p.br) = (s.pix.map fun p => p.br) ∧ ∃ pix, t = { s with pix := pix, replies := t.replies }) ∧
    ∀ (index : Int) (s t : State), exec (.getpixel index) s = .next t → t = { s with replies := t.replies }

/-- R106, R109, R111, R75 to R78: what sending on the LED wire leaves unchanged: the pixels (but LINIT's zeroing and
LTEARDOWN's blanking), every byte of the buffer and all else of the display's, the bus and wait histories, the inputs
but the collaborators' answers. The LED items by themselves are the model's choice (notes/assumptions/2.md). -/
def Obligations.StripIoFrames : Prop :=
  ∀ (i : Instr) (s t : State), exec i s = .next t →
    ((i = .lshow ∨ i = .ledStart ∨ (∃ br b g r, i = .ledPixel br b g r) ∨ i = .ledEnd ∨ ∃ x, i = .ledBitcell x) →
      t.pix = s.pix ∧ t.lst = s.lst) ∧
    (Spec.ofStrip i = true →
      (∀ a, Memory.read t.buf a = Memory.read s.buf a) ∧ t.dst = s.dst ∧ t.ste = s.ste ∧ t.dseq = s.dseq ∧
        t.constructing = s.constructing ∧ t.i2cTrace = s.i2cTrace ∧ t.waitTrace = s.waitTrace ∧ t.tokens = s.tokens ∧
        t.inbox = s.inbox)

/-! ### SEGROM -/

/-- 41_char_rom.md R121: ENCODE returns the entry of a printable character and that of `'?'` for any other, in every
state, and changes nothing. -/
def Obligations.EncodeReturnsTheMask : Prop :=
  ∀ (s : State) (c : CharCode),
    exec (.encodeChar c) s = .next (s.reply (some 0x20#8) .ok
      (.mask (if 0x20 ≤ c ∧ c ≤ 0x7E then segRom (c - 0x20) else segRom 31)))

/-- R122 (a), (c), R124: no entry has bit 15 set, the entry for space is 0, and the mask of a displayed character is
its entry with bit 14 added for a decimal flag or a dot. The zero entry for space is the spec's decision D9; both
constraints hold by construction (notes/assumptions/11.md). -/
def Obligations.MasksMeetTheirConstraints : Prop :=
  (∀ k, (segRom k).getLsbD 15 = false) ∧ segRom 0 = 0x0000#16 ∧
    ∀ (c : CharCode) (dp : Bool),
      charMask c dp = encodeMask c ||| (if dp = true ∨ c = 0x2E then 0x4000#16 else 0x0000#16) ∧
        (charMask c dp).getLsbD 15 = false

/-- SEG.MASK presents a mask and moves nothing (notes/assumptions/2.md); a mask with bit 15 set is refused (R85). -/
def Obligations.SegMaskIsAValue : Prop :=
  ∀ (s : State) (m : Mask),
    (m.getLsbD 15 = false → exec (.segMask m) s = .next (s.reply none .ok (.mask m))) ∧
      (m.getLsbD 15 = true → exec (.segMask m) s = .refused .maskBit15)

/-- R87: on `[0,1]` the stored fields are the exact floors, monotone, and the top value is reached at 1 only; the scroll
delay is the exact product. -/
def Obligations.FractionConversionsAreFloors : Prop :=
  (∀ f : Frac, 0 ≤ f → f ≤ 1 →
      ((br5 f).toNat : Int) = (31 * f).floor ∧ ((lv4 f).toNat : Int) = (15 * f).floor ∧ (br5 f = 31#5 ↔ f = 1) ∧
        (lv4 f = 15#4 ↔ f = 1)) ∧
    (∀ f g : Frac, 0 ≤ f → f ≤ g → g ≤ 1 → br5 f ≤ br5 g ∧ lv4 f ≤ lv4 g) ∧
    br5 0 = 0#5 ∧ lv4 0 = 0#4 ∧ ∀ speed : Frac, 0 < speed → delay speed = speed * 1000

/-! ### DCS -/

/-- 42_display.md R134, R130, R170: outside OPEN, or while a scroll is active, a DCS operation or SCROLL is refused,
DINIT outside UNINIT; the one exception is DTEARDOWN in CLOSED, which does nothing and is OK (R151). The refusals and
the second teardown are the spec's decisions D10 and D11; which refusal comes first, and those of the I2C items, are
the model's (notes/assumptions/2.md, 21.md); I2C.OSC_ON is refused outside a DINIT (R80), and I2C.DATA
unless it is what a flush under way sends next (R50, R83). -/
def Obligations.DcsIsRefusedUnlessFree : Prop :=
  (∀ (i : Instr) (s : State), Spec.ofStrip i = false → i ≠ .dinit → i ≠ .i2cOscOn →
      (∀ p v, i ≠ .i2cData p v) → i ≠ .cancel → (∀ c, i ≠ .encodeChar c) →
      (∀ m, i ≠ .segMask m) → ¬ (i = .dteardown ∧ s.dst = .closed) →
      (s.dst ≠ .opened → exec i s = .refused .dcsNotOpen) ∧
        (s.dst = .opened → s.ste ≠ .idle → exec i s = .refused .scrollActive)) ∧
    (∀ s : State, s.dst ≠ .uninit → exec .dinit s = .refused .dcsNotUninit) ∧
    (∀ s : State, s.dst = .closed → exec .dteardown s = .next (s.reply (some 0x3F#8) .ok .none)) ∧
    (∀ s : State, s.constructing = false → exec .i2cOscOn s = .refused .oscOnOutsideDinit) ∧
    ∀ (s : State) (p : BitVec 4) (v : Byte), s.dseq ≠ some p.toNat ∨ v ≠ Memory.read s.buf p.toNat →
      exec (.i2cData p v) s = .refused .dataOutsideFlush

/-- R130: DINIT's calls in order; `DST` is OPEN if all succeed and stays UNINIT otherwise; the buffer is zero. The
coupled flush is the open parameter of D15, the lengths and codes of the commands the spec's decisions D13 and D14,
the failure model its D25; the field that says that a DINIT is under way is the model's (notes/assumptions/2.md). -/
def Obligations.DinitSendsItsSequence : Prop :=
  ∀ s : State, s.dst = .uninit → s.dseq = none →
    let calls := [.busOpen, Spec.command 0x21#8, Spec.command 0x81#8] ++
      (if Config.initBlinkFlush then Spec.flushZeros else []) ++ [Spec.command 0xEF#8] ++ Spec.flushZeros
    exec .dinit s = .next
      { Spec.sentReply (some 0x30#8) calls { s with buf := Memory.zeroed } with
        dst := if okCalls calls.length s.io = calls.length then .opened else .uninit, constructing := false }

/-- R131: DSETBRIGHT raises RangeError for a level outside `[0,1]`, before any I/O and with everything as it was; else it
sends the one byte `0xE0 | floor(15 * level)` (R82), with no flush, and keeps no copy. That the command is one byte is
the spec's decision D13. -/
def Obligations.DsetbrightSendsTheLevel : Prop :=
  ∀ (s : State) (f : Frac), s.dst = .opened → s.ste = .idle →
    (f < 0 ∨ 1 < f → exec (.dsetbright f) s = .next (s.reply (some 0x31#8) .rangeError .none)) ∧
    (0 ≤ f → f ≤ 1 →
      exec (.dsetbright f) s = .next (Spec.sentReply (some 0x31#8)
        [Spec.command (0xE0#8 ||| BitVec.ofInt 8 (15 * f).floor)] s))

/-- R132, R81: DSETBLINK sends the command byte of the rate, then flushes the buffer. The length and the codes of the
command are the spec's decisions D13 and D14. -/
def Obligations.DsetblinkSendsThenFlushes : Prop :=
  ∀ (s : State) (rate : BlinkRate), s.dst = .opened → s.ste = .idle → s.dseq = none →
    exec (.dsetblink rate) s = .next (Spec.sentReply (some 0x32#8)
      (Spec.command (match rate with | .off => 0x81#8 | .hz2 => 0x83#8 | .hz1 => 0x85#8 | .hzHalf => 0x87#8) ::
        Spec.flushOf (Memory.read s.buf)) s)

/-- R133: DCLEAR zeroes the buffer, then flushes it; on failure the buffer is already zero. -/
def Obligations.DclearZeroesThenFlushes : Prop :=
  ∀ s : State, s.dst = .opened → s.ste = .idle → s.dseq = none →
    ∃ m, (∀ a, Memory.read m a = 0x00#8) ∧
      exec .dclear s = .next (Spec.sentReply (some 0x33#8) Spec.flushZeros { s with buf := m })

/-- R135, R83: FLUSH sends all 16 bytes in position order and changes no state; at a failure the rest is not sent. -/
def Obligations.FlushSendsTheBuffer : Prop :=
  ∀ s : State, s.dst = .opened → s.ste = .idle → s.dseq = none →
    exec .flush s = .next (Spec.sentReply (some 0x34#8) (Spec.flushOf (Memory.read s.buf)) s)

/-- R136, R51: SETCHAR writes the two bytes of its slot, low byte first, and no other; outside 0..3 it does nothing; it
is always OK and sends nothing. -/
def Obligations.SetcharWritesItsSlot : Prop :=
  ∀ (s : State) (p : Int) (c : CharCode) (dp : Bool), s.dst = .opened → s.ste = .idle →
    ∃ m, exec (.setchar p c dp) s = .next (({ s with buf := m } : State).reply (some 0x35#8) .ok .none) ∧
      (p < 0 ∨ 3 < p → m = s.buf) ∧
      (0 ≤ p ∧ p ≤ 3 →
        Memory.read m (2 * p.toNat) = (charMask c dp).extractLsb' 0 8 ∧
          Memory.read m (2 * p.toNat + 1) = (charMask c dp).extractLsb' 8 8 ∧
          ∀ a, a ≠ 2 * p.toNat → a ≠ 2 * p.toNat + 1 → Memory.read m a = Memory.read s.buf a)

/-- R138, R139: BUFRD returns a byte and changes nothing; BUFWR writes that byte and no other, and sends nothing;
outside 0..15 both raise RangeError, with everything as it was. The two operations are the spec's decision D33. -/
def Obligations.ByteAccessorsReadAndWrite : Prop :=
  ∀ (s : State) (p : Int) (v : Byte), s.dst = .opened → s.ste = .idle →
    (p < 0 ∨ 16 ≤ p →
      exec (.bufrd p) s = .next (s.reply (some 0x36#8) .rangeError .none) ∧
        exec (.bufwr p v) s = .next (s.reply (some 0x37#8) .rangeError .none)) ∧
    (0 ≤ p → p < 16 →
      exec (.bufrd p) s = .next (s.reply (some 0x36#8) .ok (.byte (Memory.read s.buf p.toNat))) ∧
        ∃ m, exec (.bufwr p v) s = .next (({ s with buf := m } : State).reply (some 0x37#8) .ok .none) ∧
          Memory.read m p.toNat = v ∧ ∀ a, a ≠ p.toNat → Memory.read m a = Memory.read s.buf a)

/-- R140, R141: DISPTEXT shows the first four characters at most, justified, in an otherwise zero buffer, and flushes
once; the empty text clears the display. The one flush is the spec's decision D16. -/
def Obligations.DisptextShowsTheText : Prop :=
  ∀ (s : State) (t : Text) (j : Bool), s.dst = .opened → s.ste = .idle → s.dseq = none →
    ∃ m, Spec.Shows m (Spec.plain (t.take 4)) j ∧
      exec (.disptext t j) s = .next (Spec.sentReply (some 0x38#8) (Spec.flushOf (Memory.read m)) { s with buf := m })

/-- R142, R143: DISPNUM shows one slot per character that is no dot, with its decimal flag, or `"----"` for more than
four, and flushes once; a leading dot is refused. Zeroing first, the slots of other characters and the way of the
fallback are the spec's decisions D17 to D19; the refusal is its treatment U6 (notes/assumptions/25.md). -/
def Obligations.DispnumShowsTheSlots : Prop :=
  (∀ (s : State) (gs : List (CharCode × Nat)) (j : Bool), s.dst = .opened → s.ste = .idle → s.dseq = none →
      (∀ g ∈ gs, g.1 ≠ 0x2E) →
      ∃ m, Spec.Shows m (Spec.numberShown gs) j ∧
        exec (.dispnum (Spec.dotted gs) j) s = .next (Spec.sentReply (some 0x39#8) (Spec.flushOf (Memory.read m))
          { s with buf := m })) ∧
    ∀ (s : State) (rest : Text) (j : Bool), s.dst = .opened → s.ste = .idle →
      exec (.dispnum (0x2E :: rest) j) s = .refused .leadingDot

/-- R147: DISPFLOAT formats by the literal formula and shows the string as DISPNUM does, for `FMT` as for every
formatting function; a string that begins with a dot is refused (R142). The base of the index and the order of the
tests are the spec's decision D21 (notes/assumptions/14.md). -/
def Obligations.DispfloatFollowsTheFormula : Prop :=
  ∀ (s : State) (v : Frac) (n : Nat) (j : Bool), s.dst = .opened → s.ste = .idle → s.dseq = none →
    (∀ (fmt : Frac → Nat → Text) (gs : List (CharCode × Nat)), (∀ g ∈ gs, g.1 ≠ 0x2E) →
      Spec.floatString fmt v n = Spec.dotted gs →
      ∃ m, Spec.Shows m (Spec.numberShown gs) j ∧
        dispfloatBy fmt v n j s = .next (Spec.sentReply (some 0x3A#8) (Spec.flushOf (Memory.read m))
          { s with buf := m })) ∧
    ((Spec.floatString Config.fmt v n).head? ≠ some 0x2E →
      ∃ gs m, (∀ g ∈ gs, g.1 ≠ 0x2E) ∧ Spec.floatString Config.fmt v n = Spec.dotted gs ∧
        Spec.Shows m (Spec.numberShown gs) j ∧
        exec (.dispfloat v n j) s = .next (Spec.sentReply (some 0x3A#8) (Spec.flushOf (Memory.read m))
          { s with buf := m })) ∧
    ((Spec.floatString Config.fmt v n).head? = some 0x2E → exec (.dispfloat v n j) s = .refused .leadingDot)

/-- R148, R149: DISPHEX shows the upper-case spelling of a value 0..0xFFFF, which has one to four digits, and flushes
once; any other value is silently ignored. No zero padding is the spec's decision D20. -/
def Obligations.DisphexShowsTheSpelling : Prop :=
  ∀ (s : State) (v : Int) (j : Bool), s.dst = .opened → s.ste = .idle → s.dseq = none →
    (0 ≤ v ∧ v ≤ 0xFFFF →
      ∃ t m, Spec.SpellsHex t v.toNat ∧ t.length ≤ 4 ∧ Spec.Shows m (Spec.plain t) j ∧
        exec (.disphex v j) s = .next (Spec.sentReply (some 0x3B#8) (Spec.flushOf (Memory.read m)) { s with buf := m })) ∧
      (v < 0 ∨ 0xFFFF < v → exec (.disphex v j) s = .next (s.reply (some 0x3B#8) .ok .none))

/-- R151: DTEARDOWN blanks the display, then releases the bus and closes, whatever fails; a failure is its status.
Releasing after a failure is the spec's decision D26; the status of a failing release is notes/assumptions/15.md. -/
def Obligations.DteardownBlanksAndReleases : Prop :=
  ∀ s : State, s.dst = .opened → s.ste = .idle → s.dseq = none →
    ∃ m, (∀ a, Memory.read m a = 0x00#8) ∧
      let cleared := Spec.sent Spec.flushZeros { s with buf := m }
      exec .dteardown s = .next
        (({ Spec.sent [.busClose] cleared with dst := .closed } : State).reply (some 0x3F#8)
          (if okCalls 16 s.io = 16 ∧ okCalls 1 cleared.io = 1 then .ok else .resourceError) .none)

/-- R80 to R83: the I2C items send their one transaction (as items by themselves: notes/assumptions/2.md), I2C.OSC_ON
while a DINIT is under way, I2C.DATA as what a flush under way sends next, upon which `dseq` moves on if the call
succeeds (R31), the others on a free display. Lengths and codes are the spec's decisions D13 and D14, the counter its D3. -/
def Obligations.I2cItemsSendTheirTransaction : Prop :=
  (∀ s : State, s.constructing = true → exec .i2cOscOn s = .next (Spec.sentReply none [Spec.command 0x21#8] s)) ∧
    (∀ (s : State) (p : BitVec 4) (v : Byte), s.dseq = some p.toNat → v = Memory.read s.buf p.toNat →
      exec (.i2cData p v) s = .next
        { Spec.sentReply none [.xfer 0x70#8 [BitVec.ofNat 8 p.toNat, v]] s with
          dseq := some (if okCalls 1 s.io = 1 then p.toNat + 1 else p.toNat) }) ∧
    ∀ s : State, s.dst = .opened → s.ste = .idle →
      (∀ rate : BlinkRate, exec (.i2cBlink rate) s = .next (Spec.sentReply none
        [Spec.command (match rate with | .off => 0x81#8 | .hz2 => 0x83#8 | .hz1 => 0x85#8 | .hzHalf => 0x87#8)] s)) ∧
      ∀ level : BitVec 4, exec (.i2cBright level) s = .next (Spec.sentReply none
        [Spec.command (BitVec.ofNat 8 (0xE0 + level.toNat))] s)

/-- R152: how many transactions a successful operation sends. R152 is derived in the spec; the wire items are the
model's (notes/assumptions/2.md). -/
def Obligations.TransactionsPerOperation : Prop :=
  ∀ (i : Instr) (s t : State) (op : Option Byte) (r : Result), exec i s = .next t →
    t.replies = s.replies ++ [⟨op, .ok, r⟩] →
    ∃ es, t.i2cTrace = s.i2cTrace ++ es ∧ (es.filter Spec.isXfer).length = Spec.transactions s i

/-- R131 to R139, R56, R58: what the display operations leave unchanged. A form that stores nothing leaves every byte:
BUFRD, FLUSH, DSETBRIGHT, DSETBLINK, the I2C items; SETCHAR and BUFWR leave every byte but those they address; and
every display operation leaves all of LSE's state and history, the wait history and the tokens. The byte accessors are
the spec's decision D33, the wire items the model's (notes/assumptions/2.md). -/
def Obligations.DisplayOperationFrames : Prop :=
  ∀ (i : Instr) (s t : State), exec i s = .next t → Spec.ofStrip i = false →
    ((i = .flush ∨ (∃ p, i = .bufrd p) ∨ (∃ f, i = .dsetbright f) ∨ (∃ r, i = .dsetblink r) ∨ (∃ c, i = .encodeChar c) ∨
        i = .cancel ∨ (∃ x f l, i = .scroll x f l) ∨ i = .i2cOscOn ∨ (∃ r, i = .i2cBlink r) ∨ (∃ l, i = .i2cBright l) ∨
        (∃ p v, i = .i2cData p v) ∨ ∃ m, i = .segMask m) →
      ∀ a, Memory.read t.buf a = Memory.read s.buf a) ∧
    (∀ p c d, i = .setchar p c d → ∀ a : Nat, (a : Int) ≠ 2 * p → (a : Int) ≠ 2 * p + 1 →
      Memory.read t.buf a = Memory.read s.buf a) ∧
    (∀ p v, i = .bufwr p v → ∀ a : Nat, (a : Int) ≠ p → Memory.read t.buf a = Memory.read s.buf a) ∧
    s.sameLse t ∧ t.waitTrace = s.waitTrace ∧ t.inbox = s.inbox ∧ ((∀ x f l, i ≠ .scroll x f l) → t.tokens = s.tokens) ∧
    ((∀ x f l, i ≠ .scroll x f l) → i ≠ .cancel → t.ste = s.ste) ∧
    (i ≠ .dinit → i ≠ .dteardown → t.dst = s.dst) ∧ (i ≠ .dinit → t.constructing = s.constructing) ∧
    (s.dseq = none → t.dseq = none)

/-! ### STE -/

/-- 43_scroll.md R170 to R173: SCROLL raises RangeError for a speed that is not positive, with everything as it was;
else it makes the ScrollState of its operands, with the padded text, the exact delay `speed * 1000`, offset 0 and the
token as the host hands it over (notes/assumptions/7.md), in phase SHOW; nothing else changes. When the token is
looked at is the spec's decision D22. -/
def Obligations.ScrollStarts : Prop :=
  ∀ (s : State) (x : Text) (speed : Frac) (l : Bool), s.dst = .opened → s.ste = .idle →
    (speed ≤ 0 → exec (.scroll x speed l) s = .next (s.reply (some 0x40#8) .rangeError .none)) ∧
    (0 < speed →
      exec (.scroll x speed l) s = .next
        { s with
          ste := .showing
            { text := x,
              pad := x ++ List.replicate (4 - x.length) 0x20 ++ (if l then x else [0x20, 0x20, 0x20, 0x20]),
              off := 0, loop := l, delay := speed * 1000, cancel := s.tokens.headD false },
          tokens := s.tokens.tail })

/-- 60_exceptions.md R207, 10_state.md R30: a cancel request sets the latch of an active scroll and nothing else; outside
a scroll it has no effect; once set, the latch stays set as long as the scroll is active. -/
def Obligations.CancelSetsTheLatch : Prop :=
  (∀ s : State, s.ste = .idle → exec .cancel s = .next s) ∧
    (∀ (s : State) (S : ScrollState), s.ste = .showing S →
      exec .cancel s = .next { s with ste := .showing { S with cancel := true } }) ∧
    (∀ (s : State) (S : ScrollState), s.ste = .waiting S →
      exec .cancel s = .next { s with ste := .waiting { S with cancel := true } }) ∧
    ∀ (s t : State) (S S' : ScrollState), s.ste.scrollState = some S → S.cancel = true → step s = .next t →
      t.ste.scrollState = some S' → S'.cancel = true

/-- R176, R182, R63: the show step shows the window, left-justified, with a flush no cancel request cuts short, and
starts the wait; if the flush fails the scroll ends with ResourceError and the buffer as it was written. The wait
after every window is the spec's decision D22, the end by failure its D32. -/
def Obligations.ShowStepShowsTheWindow : Prop :=
  ∀ (s : State) (S : ScrollState), s.ste = .showing S → S.wf → s.dseq = none →
    (∀ p rest, s.inbox = .packet p :: rest → p.fmt ≠ .input) →
    ∃ m, Spec.Shows m (Spec.plain ((S.pad.drop S.off).take 4)) false ∧
      let u := Spec.sent (Spec.flushOf (Memory.read m)) { s with buf := m }
      step s = .next
        (if okCalls 16 s.io = 16 then { u with ste := .waiting S, waitTrace := s.waitTrace ++ [S.delay] }
        else ({ u with ste := .idle } : State).reply (some 0x40#8) .resourceError .none)

/-- R178, R181, R182, R213: a wait whose cancel flag is set ends by the cancel step: the buffer is zeroed and flushed,
ScrollState discarded, the status Cancelled, or ResourceError if the clear fails; and a request at the very moment of
expiry wins over the timer. The clear with its flush, cancel before expiry and the status of a failing clear are the
spec's decisions D23, D22 and D32. -/
def Obligations.WaitEndsByCancel : Prop :=
  ∀ (s : State) (S : ScrollState), s.ste = .waiting S → s.dseq = none →
    ∃ m, (∀ a, Memory.read m a = 0x00#8) ∧
      (S.cancel = true →
        step s = .next ((Spec.sent Spec.flushZeros { s with buf := m, ste := .idle }).reply (some 0x40#8)
          (if okCalls 16 s.io = 16 then .cancelled else .resourceError) .none)) ∧
      ∀ rest, S.cancel = false → s.inbox = .expiry true :: rest →
        step s = .next ((Spec.sent Spec.flushZeros { s with buf := m, ste := .idle, inbox := rest }).reply (some 0x40#8)
          (if okCalls 16 s.io = 16 then .cancelled else .resourceError) .none)

/-- R178, R179, R180: a wait that ends by timer expiry goes to the next offset, or back to 0 at the end of a looping
sweep, or completes with OK and the buffer left as it is. -/
def Obligations.WaitEndsByTimer : Prop :=
  ∀ (s : State) (S : ScrollState) (rest : List Event), s.ste = .waiting S → S.wf → S.cancel = false →
    s.inbox = .expiry false :: rest →
    (S.off + 4 < S.pad.length →
      step s = .next { s with inbox := rest, ste := .showing { S with off := S.off + 1 } }) ∧
    (S.off + 4 = S.pad.length → S.loop = true →
      step s = .next { s with inbox := rest, ste := .showing { S with off := 0 } }) ∧
    (S.off + 4 = S.pad.length → S.loop = false →
      step s = .next (({ s with inbox := rest, ste := .idle } : State).reply (some 0x40#8) .ok .none))

/-- R184: a looping scroll ends only by cancel or failure. -/
def Obligations.LoopingScrollsEndOnlyEarly : Prop :=
  ∀ (s t : State) (S : ScrollState), s.ste.scrollState = some S → S.loop = true → step s = .next t → t.ste = .idle →
    t.replies = s.replies ++ [⟨some 0x40#8, .cancelled, .none⟩] ∨
      t.replies = s.replies ++ [⟨some 0x40#8, .resourceError, .none⟩]

/-- R183, R180: a non-looping scroll whose every call succeeds and whose every wait ends by the timer shows the
windows of one sweep in order, each with one flush and one wait of `speed * 1000`, and then ends with OK. R183 is
derived in the spec; the wait after the last window is its decision D22. The list of arrivals, the empty list of
answers and the token are the model's (notes/assumptions/5.md, 6.md, 7.md). -/
def Obligations.OneSweepRunsToCompletion : Prop :=
  ∀ (s : State) (x : Text) (speed : Frac) (rest : List Event), s.dst = .opened → s.ste = .idle → s.dseq = none →
    s.io = [] → s.tokens.headD false = false → 0 < speed → textOk x = true →
    let pad := x ++ List.replicate (4 - x.length) 0x20 ++ [0x20, 0x20, 0x20, 0x20]
    let n := pad.length - 3
    s.inbox = .packet (encode (.scroll x speed false)) :: (List.replicate n (.expiry false) ++ rest) →
    ∃ m, Spec.Shows m (Spec.plain [0x20, 0x20, 0x20, 0x20]) false ∧
      steps (2 * n + 1) s = .next
        (({ s with
            buf := m, i2cTrace := s.i2cTrace ++ Spec.windowFlushes pad 0 n,
            waitTrace := s.waitTrace ++ List.replicate n (speed * 1000),
            inbox := rest, tokens := s.tokens.tail } : State).reply (some 0x40#8) .ok .none)

/-! ### What reaches the bus -/

/-- R80: the one byte 0x21 is "Sent only by DINIT": no other step, of any operation or of STE's own, adds it to
`I2CTRACE`, and a DINIT that succeeds sends it once, right after it has opened the bus (R130). The field that says that a
DINIT is under way, clear between steps, is the model's (notes/assumptions/2.md).
20_memory.md R50, R83: nothing reaches a device position but the buffer's byte: every two-byte transaction that a step adds
goes to 0x70 and is a position 0..15 with the byte that the buffer holds there after the step. -/
def Obligations.OscOnComesFromDinitAndDataFromTheBuffer : Prop :=
  (∀ s t : State, s.constructing = false → step s = .next t → (∀ s', nextAction s ≠ .run .dinit s') →
      ∃ es, t.i2cTrace = s.i2cTrace ++ es ∧ Spec.command 0x21#8 ∉ es) ∧
    (∀ s t : State, s.dseq = none → exec .dinit s = .next t → t.dst = .opened →
      ∃ es, t.i2cTrace = s.i2cTrace ++ .busOpen :: Spec.command 0x21#8 :: es ∧ Spec.command 0x21#8 ∉ es) ∧
    ∀ s t : State, step s = .next t →
      ∃ es, t.i2cTrace = s.i2cTrace ++ es ∧
        ∀ a p v, .xfer a [p, v] ∈ es → a = 0x70#8 ∧ p ≤ 0x0F#8 ∧ v = Memory.read t.buf p.toNat
end

