-- ==== Sys2Proof/Laws/State.lean ====
section
/-! SUPPORT. One lemma per field per update of the state, each true by rfl, so that no later proof unfolds a record update. -/

namespace Sys2Proof.Machine

variable (s : State)

/-! ### setLatch -/

@[simp] theorem State.setLatch_pix (p : Pin) (l : Level) : (s.setLatch p l).pix = s.pix := by
  cases p <;> rfl
@[simp] theorem State.setLatch_lst (p : Pin) (l : Level) : (s.setLatch p l).lst = s.lst := by
  cases p <;> rfl
@[simp] theorem State.setLatch_buf (p : Pin) (l : Level) : (s.setLatch p l).buf = s.buf := by
  cases p <;> rfl
@[simp] theorem State.setLatch_dst (p : Pin) (l : Level) : (s.setLatch p l).dst = s.dst := by
  cases p <;> rfl
@[simp] theorem State.setLatch_ste (p : Pin) (l : Level) : (s.setLatch p l).ste = s.ste := by
  cases p <;> rfl
@[simp] theorem State.setLatch_lseq (p : Pin) (l : Level) : (s.setLatch p l).lseq = s.lseq := by
  cases p <;> rfl
@[simp] theorem State.setLatch_dseq (p : Pin) (l : Level) : (s.setLatch p l).dseq = s.dseq := by
  cases p <;> rfl
@[simp] theorem State.setLatch_constructing (p : Pin) (l : Level) : (s.setLatch p l).constructing = s.constructing := by
  cases p <;> rfl
@[simp] theorem State.setLatch_pinTrace (p : Pin) (l : Level) : (s.setLatch p l).pinTrace = s.pinTrace := by
  cases p <;> rfl
@[simp] theorem State.setLatch_i2cTrace (p : Pin) (l : Level) : (s.setLatch p l).i2cTrace = s.i2cTrace := by
  cases p <;> rfl
@[simp] theorem State.setLatch_waitTrace (p : Pin) (l : Level) : (s.setLatch p l).waitTrace = s.waitTrace := by
  cases p <;> rfl
@[simp] theorem State.setLatch_replies (p : Pin) (l : Level) : (s.setLatch p l).replies = s.replies := by
  cases p <;> rfl
@[simp] theorem State.setLatch_inbox (p : Pin) (l : Level) : (s.setLatch p l).inbox = s.inbox := by
  cases p <;> rfl
@[simp] theorem State.setLatch_io (p : Pin) (l : Level) : (s.setLatch p l).io = s.io := by
  cases p <;> rfl
@[simp] theorem State.setLatch_tokens (p : Pin) (l : Level) : (s.setLatch p l).tokens = s.tokens := by
  cases p <;> rfl

/-! ### logPin -/

@[simp] theorem State.logPin_pix (e : PinEvent) : (s.logPin e).pix = s.pix := rfl
@[simp] theorem State.logPin_cs (e : PinEvent) : (s.logPin e).cs = s.cs := rfl
@[simp] theorem State.logPin_dat (e : PinEvent) : (s.logPin e).dat = s.dat := rfl
@[simp] theorem State.logPin_clk (e : PinEvent) : (s.logPin e).clk = s.clk := rfl
@[simp] theorem State.logPin_lst (e : PinEvent) : (s.logPin e).lst = s.lst := rfl
@[simp] theorem State.logPin_buf (e : PinEvent) : (s.logPin e).buf = s.buf := rfl
@[simp] theorem State.logPin_dst (e : PinEvent) : (s.logPin e).dst = s.dst := rfl
@[simp] theorem State.logPin_ste (e : PinEvent) : (s.logPin e).ste = s.ste := rfl
@[simp] theorem State.logPin_lseq (e : PinEvent) : (s.logPin e).lseq = s.lseq := rfl
@[simp] theorem State.logPin_dseq (e : PinEvent) : (s.logPin e).dseq = s.dseq := rfl
@[simp] theorem State.logPin_constructing (e : PinEvent) : (s.logPin e).constructing = s.constructing := rfl
@[simp] theorem State.logPin_i2cTrace (e : PinEvent) : (s.logPin e).i2cTrace = s.i2cTrace := rfl
@[simp] theorem State.logPin_waitTrace (e : PinEvent) : (s.logPin e).waitTrace = s.waitTrace := rfl
@[simp] theorem State.logPin_replies (e : PinEvent) : (s.logPin e).replies = s.replies := rfl
@[simp] theorem State.logPin_inbox (e : PinEvent) : (s.logPin e).inbox = s.inbox := rfl
@[simp] theorem State.logPin_io (e : PinEvent) : (s.logPin e).io = s.io := rfl
@[simp] theorem State.logPin_tokens (e : PinEvent) : (s.logPin e).tokens = s.tokens := rfl
@[simp] theorem State.logPin_pinTrace (e : PinEvent) : (s.logPin e).pinTrace = s.pinTrace ++ [e] := rfl

/-! ### logBus -/

@[simp] theorem State.logBus_pix (e : BusEvent) : (s.logBus e).pix = s.pix := rfl
@[simp] theorem State.logBus_cs (e : BusEvent) : (s.logBus e).cs = s.cs := rfl
@[simp] theorem State.logBus_dat (e : BusEvent) : (s.logBus e).dat = s.dat := rfl
@[simp] theorem State.logBus_clk (e : BusEvent) : (s.logBus e).clk = s.clk := rfl
@[simp] theorem State.logBus_lst (e : BusEvent) : (s.logBus e).lst = s.lst := rfl
@[simp] theorem State.logBus_buf (e : BusEvent) : (s.logBus e).buf = s.buf := rfl
@[simp] theorem State.logBus_dst (e : BusEvent) : (s.logBus e).dst = s.dst := rfl
@[simp] theorem State.logBus_ste (e : BusEvent) : (s.logBus e).ste = s.ste := rfl
@[simp] theorem State.logBus_lseq (e : BusEvent) : (s.logBus e).lseq = s.lseq := rfl
@[simp] theorem State.logBus_dseq (e : BusEvent) : (s.logBus e).dseq = s.dseq := rfl
@[simp] theorem State.logBus_constructing (e : BusEvent) : (s.logBus e).constructing = s.constructing := rfl
@[simp] theorem State.logBus_pinTrace (e : BusEvent) : (s.logBus e).pinTrace = s.pinTrace := rfl
@[simp] theorem State.logBus_waitTrace (e : BusEvent) : (s.logBus e).waitTrace = s.waitTrace := rfl
@[simp] theorem State.logBus_replies (e : BusEvent) : (s.logBus e).replies = s.replies := rfl
@[simp] theorem State.logBus_inbox (e : BusEvent) : (s.logBus e).inbox = s.inbox := rfl
@[simp] theorem State.logBus_io (e : BusEvent) : (s.logBus e).io = s.io := rfl
@[simp] theorem State.logBus_tokens (e : BusEvent) : (s.logBus e).tokens = s.tokens := rfl
@[simp] theorem State.logBus_i2cTrace (e : BusEvent) : (s.logBus e).i2cTrace = s.i2cTrace ++ [e] := rfl

/-! ### logWait -/

@[simp] theorem State.logWait_pix (d : Frac) : (s.logWait d).pix = s.pix := rfl
@[simp] theorem State.logWait_cs (d : Frac) : (s.logWait d).cs = s.cs := rfl
@[simp] theorem State.logWait_dat (d : Frac) : (s.logWait d).dat = s.dat := rfl
@[simp] theorem State.logWait_clk (d : Frac) : (s.logWait d).clk = s.clk := rfl
@[simp] theorem State.logWait_lst (d : Frac) : (s.logWait d).lst = s.lst := rfl
@[simp] theorem State.logWait_buf (d : Frac) : (s.logWait d).buf = s.buf := rfl
@[simp] theorem State.logWait_dst (d : Frac) : (s.logWait d).dst = s.dst := rfl
@[simp] theorem State.logWait_ste (d : Frac) : (s.logWait d).ste = s.ste := rfl
@[simp] theorem State.logWait_lseq (d : Frac) : (s.logWait d).lseq = s.lseq := rfl
@[simp] theorem State.logWait_dseq (d : Frac) : (s.logWait d).dseq = s.dseq := rfl
@[simp] theorem State.logWait_constructing (d : Frac) : (s.logWait d).constructing = s.constructing := rfl
@[simp] theorem State.logWait_pinTrace (d : Frac) : (s.logWait d).pinTrace = s.pinTrace := rfl
@[simp] theorem State.logWait_i2cTrace (d : Frac) : (s.logWait d).i2cTrace = s.i2cTrace := rfl
@[simp] theorem State.logWait_replies (d : Frac) : (s.logWait d).replies = s.replies := rfl
@[simp] theorem State.logWait_inbox (d : Frac) : (s.logWait d).inbox = s.inbox := rfl
@[simp] theorem State.logWait_io (d : Frac) : (s.logWait d).io = s.io := rfl
@[simp] theorem State.logWait_tokens (d : Frac) : (s.logWait d).tokens = s.tokens := rfl
@[simp] theorem State.logWait_waitTrace (d : Frac) : (s.logWait d).waitTrace = s.waitTrace ++ [d] := rfl

/-! ### reply -/

@[simp] theorem State.reply_pix (op : Option Byte) (st : Status) (r : Result) : (s.reply op st r).pix = s.pix := rfl
@[simp] theorem State.reply_cs (op : Option Byte) (st : Status) (r : Result) : (s.reply op st r).cs = s.cs := rfl
@[simp] theorem State.reply_dat (op : Option Byte) (st : Status) (r : Result) : (s.reply op st r).dat = s.dat := rfl
@[simp] theorem State.reply_clk (op : Option Byte) (st : Status) (r : Result) : (s.reply op st r).clk = s.clk := rfl
@[simp] theorem State.reply_lst (op : Option Byte) (st : Status) (r : Result) : (s.reply op st r).lst = s.lst := rfl
@[simp] theorem State.reply_buf (op : Option Byte) (st : Status) (r : Result) : (s.reply op st r).buf = s.buf := rfl
@[simp] theorem State.reply_dst (op : Option Byte) (st : Status) (r : Result) : (s.reply op st r).dst = s.dst := rfl
@[simp] theorem State.reply_ste (op : Option Byte) (st : Status) (r : Result) : (s.reply op st r).ste = s.ste := rfl
@[simp] theorem State.reply_lseq (op : Option Byte) (st : Status) (r : Result) : (s.reply op st r).lseq = s.lseq := rfl
@[simp] theorem State.reply_dseq (op : Option Byte) (st : Status) (r : Result) : (s.reply op st r).dseq = s.dseq := rfl
@[simp] theorem State.reply_constructing (op : Option Byte) (st : Status) (r : Result) : (s.reply op st r).constructing = s.constructing := rfl
@[simp] theorem State.reply_pinTrace (op : Option Byte) (st : Status) (r : Result) : (s.reply op st r).pinTrace = s.pinTrace := rfl
@[simp] theorem State.reply_i2cTrace (op : Option Byte) (st : Status) (r : Result) : (s.reply op st r).i2cTrace = s.i2cTrace := rfl
@[simp] theorem State.reply_waitTrace (op : Option Byte) (st : Status) (r : Result) : (s.reply op st r).waitTrace = s.waitTrace := rfl
@[simp] theorem State.reply_inbox (op : Option Byte) (st : Status) (r : Result) : (s.reply op st r).inbox = s.inbox := rfl
@[simp] theorem State.reply_io (op : Option Byte) (st : Status) (r : Result) : (s.reply op st r).io = s.io := rfl
@[simp] theorem State.reply_tokens (op : Option Byte) (st : Status) (r : Result) : (s.reply op st r).tokens = s.tokens := rfl
@[simp] theorem State.reply_replies (op : Option Byte) (st : Status) (r : Result) : (s.reply op st r).replies = s.replies ++ [⟨op, st, r⟩] := rfl

/-! ### bumpLseq -/

@[simp] theorem State.bumpLseq_pix : (s.bumpLseq).pix = s.pix := rfl
@[simp] theorem State.bumpLseq_cs : (s.bumpLseq).cs = s.cs := rfl
@[simp] theorem State.bumpLseq_dat : (s.bumpLseq).dat = s.dat := rfl
@[simp] theorem State.bumpLseq_clk : (s.bumpLseq).clk = s.clk := rfl
@[simp] theorem State.bumpLseq_lst : (s.bumpLseq).lst = s.lst := rfl
@[simp] theorem State.bumpLseq_buf : (s.bumpLseq).buf = s.buf := rfl
@[simp] theorem State.bumpLseq_dst : (s.bumpLseq).dst = s.dst := rfl
@[simp] theorem State.bumpLseq_ste : (s.bumpLseq).ste = s.ste := rfl
@[simp] theorem State.bumpLseq_dseq : (s.bumpLseq).dseq = s.dseq := rfl
@[simp] theorem State.bumpLseq_constructing : (s.bumpLseq).constructing = s.constructing := rfl
@[simp] theorem State.bumpLseq_pinTrace : (s.bumpLseq).pinTrace = s.pinTrace := rfl
@[simp] theorem State.bumpLseq_i2cTrace : (s.bumpLseq).i2cTrace = s.i2cTrace := rfl
@[simp] theorem State.bumpLseq_waitTrace : (s.bumpLseq).waitTrace = s.waitTrace := rfl
@[simp] theorem State.bumpLseq_replies : (s.bumpLseq).replies = s.replies := rfl
@[simp] theorem State.bumpLseq_inbox : (s.bumpLseq).inbox = s.inbox := rfl
@[simp] theorem State.bumpLseq_io : (s.bumpLseq).io = s.io := rfl
@[simp] theorem State.bumpLseq_tokens : (s.bumpLseq).tokens = s.tokens := rfl
@[simp] theorem State.bumpLseq_lseq : (s.bumpLseq).lseq = s.lseq.map (· + 1) := rfl

/-! ### withHistories -/

@[simp] theorem State.withHistories_pix (ps : List PinEvent) (bs : List BusEvent) (ws : List Frac) : (s.withHistories ps bs ws).pix = s.pix := rfl
@[simp] theorem State.withHistories_cs (ps : List PinEvent) (bs : List BusEvent) (ws : List Frac) : (s.withHistories ps bs ws).cs = s.cs := rfl
@[simp] theorem State.withHistories_dat (ps : List PinEvent) (bs : List BusEvent) (ws : List Frac) : (s.withHistories ps bs ws).dat = s.dat := rfl
@[simp] theorem State.withHistories_clk (ps : List PinEvent) (bs : List BusEvent) (ws : List Frac) : (s.withHistories ps bs ws).clk = s.clk := rfl
@[simp] theorem State.withHistories_lst (ps : List PinEvent) (bs : List BusEvent) (ws : List Frac) : (s.withHistories ps bs ws).lst = s.lst := rfl
@[simp] theorem State.withHistories_buf (ps : List PinEvent) (bs : List BusEvent) (ws : List Frac) : (s.withHistories ps bs ws).buf = s.buf := rfl
@[simp] theorem State.withHistories_dst (ps : List PinEvent) (bs : List BusEvent) (ws : List Frac) : (s.withHistories ps bs ws).dst = s.dst := rfl
@[simp] theorem State.withHistories_ste (ps : List PinEvent) (bs : List BusEvent) (ws : List Frac) : (s.withHistories ps bs ws).ste = s.ste := rfl
@[simp] theorem State.withHistories_lseq (ps : List PinEvent) (bs : List BusEvent) (ws : List Frac) : (s.withHistories ps bs ws).lseq = s.lseq := rfl
@[simp] theorem State.withHistories_dseq (ps : List PinEvent) (bs : List BusEvent) (ws : List Frac) : (s.withHistories ps bs ws).dseq = s.dseq := rfl
@[simp] theorem State.withHistories_constructing (ps : List PinEvent) (bs : List BusEvent) (ws : List Frac) : (s.withHistories ps bs ws).constructing = s.constructing := rfl
@[simp] theorem State.withHistories_replies (ps : List PinEvent) (bs : List BusEvent) (ws : List Frac) : (s.withHistories ps bs ws).replies = s.replies := rfl
@[simp] theorem State.withHistories_inbox (ps : List PinEvent) (bs : List BusEvent) (ws : List Frac) : (s.withHistories ps bs ws).inbox = s.inbox := rfl
@[simp] theorem State.withHistories_io (ps : List PinEvent) (bs : List BusEvent) (ws : List Frac) : (s.withHistories ps bs ws).io = s.io := rfl
@[simp] theorem State.withHistories_tokens (ps : List PinEvent) (bs : List BusEvent) (ws : List Frac) : (s.withHistories ps bs ws).tokens = s.tokens := rfl
@[simp] theorem State.withHistories_pinTrace (ps : List PinEvent) (bs : List BusEvent) (ws : List Frac) : (s.withHistories ps bs ws).pinTrace = ps := rfl
@[simp] theorem State.withHistories_i2cTrace (ps : List PinEvent) (bs : List BusEvent) (ws : List Frac) : (s.withHistories ps bs ws).i2cTrace = bs := rfl
@[simp] theorem State.withHistories_waitTrace (ps : List PinEvent) (bs : List BusEvent) (ws : List Frac) : (s.withHistories ps bs ws).waitTrace = ws := rfl

/-! ### Latches -/

@[simp] theorem State.latch_setLatch_self (p : Pin) (l : Level) : (s.setLatch p l).latch p = l := by
  cases p <;> rfl

theorem State.latch_setLatch_other {p q : Pin} (h : q ≠ p) (l : Level) : (s.setLatch p l).latch q = s.latch q := by
  cases p <;> cases q <;> first | rfl | exact absurd rfl h

@[simp] theorem State.nPix_eq : s.nPix = s.pix.length := rfl

end Sys2Proof.Machine
end

