-- ==== Sys2Proof/Laws/Memory.lean ====
section
/-! SUPPORT. The display buffer as a memory: what a read gives after a write, and that every operation keeps the
canonical form. -/

namespace Sys2Proof.Machine

/-! ### Reads -/

@[simp] theorem Memory.read_nil (p : Nat) : Memory.read [] p = 0#8 := rfl

@[simp] theorem Memory.read_zeroed (p : Nat) : Memory.read Memory.zeroed p = 0#8 := rfl

theorem Memory.read_erase (m : Memory) (p q : Nat) :
    Memory.read (Memory.erase m p) q = if q = p then bufDefault else Memory.read m q := by
  induction m with
  | nil => simp [Memory.erase, Memory.read, bufDefault]
  | cons c rest ih =>
    obtain ⟨a, v⟩ := c
    by_cases hap : a = p
    · subst hap
      simp only [Memory.erase, if_true, ih]
      by_cases hq : q = a
      · simp [hq]
      · simp [hq, Memory.read, Ne.symm hq]
    · simp only [Memory.erase, hap, if_false, Memory.read, ih]
      by_cases haq : a = q
      · subst haq; simp [hap]
      · simp [haq]

theorem Memory.read_insert (m : Memory) (p : Nat) (x : Byte) (q : Nat) (hp : Memory.read m p = bufDefault)
    (hn : ∀ c ∈ m, c.1 ≠ p) : Memory.read (Memory.insert m p x) q = if q = p then x else Memory.read m q := by
  induction m with
  | nil =>
    by_cases hq : q = p
    · simp [Memory.insert, Memory.read, hq]
    · simp [Memory.insert, Memory.read, hq, Ne.symm hq]
  | cons c rest ih =>
    obtain ⟨a, v⟩ := c
    have hap : a ≠ p := hn (a, v) (by simp)
    by_cases hlt : p < a
    · by_cases hq : q = p
      · simp [Memory.insert, hlt, Memory.read, hq]
      · simp [Memory.insert, hlt, Memory.read, hq, Ne.symm hq]
    · have hrest : Memory.read rest p = bufDefault := by simpa [Memory.read, hap] using hp
      have := ih hrest (fun c hc => hn c (by simp [hc]))
      simp only [Memory.insert, hlt, if_false, Memory.read, this]
      by_cases haq : a = q
      · subst haq; simp [hap]
      · simp [haq]

theorem Memory.mem_erase {m : Memory} {p : Nat} {c : Host.Cell} (h : c ∈ Memory.erase m p) : c ∈ m ∧ c.1 ≠ p := by
  induction m with
  | nil => simp [Memory.erase] at h
  | cons d rest ih =>
    obtain ⟨a, v⟩ := d
    by_cases hap : a = p
    · simp only [Memory.erase, hap, if_true] at h
      exact ⟨by simp [(ih h).1], (ih h).2⟩
    · simp only [Memory.erase, hap, if_false, List.mem_cons] at h
      rcases h with rfl | h
      · exact ⟨by simp, hap⟩
      · exact ⟨by simp [(ih h).1], (ih h).2⟩

/-- A write is read back, and changes no other position. -/
theorem Memory.read_write (m : Memory) (p : Nat) (x : Byte) (q : Nat) :
    Memory.read (Memory.write m p x) q = if q = p then x else Memory.read m q := by
  unfold Memory.write
  by_cases hx : x = bufDefault
  · rw [if_pos hx, Memory.read_erase, hx]
  · rw [if_neg hx, Memory.read_insert _ _ _ _ (by simp [Memory.read_erase]) (fun c hc => (Memory.mem_erase hc).2)]
    by_cases hq : q = p
    · simp [hq]
    · simp [hq, Memory.read_erase]

@[simp] theorem Memory.read_write_self (m : Memory) (p : Nat) (x : Byte) : Memory.read (Memory.write m p x) p = x := by
  simp [Memory.read_write]

theorem Memory.read_write_other (m : Memory) {p q : Nat} (x : Byte) (h : q ≠ p) :
    Memory.read (Memory.write m p x) q = Memory.read m q := by
  simp [Memory.read_write, h]

theorem Memory.read_write2 (m : Memory) (p : Nat) (v : Mask) (q : Nat) :
    Memory.read (Memory.write2 m p v) q =
      if q = p then v.setWidth 8 else if q = p + 1 then v.extractLsb' 8 8 else Memory.read m q := by
  unfold Memory.write2
  rw [Memory.read_write, Memory.read_write]
  by_cases h1 : q = p + 1
  · subst h1; simp
  · simp [h1]

/-- A slot written is a slot read (20_memory.md R51). -/
theorem Memory.read2_write2 (m : Memory) (p : Nat) (v : Mask) : Memory.read2 (Memory.write2 m p v) p = v := by
  unfold Memory.read2
  rw [Memory.read_write2, Memory.read_write2]
  simp only [if_true, Nat.add_eq_left, Nat.one_ne_zero, if_false]
  ext i hi
  simp only [BitVec.getElem_append, BitVec.getElem_setWidth, BitVec.getElem_extractLsb']
  split
  · rename_i h; simp [BitVec.getLsbD_eq_getElem hi]
  · rename_i h
    rw [show 8 + (i - 8) = i by omega, BitVec.getLsbD_eq_getElem hi]

/-! ### The canonical form -/

theorem Memory.wf_iff (m : Memory) :
    Memory.wf m = true ↔ Memory.rising m = true ∧ ∀ c ∈ m, c.1 < Config.bufLen ∧ c.2 ≠ bufDefault := by
  simp [Memory.wf]

theorem Memory.rising_cons (a : Nat) (v : Byte) (m : Memory) :
    Memory.rising ((a, v) :: m) = true ↔ Memory.rising m = true ∧ ∀ c ∈ m, a < c.1 := by
  induction m generalizing a v with
  | nil => simp [Memory.rising]
  | cons d rest ih =>
    obtain ⟨b, y⟩ := d
    rw [Memory.rising, Bool.and_eq_true, decide_eq_true_eq, ih b y]
    constructor
    · rintro ⟨hab, hr, hb⟩
      refine ⟨⟨hr, hb⟩, ?_⟩
      simp only [List.mem_cons, forall_eq_or_imp]
      exact ⟨hab, fun c hc => Nat.lt_trans hab (hb c hc)⟩
    · rintro ⟨⟨hr, hb⟩, ha⟩
      exact ⟨ha (b, y) (by simp), hr, hb⟩

theorem Memory.rising_erase {m : Memory} (p : Nat) (h : Memory.rising m = true) :
    Memory.rising (Memory.erase m p) = true := by
  induction m with
  | nil => rfl
  | cons c rest ih =>
    obtain ⟨a, v⟩ := c
    rw [Memory.rising_cons] at h
    by_cases hap : a = p
    · simpa [Memory.erase, hap] using ih h.1
    · simp only [Memory.erase, hap, if_false]
      rw [Memory.rising_cons]
      exact ⟨ih h.1, fun c hc => h.2 c (Memory.mem_erase hc).1⟩

theorem Memory.mem_insert {m : Memory} {p : Nat} {x : Byte} {c : Host.Cell} (h : c ∈ Memory.insert m p x) :
    c = (p, x) ∨ c ∈ m := by
  induction m with
  | nil => simpa [Memory.insert] using h
  | cons d rest ih =>
    obtain ⟨a, v⟩ := d
    by_cases hlt : p < a
    · simpa [Memory.insert, hlt] using h
    · simp only [Memory.insert, hlt, if_false, List.mem_cons] at h
      rcases h with rfl | h
      · simp
      · rcases ih h with h | h
        · exact .inl h
        · exact .inr (by simp [h])

theorem Memory.rising_insert {m : Memory} (p : Nat) (x : Byte) (h : Memory.rising m = true) (hn : ∀ c ∈ m, c.1 ≠ p) :
    Memory.rising (Memory.insert m p x) = true := by
  induction m with
  | nil => rfl
  | cons c rest ih =>
    obtain ⟨a, v⟩ := c
    have h' := (Memory.rising_cons a v rest).1 h
    by_cases hlt : p < a
    · simp only [Memory.insert, hlt, if_true]
      rw [Memory.rising_cons]
      refine ⟨h, ?_⟩
      simp only [List.mem_cons, forall_eq_or_imp]
      exact ⟨hlt, fun c hc => Nat.lt_trans hlt (h'.2 c hc)⟩
    · simp only [Memory.insert, hlt, if_false]
      rw [Memory.rising_cons]
      refine ⟨ih h'.1 (fun c hc => hn c (by simp [hc])), fun c hc => ?_⟩
      have hap : a ≠ p := hn (a, v) (by simp)
      rcases Memory.mem_insert hc with rfl | hc
      · exact Nat.lt_of_le_of_ne (Nat.le_of_not_lt hlt) hap
      · exact h'.2 c hc

/-- Every write inside the buffer keeps the canonical form. -/
theorem Memory.wf_write {m : Memory} {p : Nat} (x : Byte) (h : Memory.wf m = true) (hp : p < Config.bufLen) :
    Memory.wf (Memory.write m p x) = true := by
  rw [Memory.wf_iff] at h ⊢
  unfold Memory.write
  by_cases hx : x = bufDefault
  · rw [if_pos hx]
    exact ⟨Memory.rising_erase p h.1, fun c hc => h.2 c (Memory.mem_erase hc).1⟩
  · rw [if_neg hx]
    refine ⟨Memory.rising_insert p x (Memory.rising_erase p h.1) (fun c hc => (Memory.mem_erase hc).2), fun c hc => ?_⟩
    rcases Memory.mem_insert hc with rfl | hc
    · exact ⟨hp, hx⟩
    · exact h.2 c (Memory.mem_erase hc).1

@[simp] theorem Memory.wf_zeroed : Memory.wf Memory.zeroed = true := rfl

theorem Memory.wf_write2 {m : Memory} {p : Nat} (v : Mask) (h : Memory.wf m = true) (hp : p + 1 < Config.bufLen) :
    Memory.wf (Memory.write2 m p v) = true :=
  Memory.wf_write _ (Memory.wf_write _ h (Nat.lt_of_succ_lt hp)) hp

theorem outOfRange_eq_false {i : Int} {n : Nat} : outOfRange i n = false ↔ 0 ≤ i ∧ i < n := by
  simp [outOfRange]

theorem outOfRange_eq_true {i : Int} {n : Nat} : outOfRange i n = true ↔ i < 0 ∨ (n : Int) ≤ i := by
  simp [outOfRange]

theorem wf_putChar {m : Memory} (position : Int) (c : CharCode) (dp : Bool) (h : Memory.wf m = true) :
    Memory.wf (putChar position c dp m) = true := by
  unfold putChar
  by_cases hr : outOfRange position Config.nDigits
  · simpa [hr] using h
  · simp only [hr]
    rw [Bool.not_eq_true, outOfRange_eq_false] at hr
    refine Memory.wf_write2 _ h ?_
    simp only [Config.nDigits, Config.bufLen] at *
    omega

theorem wf_place (slots : List Slot) (p : Nat) {m : Memory} (h : Memory.wf m = true) :
    Memory.wf (place p slots m) = true := by
  induction slots generalizing p m with
  | nil => exact h
  | cons x rest ih => exact ih (p + 1) (wf_putChar _ _ _ h)

theorem wf_render (slots : List Slot) (j : Bool) : Memory.wf (render slots j) = true :=
  wf_place slots _ Memory.wf_zeroed

/-- Two canonical memories with the same bytes are the same list. -/
theorem Memory.ext_of_read {m n : Memory} (hm : Memory.wf m = true) (hn : Memory.wf n = true)
    (h : ∀ p, Memory.read m p = Memory.read n p) : m = n := by
  rw [Memory.wf_iff] at hm hn
  obtain ⟨hrm, hm⟩ := hm
  obtain ⟨hrn, hn⟩ := hn
  have unlisted : ∀ (l : Memory) (q : Nat), (∀ c ∈ l, q < c.1) → Memory.read l q = bufDefault := by
    intro l q
    induction l with
    | nil => intro _; rfl
    | cons c rest ih =>
      obtain ⟨a, v⟩ := c
      intro hl
      have : q < a := hl (a, v) (by simp)
      simp only [Memory.read, if_neg (Nat.ne_of_gt this)]
      exact ih (fun c hc => hl c (by simp [hc]))
  induction m generalizing n with
  | nil =>
    cases n with
    | nil => rfl
    | cons d rest =>
      obtain ⟨b, y⟩ := d
      have := h b
      simp only [Memory.read, if_true] at this
      exact absurd this.symm (hn (b, y) (by simp)).2
  | cons c rest ih =>
    obtain ⟨a, v⟩ := c
    have hr := (Memory.rising_cons a v rest).1 hrm
    cases n with
    | nil =>
      have := h a
      simp only [Memory.read, if_true] at this
      exact absurd this (hm (a, v) (by simp)).2
    | cons d rest' =>
      obtain ⟨b, y⟩ := d
      have hr' := (Memory.rising_cons b y rest').1 hrn
      have hab : a = b := by
        rcases Nat.lt_trichotomy a b with hlt | heq | hgt
        · have h1 := h a
          rw [unlisted ((b, y) :: rest') a] at h1
          · simp only [Memory.read, if_true] at h1
            exact absurd h1 (hm (a, v) (by simp)).2
          · simp only [List.mem_cons, forall_eq_or_imp]
            exact ⟨hlt, fun c hc => Nat.lt_trans hlt (hr'.2 c hc)⟩
        · exact heq
        · have h1 := h b
          rw [unlisted ((a, v) :: rest) b] at h1
          · simp only [Memory.read, if_true] at h1
            exact absurd h1.symm (hn (b, y) (by simp)).2
          · simp only [List.mem_cons, forall_eq_or_imp]
            exact ⟨hgt, fun c hc => Nat.lt_trans hgt (hr.2 c hc)⟩
      subst hab
      have hvy : v = y := by have := h a; simpa [Memory.read] using this
      subst hvy
      congr 1
      refine ih (fun p => ?_) hr.1 (fun c hc => hm c (by simp [hc])) hr'.1 (fun c hc => hn c (by simp [hc]))
      have hp := h p
      by_cases hpa : a = p
      · subst hpa
        rw [unlisted rest a hr.2, unlisted rest' a hr'.2]
      · simpa [Memory.read, hpa] using hp

end Sys2Proof.Machine
end

