-- ==== Sys2Proof/Laws/Calls.lean ====
section
/-! SUPPORT. What a sequence of collaborator calls can do: SHOW and a flush are their event lists (40_led_strip.md R107,
42_display.md R135), cut at the first call that fails (60_exceptions.md R202). -/

namespace Sys2Proof.Machine

/-! ### Runs -/

@[simp] theorem Run.andThen_true (s : State) (f : State → Run) : Run.andThen ⟨s, true⟩ f = f s := rfl

@[simp] theorem Run.andThen_false (s : State) (f : State → Run) : Run.andThen ⟨s, false⟩ f = ⟨s, false⟩ := rfl

@[simp] theorem Run.always_mk (s : State) (b : Bool) (f : State → State) : Run.always ⟨s, b⟩ f = ⟨f s, b⟩ := rfl

theorem Run.andThen_assoc (r : Run) (f g : State → Run) :
    (r.andThen f).andThen g = r.andThen fun t => (f t).andThen g := by
  obtain ⟨s, b⟩ := r
  cases b <;> rfl

theorem Run.andThen_congr {r : Run} {f g : State → Run} (h : f r.st = g r.st) : r.andThen f = r.andThen g := by
  obtain ⟨s, b⟩ := r
  cases b
  · rfl
  · exact h

theorem Run.andThen_always {f g : State → Run} {k : State → State} (r : Run) (h : ∀ t, (f t).always k = g (k t)) :
    (r.andThen f).always k = (r.always k).andThen g := by
  obtain ⟨s, b⟩ := r
  cases b
  · rfl
  · exact h s

theorem Run.andThen_pure (r : Run) : (r.andThen fun t => ⟨t, true⟩) = r := by
  obtain ⟨s, b⟩ := r
  cases b <;> rfl

/-! ### How far calls get -/

@[simp] theorem okCalls_nil (n : Nat) : okCalls n [] = n := by cases n <;> rfl

@[simp] theorem answersLeft_nil (n : Nat) : answersLeft n [] = [] := by cases n <;> rfl

theorem okCalls_le (n : Nat) (io : List IoAnswer) : okCalls n io ≤ n := by
  induction n generalizing io with
  | zero => simp [okCalls]
  | succ n ih =>
    rcases io with _ | ⟨_ | _, rest⟩
    · simp [okCalls]
    · simpa [okCalls] using ih rest
    · simp [okCalls]

theorem okCalls_add (m n : Nat) (io : List IoAnswer) :
    okCalls (m + n) io = if okCalls m io = m then m + okCalls n (answersLeft m io) else okCalls m io := by
  induction m generalizing io with
  | zero => simp [okCalls, answersLeft]
  | succ m ih =>
    rw [Nat.succ_add]
    rcases io with _ | ⟨_ | _, rest⟩
    · simp [okCalls, answersLeft]; omega
    · simp only [okCalls, answersLeft, ih, Nat.add_right_cancel_iff]
      split <;> omega
    · simp [okCalls]

theorem answersLeft_add (m n : Nat) (io : List IoAnswer) :
    answersLeft (m + n) io = if okCalls m io = m then answersLeft n (answersLeft m io) else answersLeft m io := by
  induction m generalizing io with
  | zero => simp [okCalls, answersLeft]
  | succ m ih =>
    rw [Nat.succ_add]
    rcases io with _ | ⟨_ | _, rest⟩
    · simp [okCalls, answersLeft]
    · simp only [okCalls, answersLeft, ih, Nat.add_right_cancel_iff]
    · simp [okCalls, answersLeft]

/-! ### Bus calls -/

theorem busCalls_append (a b : List BusEvent) (s : State) :
    busCalls (a ++ b) s = (busCalls a s).andThen (busCalls b) := by
  induction a generalizing s with
  | nil => rfl
  | cons e rest ih =>
    simp only [List.cons_append, busCalls, Run.andThen_assoc]
    exact Run.andThen_congr (ih _)

/-- A list of bus calls appends its events up to the first failure, and changes nothing else. -/
theorem busCalls_spec (es : List BusEvent) (s : State) :
    busCalls es s =
      ⟨{ s with i2cTrace := s.i2cTrace ++ es.take (okCalls es.length s.io), io := answersLeft es.length s.io },
        decide (okCalls es.length s.io = es.length)⟩ := by
  induction es generalizing s with
  | nil => simp [busCalls, okCalls, answersLeft]
  | cons e rest ih =>
    obtain ⟨pix, cs, dat, clk, lst, buf, dst, ste, lseq, dseq, con, pinTrace, i2cTrace, waitTrace, replies, inbox, io, tokens⟩ := s
    rcases io with _ | ⟨_ | _, io⟩
    · simp [busCalls, collaborator, ih, State.logBus]
    · simp [busCalls, collaborator, ih, okCalls, answersLeft, State.logBus]
    · simp [busCalls, collaborator, okCalls, answersLeft]

theorem i2cWrite_eq (bytes : List Byte) (s : State) : i2cWrite bytes s = busCalls [.xfer Config.i2cAddr bytes] s := by
  simp [busCalls, i2cWrite, Run.andThen_pure]

theorem openBus_eq (s : State) : openBus s = busCalls [.busOpen] s := by
  simp [busCalls, openBus, Run.andThen_pure]

theorem closeBus_eq (s : State) : closeBus s = busCalls [.busClose] s := by
  simp [busCalls, closeBus, Run.andThen_pure]

/-- What one transaction of a flush does, for every environment. -/
theorem flushOne_spec {p : Nat} {s : State} (h : s.dseq = some p) :
    flushOne s =
      ⟨{ s with
          i2cTrace := s.i2cTrace ++ [flushEvent s.buf p].take (okCalls 1 s.io), io := answersLeft 1 s.io,
          dseq := some (if okCalls 1 s.io = 1 then p + 1 else p) },
        decide (okCalls 1 s.io = 1)⟩ := by
  obtain ⟨pix, cs, dat, clk, lst, buf, dst, ste, lseq, dseq, con, pinTrace, i2cTrace, waitTrace, replies, inbox, io, tokens⟩ := s
  cases h
  rcases io with _ | ⟨_ | _, io⟩ <;>
    simp [flushOne, i2cWrite, collaborator, okCalls, answersLeft, State.logBus, flushEvent]

/-- The flush loop is the list of its transactions. -/
theorem flushLoop_eq (n p : Nat) (s : State) :
    (flushLoop n { s with dseq := some p }).always (fun t => { t with dseq := none }) =
      busCalls ((List.range' p n).map (flushEvent s.buf)) { s with dseq := none } := by
  induction n generalizing p s with
  | zero => rfl
  | succ n ih =>
    obtain ⟨pix, cs, dat, clk, lst, buf, dst, ste, lseq, dseq, con, pinTrace, i2cTrace, waitTrace, replies, inbox, io, tokens⟩ := s
    rcases io with _ | ⟨_ | _, io⟩
    · have := ih (p + 1) ⟨pix, cs, dat, clk, lst, buf, dst, ste, lseq, dseq, con, pinTrace, i2cTrace ++ [flushEvent buf p],
        waitTrace, replies, inbox, [], tokens⟩
      simpa [flushLoop, flushOne, i2cWrite, collaborator, busCalls, List.range'_succ, State.logBus, flushEvent] using this
    · have := ih (p + 1) ⟨pix, cs, dat, clk, lst, buf, dst, ste, lseq, dseq, con, pinTrace, i2cTrace ++ [flushEvent buf p],
        waitTrace, replies, inbox, io, tokens⟩
      simpa [flushLoop, flushOne, i2cWrite, collaborator, busCalls, List.range'_succ, State.logBus, flushEvent] using this
    · simp [flushLoop, flushOne, i2cWrite, collaborator, busCalls, List.range'_succ]

/-- A flush is the list of its 16 transactions. -/
theorem flushSeq_eq (s : State) : flushSeq s = busCalls (flushEvents s.buf) { s with dseq := none } := by
  simp [flushSeq, flushLoop_eq, flushEvents, List.range_eq_range']

@[simp] theorem flushEvents_length (buf : Memory) : (flushEvents buf).length = 16 := by
  simp [flushEvents, Config.bufLen]

/-- What a flush does, for every environment. -/
theorem flushSeq_spec (s : State) :
    flushSeq s =
      ⟨{ s with i2cTrace := s.i2cTrace ++ (flushEvents s.buf).take (okCalls 16 s.io), io := answersLeft 16 s.io, dseq := none },
        decide (okCalls 16 s.io = 16)⟩ := by
  rw [flushSeq_eq, busCalls_spec]
  simp

/-! ### The three pins -/

/-- What the call for each of the three pins does, for every environment: the one event if all three succeed. -/
theorem forThreePins_spec (e : PinEvent) (s : State) :
    forThreePins e s =
      ⟨{ s with
          pinTrace := s.pinTrace ++ (if okCalls 3 s.io = 3 then [e] else []), io := answersLeft 3 s.io },
        decide (okCalls 3 s.io = 3)⟩ := by
  obtain ⟨pix, cs, dat, clk, lst, buf, dst, ste, lseq, dseq, con, pinTrace, i2cTrace, waitTrace, replies, inbox, io, tokens⟩ := s
  rcases io with _ | ⟨_ | _, _ | ⟨_ | _, _ | ⟨_ | _, io⟩⟩⟩ <;>
    simp [forThreePins, collaborator, okCalls, answersLeft, State.logPin]

/-! ### Pin writes -/

theorem pinWrites_append (a b : List PinStep) (s : State) :
    pinWrites (a ++ b) s = (pinWrites a s).andThen (pinWrites b) := by
  induction a generalizing s with
  | nil => rfl
  | cons e rest ih =>
    simp only [List.cons_append, pinWrites, Run.andThen_assoc]
    exact Run.andThen_congr (ih _)

@[simp] theorem levelsAfter_nil (v : Levels) : levelsAfter v [] = v := rfl

@[simp] theorem levelsAfter_cons (v : Levels) (w : PinStep) (ws : List PinStep) :
    levelsAfter v (w :: ws) = levelsAfter (v.after w) ws := rfl

theorem levelsAfter_append (v : Levels) (a b : List PinStep) :
    levelsAfter v (a ++ b) = levelsAfter (levelsAfter v a) b := by
  simp [levelsAfter]

theorem State.levels_setLatch (s : State) (p : Pin) (l : Level) : (s.setLatch p l).levels = s.levels.after (p, l) := by
  cases p <;> rfl

/-- What a list of pin writes leaves: the events up to the first failure, the latches as they say, and nothing else
changed. -/
def afterPins (ws : List PinStep) (n : Nat) (s : State) : State :=
  { s with
    cs := (levelsAfter s.levels ws).cs, dat := (levelsAfter s.levels ws).dat, clk := (levelsAfter s.levels ws).clk,
    pinTrace := s.pinTrace ++ ws.map (fun w => .write w.1 w.2), io := answersLeft n s.io }

theorem pinWrites_spec (ws : List PinStep) (s : State) :
    pinWrites ws s =
      ⟨afterPins (ws.take (okCalls ws.length s.io)) ws.length s, decide (okCalls ws.length s.io = ws.length)⟩ := by
  induction ws generalizing s with
  | nil => simp [pinWrites, okCalls, answersLeft, afterPins, State.levels]
  | cons w rest ih =>
    obtain ⟨p, l⟩ := w
    obtain ⟨pix, cs, dat, clk, lst, buf, dst, ste, lseq, dseq, con, pinTrace, i2cTrace, waitTrace, replies, inbox, io, tokens⟩ := s
    rcases io with _ | ⟨_ | _, io⟩
    · simp only [pinWrites, pinWrite, collaborator, Run.andThen_true, ih]
      cases p <;> simp [afterPins, State.logPin, State.setLatch, State.levels, Levels.after]
    · simp only [pinWrites, pinWrite, collaborator, Run.andThen_true, ih]
      cases p <;> simp [afterPins, okCalls, answersLeft, State.logPin, State.setLatch, State.levels, Levels.after] <;>
        exact decide_eq_decide.2 Iff.rfl
    · simp [pinWrites, pinWrite, collaborator, okCalls, answersLeft, afterPins, State.levels]

@[simp] theorem afterPins_pix (ws : List PinStep) (n : Nat) (s : State) : (afterPins ws n s).pix = s.pix := rfl

theorem pinWrites_pix (ws : List PinStep) (s : State) : (pinWrites ws s).st.pix = s.pix := by
  rw [pinWrites_spec]; rfl

/-! ### SHOW is its event list -/

/-- `lseq` put aside. -/
def State.dropLseq (s : State) : State := { s with lseq := none }

@[simp] theorem State.dropLseq_bump (s : State) : s.bumpLseq.dropLseq = s.dropLseq := rfl

@[simp] theorem State.dropLseq_pix (s : State) : s.dropLseq.pix = s.pix := rfl

theorem pinWrite_dropLseq (p : Pin) (l : Level) (s : State) :
    (pinWrite p l s).always State.dropLseq = pinWrite p l s.dropLseq := by
  obtain ⟨pix, cs, dat, clk, lst, buf, dst, ste, lseq, dseq, con, pinTrace, i2cTrace, waitTrace, replies, inbox, io, tokens⟩ := s
  rcases io with _ | ⟨_ | _, io⟩ <;> cases p <;> rfl

theorem sendBit_dropLseq (b : Bool) (s : State) :
    (sendBit b s).always State.dropLseq = pinWrites (cells [b]) s.dropLseq := by
  have h3 : ∀ t, ((pinWrite .clk false t).andThen fun s => ⟨s.bumpLseq, true⟩).always State.dropLseq =
      pinWrites [(.clk, false)] t.dropLseq := fun t => by
    rw [Run.andThen_always (g := fun s => ⟨s, true⟩) _ (fun t => by simp), pinWrite_dropLseq]; rfl
  have h2 : ∀ t, ((pinWrite .clk true t).andThen fun s =>
      (pinWrite .clk false s).andThen fun s => ⟨s.bumpLseq, true⟩).always State.dropLseq =
      pinWrites [(.clk, true), (.clk, false)] t.dropLseq := fun t => by
    rw [Run.andThen_always _ h3, pinWrite_dropLseq]; rfl
  rw [sendBit, Run.andThen_always _ h2, pinWrite_dropLseq]; rfl

theorem sendBits_dropLseq (bits : List Bool) (s : State) :
    (sendBits bits s).always State.dropLseq = pinWrites (cells bits) s.dropLseq := by
  induction bits generalizing s with
  | nil => rfl
  | cons b rest ih =>
    rw [sendBits, Run.andThen_always _ ih, sendBit_dropLseq, show cells (b :: rest) = cells [b] ++ cells rest by simp [cells],
      pinWrites_append]

theorem cells_append (a b : List Bool) : cells (a ++ b) = cells a ++ cells b := by simp [cells]

theorem pixelFrame_dropLseq (p : Pixel) (s : State) :
    (pixelFrame p s).always State.dropLseq = pinWrites (cells (pixelBits p)) s.dropLseq := sendBits_dropLseq _ s

theorem pixelFrames_dropLseq (ps : List Pixel) (s : State) :
    (pixelFrames ps s).always State.dropLseq = pinWrites (cells (ps.flatMap pixelBits)) s.dropLseq := by
  induction ps generalizing s with
  | nil => rfl
  | cons p rest ih =>
    rw [pixelFrames, Run.andThen_always _ ih, pixelFrame_dropLseq, List.flatMap_cons, cells_append, pinWrites_append]

theorem pulse_dropLseq (s : State) :
    (pulse s).always State.dropLseq = pinWrites [(.clk, true), (.clk, false)] s.dropLseq := by
  have h3 : ∀ t, ((pinWrite .clk false t).andThen fun s => ⟨s.bumpLseq, true⟩).always State.dropLseq =
      pinWrites [(.clk, false)] t.dropLseq := fun t => by
    rw [Run.andThen_always (g := fun s => ⟨s, true⟩) _ (fun t => by simp), pinWrite_dropLseq]; rfl
  rw [pulse, Run.andThen_always _ h3, pinWrite_dropLseq]; rfl

theorem pulses_dropLseq (n : Nat) (s : State) :
    (pulses n s).always State.dropLseq = pinWrites (pulseEvents n) s.dropLseq := by
  induction n generalizing s with
  | zero => rfl
  | succ n ih =>
    rw [pulses, Run.andThen_always _ ih, pulse_dropLseq, ← pinWrites_append]
    rfl

theorem endFrame_dropLseq (s : State) :
    (endFrame s).always State.dropLseq = pinWrites ((.dat, false) :: pulseEvents Config.endPulses) s.dropLseq := by
  rw [endFrame, Run.andThen_always _ (pulses_dropLseq _), pinWrite_dropLseq]; rfl

/-- The stepping form of SHOW (R106) is the list of R107: its pin writes in order, up to the first that fails. -/
theorem showSeq_eq (s : State) : showSeq s = pinWrites (showEvents s.pix) s.dropLseq := by
  have hEnd : ∀ t, ((endFrame t).andThen (pinWrite .cs (!Config.csActive))).always State.dropLseq =
      pinWrites ((.dat, false) :: (pulseEvents Config.endPulses ++ [(.cs, !Config.csActive)])) t.dropLseq := fun t => by
    rw [Run.andThen_always _ (pinWrite_dropLseq _ _), endFrame_dropLseq, ← List.cons_append, pinWrites_append]
    exact Run.andThen_congr (by simp [pinWrites, Run.andThen_pure])
  have hPix : ∀ t, ((pixelFrames t.pix t).andThen fun t => (endFrame t).andThen (pinWrite .cs (!Config.csActive))).always
      State.dropLseq =
      pinWrites (cells (t.dropLseq.pix.flatMap pixelBits) ++
        ((.dat, false) :: (pulseEvents Config.endPulses ++ [(.cs, !Config.csActive)]))) t.dropLseq := fun t => by
    rw [Run.andThen_always _ hEnd, pixelFrames_dropLseq, pinWrites_append]; rfl
  have hStart : ∀ t, ((startFrame t).andThen fun t => (pixelFrames t.pix t).andThen fun t =>
      (endFrame t).andThen (pinWrite .cs (!Config.csActive))).always State.dropLseq =
      pinWrites (cells (List.replicate Config.startBits false) ++ (cells (t.dropLseq.pix.flatMap pixelBits) ++
        ((.dat, false) :: (pulseEvents Config.endPulses ++ [(.cs, !Config.csActive)])))) t.dropLseq := fun t => by
    rw [Run.andThen_always (g := fun x => pinWrites (cells (x.pix.flatMap pixelBits) ++
        ((.dat, false) :: (pulseEvents Config.endPulses ++ [(.cs, !Config.csActive)]))) x) _ hPix, startFrame, sendBits_dropLseq, pinWrites_append]
    exact Run.andThen_congr (by rw [pinWrites_pix])
  have h0 : (fun s : State => { s with lseq := none }) = State.dropLseq := rfl
  rw [showSeq, h0, Run.andThen_always (g := fun x => pinWrites (cells (List.replicate Config.startBits false) ++
        (cells (x.pix.flatMap pixelBits) ++ ((.dat, false) :: (pulseEvents Config.endPulses ++ [(.cs, !Config.csActive)])))) x)
        _ hStart, pinWrite_dropLseq, showEvents, pinWrites]
  have hd : ({ s with lseq := some 0 } : State).dropLseq = s.dropLseq := rfl
  rw [hd]
  refine Run.andThen_congr ?_
  have hp : (pinWrite .cs Config.csActive s.dropLseq).st.pix = s.pix := by
    have := pinWrites_pix [(.cs, Config.csActive)] s.dropLseq
    simpa [pinWrites, Run.andThen_pure] using this
  simp only [hp]

@[simp] theorem cells_length (bits : List Bool) : (cells bits).length = 3 * bits.length := by
  induction bits with
  | nil => rfl
  | cons b rest ih => rw [show cells (b :: rest) = cells [b] ++ cells rest by simp [cells], List.length_append, ih]; simp [cells]; omega

@[simp] theorem pulseEvents_length (n : Nat) : (pulseEvents n).length = 2 * n := by
  simp [pulseEvents]; omega

@[simp] theorem pixelBits_length (p : Pixel) : (pixelBits p).length = 32 := rfl

theorem flatMap_pixelBits_length (ps : List Pixel) : (ps.flatMap pixelBits).length = 32 * ps.length := by
  induction ps with
  | nil => rfl
  | cons p rest ih => rw [List.flatMap_cons, List.length_append, ih, pixelBits_length, List.length_cons]; omega

/-- R107: `1 + 3*(32 + 32*N_PIX) + 1 + 2*36 + 1` events. -/
@[simp] theorem showEvents_length (ps : List Pixel) : (showEvents ps).length = 171 + 96 * ps.length := by
  simp only [showEvents, List.length_cons, List.length_append, cells_length, pulseEvents_length, List.length_replicate,
    flatMap_pixelBits_length, Config.startBits, Config.endPulses, List.length_nil]
  omega

/-- What SHOW does, for every environment. -/
theorem showSeq_spec (s : State) :
    showSeq s =
      ⟨afterPins ((showEvents s.pix).take (okCalls (171 + 96 * s.pix.length) s.io)) (171 + 96 * s.pix.length) s.dropLseq,
        decide (okCalls (171 + 96 * s.pix.length) s.io = 171 + 96 * s.pix.length)⟩ := by
  rw [showSeq_eq, pinWrites_spec, showEvents_length]
  rfl

end Sys2Proof.Machine
end

