-- ==== Sys2Proof/Laws/Codec.lean ====
section
/-! SUPPORT. The operand coding of Decode.lean: what each reader gives on what the writer wrote, and that nothing else is
read. -/

namespace Sys2Proof

@[simp] theorem andRead_ok {α β : Type} (a : α) (rest : List Byte) (k : α → List Byte → Read β) :
    andRead (.ok (a, rest)) k = k a rest := rfl

@[simp] theorem andRead_error {α β : Type} (e : DecodeError) (k : α → List Byte → Read β) :
    andRead (.error e) k = .error e := rfl

theorem andRead_eq_ok {α β : Type} {x : Read α} {k : α → List Byte → Read β} {r : β × List Byte} :
    andRead x k = .ok r ↔ ∃ a rest, x = .ok (a, rest) ∧ k a rest = .ok r := by
  rcases x with e | ⟨a, rest⟩
  · simp
  · constructor
    · exact fun h => ⟨a, rest, rfl, h⟩
    · rintro ⟨a', rest', h, hk⟩
      cases h
      exact hk

/-! ### Reading what was written -/

theorem getNat_putNatDigits (fuel n : Nat) (h : n < fuel) (rest : List Byte) :
    getNat (putNatDigits fuel n ++ rest) = .ok (n, rest) := by
  induction fuel generalizing n with
  | zero => omega
  | succ fuel ih =>
    by_cases hn : n < 128
    · have : (BitVec.ofNat 8 n).toNat = n := by simp; omega
      simp [putNatDigits, hn, getNat, this]
    · have h1 : (BitVec.ofNat 8 (n % 128 + 128)).toNat = n % 128 + 128 := by simp; omega
      have h2 : n / 128 ≠ 0 := by omega
      simp only [putNatDigits, hn, if_false, List.cons_append, getNat, h1, ih (n / 128) (by omega), h2]
      rw [if_neg (by omega), show n % 128 + 128 - 128 + 128 * (n / 128) = n by omega]

@[simp] theorem getNat_putNat (n : Nat) (rest : List Byte) : getNat (putNat n ++ rest) = .ok (n, rest) :=
  getNat_putNatDigits _ _ (Nat.lt_succ_self n) rest

@[simp] theorem getInt_putInt (z : Int) (rest : List Byte) : getInt (putInt z ++ rest) = .ok (z, rest) := by
  cases z with
  | ofNat n => simp [getInt, putInt]
  | negSucc n => simp [getInt, putInt]; omega

@[simp] theorem getFrac_putFrac (f : Frac) (rest : List Byte) : getFrac (putFrac f ++ rest) = .ok (f, rest) := by
  obtain ⟨num, den, hz, hr⟩ := f
  obtain ⟨d, rfl⟩ := Nat.exists_eq_succ_of_ne_zero hz
  have hr' : num.natAbs.Coprime (d + 1) := hr
  simp [getFrac, putFrac, dif_pos hr']

@[simp] theorem getBool_putBool (b : Bool) (rest : List Byte) : getBool (putBool b ++ rest) = .ok (b, rest) := by
  cases b <;> rfl

@[simp] theorem getRate_putRate (r : BlinkRate) (rest : List Byte) : getRate (putRate r ++ rest) = .ok (r, rest) := by
  cases r <;> rfl

/-- A character code is one of `CHARW` bits (00_scope.md R11). -/
theorem charOk_iff {c : CharCode} : charOk c = true ↔ c < 2 ^ Config.charW := by
  have h : 128 ≤ 2 ^ Config.charW := by
    rw [Config.charW, Nat.pow_add]
    exact Nat.le_mul_of_pos_right 128 (Nat.two_pow_pos _)
  simp only [charOk, Bool.or_eq_true, decide_eq_true_eq]
  exact ⟨fun hc => hc.elim (Nat.lt_of_lt_of_le · h) id, Or.inr⟩

/-- The first natural number that is no character code. -/
@[simp] theorem charOk_first_bad : charOk (2 ^ Config.charW) = false := by
  rw [← Bool.not_eq_true, charOk_iff]
  exact Nat.lt_irrefl _

theorem getChar_putNat {c : CharCode} (h : charOk c = true) (rest : List Byte) :
    getChar (putNat c ++ rest) = .ok (c, rest) := by
  simp [getChar, h]

theorem getChars_flatMap {t : Text} (h : textOk t = true) (rest : List Byte) :
    getChars t.length (t.flatMap putNat ++ rest) = .ok (t, rest) := by
  induction t with
  | nil => rfl
  | cons c t ih =>
    simp only [textOk, List.all_cons, Bool.and_eq_true] at h
    simp [getChars, getChar_putNat h.1, ih h.2]

theorem getText_putText {t : Text} (h : textOk t = true) (rest : List Byte) :
    getText (putText t ++ rest) = .ok (t, rest) := by
  simp [getText, putText, getChars_flatMap h]

/-! ### Nothing else is read -/

theorem putNatDigits_fuel {f g n : Nat} (hf : n < f) (hg : n < g) : putNatDigits f n = putNatDigits g n := by
  induction f generalizing g n with
  | zero => omega
  | succ f ih =>
    obtain ⟨g, rfl⟩ : ∃ g', g = g' + 1 := ⟨g - 1, by omega⟩
    by_cases hn : n < 128
    · simp [putNatDigits, hn]
    · simp only [putNatDigits, hn, if_false]
      rw [ih (by omega) (by omega : n / 128 < g)]

theorem getNat_eq_ok {bs rest : List Byte} {n : Nat} (h : getNat bs = .ok (n, rest)) : bs = putNat n ++ rest := by
  induction bs generalizing n with
  | nil => simp [getNat] at h
  | cons b bs ih =>
    by_cases hb : b.toNat < 128
    · simp only [getNat, hb, if_true, Except.ok.injEq, Prod.mk.injEq] at h
      obtain ⟨rfl, rfl⟩ := h
      simp [putNat, putNatDigits, hb]
    · simp only [getNat, hb, if_false] at h
      split at h
      · simp at h
      · rename_i q rest' heq
        split at h
        · simp at h
        · rename_i hq
          simp only [Except.ok.injEq, Prod.mk.injEq] at h
          obtain ⟨rfl, rfl⟩ := h
          have hlt := b.isLt
          have := ih heq
          rw [this]
          have h1 : ¬ b.toNat - 128 + 128 * q < 128 := by omega
          have h2 : (b.toNat - 128 + 128 * q) / 128 = q := by omega
          have h3 : (b.toNat - 128 + 128 * q) % 128 + 128 = b.toNat := by omega
          have h4 : putNat (b.toNat - 128 + 128 * q) = b :: putNat q := by
            rw [putNat, putNatDigits, if_neg h1, h2, h3, putNat]
            rw [putNatDigits_fuel (f := b.toNat - 128 + 128 * q) (g := q + 1) (by omega) (by omega)]
            simp
          rw [h4]; rfl

theorem getInt_eq_ok {bs rest : List Byte} {z : Int} (h : getInt bs = .ok (z, rest)) : bs = putInt z ++ rest := by
  rw [getInt, andRead_eq_ok] at h
  obtain ⟨n, r, hn, h⟩ := h
  simp only [Except.ok.injEq, Prod.mk.injEq] at h
  obtain ⟨h1, rfl⟩ := h
  rw [getNat_eq_ok hn]
  split at h1
  · subst h1; simp only [putInt]; congr 2; omega
  · subst h1; simp only [putInt]; congr 2; omega

theorem getFrac_eq_ok {bs rest : List Byte} {f : Frac} (h : getFrac bs = .ok (f, rest)) : bs = putFrac f ++ rest := by
  rw [getFrac, andRead_eq_ok] at h
  obtain ⟨num, r, hn, h⟩ := h
  rw [andRead_eq_ok] at h
  obtain ⟨d, r', hd, h⟩ := h
  split at h
  · simp only [Except.ok.injEq, Prod.mk.injEq] at h
    obtain ⟨rfl, rfl⟩ := h
    rw [getInt_eq_ok hn, getNat_eq_ok hd]
    simp [putFrac]
  · simp at h

theorem getByte_eq_ok {bs rest : List Byte} {b : Byte} (h : getByte bs = .ok (b, rest)) : bs = b :: rest := by
  cases bs <;> simp_all [getByte]

theorem getBool_eq_ok {bs rest : List Byte} {b : Bool} (h : getBool bs = .ok (b, rest)) : bs = putBool b ++ rest := by
  cases bs with
  | nil => simp [getBool] at h
  | cons x bs =>
    simp only [getBool] at h
    split at h
    · simp only [Except.ok.injEq, Prod.mk.injEq] at h; obtain ⟨rfl, rfl⟩ := h; simp_all [putBool]
    · split at h
      · simp only [Except.ok.injEq, Prod.mk.injEq] at h; obtain ⟨rfl, rfl⟩ := h; simp_all [putBool]
      · simp at h

theorem getRate_eq_ok {bs rest : List Byte} {r : BlinkRate} (h : getRate bs = .ok (r, rest)) : bs = putRate r ++ rest := by
  cases bs with
  | nil => simp [getRate] at h
  | cons x bs =>
    simp only [getRate] at h
    repeat' split at h
    all_goals simp_all [putRate]
    all_goals (obtain ⟨rfl, rfl⟩ := h; rfl)

theorem getChar_eq_ok {bs rest : List Byte} {c : CharCode} (h : getChar bs = .ok (c, rest)) :
    bs = putNat c ++ rest ∧ charOk c = true := by
  rw [getChar, andRead_eq_ok] at h
  obtain ⟨n, r, hn, h⟩ := h
  split at h
  · simp only [Except.ok.injEq, Prod.mk.injEq] at h
    obtain ⟨rfl, rfl⟩ := h
    exact ⟨getNat_eq_ok hn, ‹_›⟩
  · simp at h

theorem getChars_eq_ok {n : Nat} {bs rest : List Byte} {t : Text} (h : getChars n bs = .ok (t, rest)) :
    bs = t.flatMap putNat ++ rest ∧ t.length = n ∧ textOk t = true := by
  induction n generalizing bs t with
  | zero =>
    simp only [getChars, Except.ok.injEq, Prod.mk.injEq] at h
    obtain ⟨rfl, rfl⟩ := h
    simp [textOk]
  | succ n ih =>
    rw [getChars, andRead_eq_ok] at h
    obtain ⟨c, r, hc, h⟩ := h
    rw [andRead_eq_ok] at h
    obtain ⟨u, r', hu, h⟩ := h
    simp only [Except.ok.injEq, Prod.mk.injEq] at h
    obtain ⟨rfl, rfl⟩ := h
    obtain ⟨rfl, hok⟩ := getChar_eq_ok hc
    obtain ⟨rfl, hlen, hall⟩ := ih hu
    simp_all [textOk]

theorem getText_eq_ok {bs rest : List Byte} {t : Text} (h : getText bs = .ok (t, rest)) :
    bs = putText t ++ rest ∧ textOk t = true := by
  rw [getText, andRead_eq_ok] at h
  obtain ⟨n, r, hn, h⟩ := h
  obtain ⟨rfl, hlen, hall⟩ := getChars_eq_ok h
  rw [getNat_eq_ok hn]
  simp [putText, hlen, hall]

end Sys2Proof
end

