-- ==== Sys2Proof/Laws/Canonical.lean ====
section
/-! SUPPORT. Reading back: what the decoder accepts is what the encoder writes. -/

namespace Sys2Proof

/-- An operation number by its value. -/
theorem op_eq {n : Byte} {k : Nat} (h : n.toNat = k) : n = BitVec.ofNat 8 k := by rw [← h]; simp

/-- What an operation's reader accepts is what its encoder writes, with the rest untouched. -/
theorem decodeOp_canonical {n : Byte} {bs rest : List Byte} {i : Instr} (h : decodeOp n bs = .ok (i, rest)) :
    i.wellFormed = true ∧ ∃ ops, encode i = ⟨.op, n :: ops⟩ ∧ bs = ops ++ rest := by
  unfold decodeOp at h
  split at h
  all_goals (rename_i hn; try rw [op_eq hn])
  all_goals simp only [andRead_eq_ok, Except.ok.injEq, Prod.mk.injEq, reduceCtorEq] at h
  all_goals first
    | (obtain ⟨rfl, rfl⟩ := h; exact ⟨rfl, [], rfl, rfl⟩)
    | skip
  · obtain ⟨i, r1, h1, r, r2, h2, g, r3, h3, b, r4, h4, f, r5, h5, rfl, rfl⟩ := h
    refine ⟨rfl, _, rfl, ?_⟩
    rw [getInt_eq_ok h1, getByte_eq_ok h2, getByte_eq_ok h3, getByte_eq_ok h4, getFrac_eq_ok h5]; simp
  · obtain ⟨r, r2, h2, g, r3, h3, b, r4, h4, f, r5, h5, rfl, rfl⟩ := h
    refine ⟨rfl, _, rfl, ?_⟩
    rw [getByte_eq_ok h2, getByte_eq_ok h3, getByte_eq_ok h4, getFrac_eq_ok h5]; simp
  · obtain ⟨f, r5, h5, rfl, rfl⟩ := h
    exact ⟨rfl, _, rfl, getFrac_eq_ok h5⟩
  · obtain ⟨f, r5, h5, rfl, rfl⟩ := h
    exact ⟨rfl, _, rfl, getInt_eq_ok h5⟩
  · obtain ⟨f, r5, h5, rfl, rfl⟩ := h
    exact ⟨(getChar_eq_ok h5).2, _, rfl, (getChar_eq_ok h5).1⟩
  · obtain ⟨f, r5, h5, rfl, rfl⟩ := h
    exact ⟨rfl, _, rfl, getFrac_eq_ok h5⟩
  · obtain ⟨f, r5, h5, rfl, rfl⟩ := h
    exact ⟨rfl, _, rfl, getRate_eq_ok h5⟩
  · obtain ⟨p, r1, h1, c, r2, h2, d, r3, h3, rfl, rfl⟩ := h
    refine ⟨(getChar_eq_ok h2).2, _, rfl, ?_⟩
    rw [getInt_eq_ok h1, (getChar_eq_ok h2).1, getBool_eq_ok h3]; simp
  · obtain ⟨f, r5, h5, rfl, rfl⟩ := h
    exact ⟨rfl, _, rfl, getInt_eq_ok h5⟩
  · obtain ⟨p, r1, h1, c, r2, h2, rfl, rfl⟩ := h
    refine ⟨rfl, _, rfl, ?_⟩
    rw [getInt_eq_ok h1, getByte_eq_ok h2]; simp
  · obtain ⟨p, r1, h1, c, r2, h2, rfl, rfl⟩ := h
    refine ⟨(getText_eq_ok h1).2, _, rfl, ?_⟩
    rw [(getText_eq_ok h1).1, getBool_eq_ok h2]; simp
  · obtain ⟨p, r1, h1, c, r2, h2, rfl, rfl⟩ := h
    refine ⟨(getText_eq_ok h1).2, _, rfl, ?_⟩
    rw [(getText_eq_ok h1).1, getBool_eq_ok h2]; simp
  · obtain ⟨p, r1, h1, c, r2, h2, d, r3, h3, rfl, rfl⟩ := h
    refine ⟨rfl, _, rfl, ?_⟩
    rw [getFrac_eq_ok h1, getNat_eq_ok h2, getBool_eq_ok h3]; simp
  · obtain ⟨p, r1, h1, c, r2, h2, rfl, rfl⟩ := h
    refine ⟨rfl, _, rfl, ?_⟩
    rw [getInt_eq_ok h1, getBool_eq_ok h2]; simp
  · obtain ⟨p, r1, h1, c, r2, h2, d, r3, h3, rfl, rfl⟩ := h
    refine ⟨(getText_eq_ok h1).2, _, rfl, ?_⟩
    rw [(getText_eq_ok h1).1, getFrac_eq_ok h2, getBool_eq_ok h3]; simp

/-! ### One byte of the wire formats, there and back -/

theorem i2c1_blink : ∀ b : Byte, b ≠ 0x21#8 → b &&& 0xF9#8 = 0x81#8 →
    0x80#8 ||| 0x01#8 ||| (BlinkRate.ofField (b.extractLsb' 1 2)).code = b := by decide

theorem i2c1_bright : ∀ b : Byte, b &&& 0xF0#8 = 0xE0#8 → 0xE0#8 ||| (b.setWidth 4).setWidth 8 = b := by decide

theorem i2c2_pos : ∀ b : Byte, b &&& 0xF0#8 = 0x00#8 → (b.setWidth 4).setWidth 8 = b := by decide

theorem led_br : ∀ b : Byte, b &&& 0xE0#8 = 0xE0#8 → 0xE0#8 ||| (b.setWidth 5).setWidth 8 = b := by decide

end Sys2Proof
end

