-- ==== Sys2Proof/Laws/Exec.lean ====
section
/-! SUPPORT. The shared operations of the meanings: what a guard, a completion and each sequence can answer. -/

namespace Sys2Proof.Machine

/-! ### Guards and ends -/

theorem whenLseOpen_opened {s : State} (h : s.lst = .opened) (k : State → Answer) : whenLseOpen s k = k s := by
  simp [whenLseOpen, h]

theorem whenDcsFree_free {s : State} (h : s.dst = .opened) (h' : s.ste = .idle) (k : State → Answer) :
    whenDcsFree s k = k s := by
  simp [whenDcsFree, h, h']

theorem whenLseOpen_next {s t : State} {k : State → Answer} (h : whenLseOpen s k = .next t) :
    s.lst = .opened ∧ k s = .next t := by
  unfold whenLseOpen at h
  split at h
  · exact ⟨‹_›, h⟩
  · cases h

theorem whenDcsFree_next {s t : State} {k : State → Answer} (h : whenDcsFree s k = .next t) :
    s.dst = .opened ∧ s.ste = .idle ∧ k s = .next t := by
  unfold whenDcsFree at h
  split at h
  · split at h
    · exact ⟨‹_›, ‹_›, h⟩
    · cases h
  · cases h

theorem complete_next {op : Byte} {r : Result} {s t : State} : complete op r s = .next t ↔ t = s.reply (some op) .ok r := by
  simp [complete, eq_comm]

theorem raise_next {op : Byte} {st : Status} {s t : State} : raise op st s = .next t ↔ t = s.reply (some op) st .none := by
  simp [raise, eq_comm]

theorem finish_next {op : Option Byte} {r : Run} {t : State} : finish op r = .next t ↔ t = r.st.reply op r.status .none := by
  simp [finish, eq_comm]

/-! ### The bus sequences as lists of calls, while no flush is under way -/

theorem State.dseq_none {s : State} (h : s.dseq = none) : ({ s with dseq := none } : State) = s := by
  obtain ⟨pix, cs, dat, clk, lst, buf, dst, ste, lseq, dseq, con, pinTrace, i2cTrace, waitTrace, replies, inbox, io, tokens⟩ := s
  cases h
  rfl

theorem State.dropLseq_none {s : State} (h : s.lseq = none) : s.dropLseq = s := by
  obtain ⟨pix, cs, dat, clk, lst, buf, dst, ste, lseq, dseq, con, pinTrace, i2cTrace, waitTrace, replies, inbox, io, tokens⟩ := s
  cases h
  rfl

@[simp] theorem busCalls_dseq (es : List BusEvent) (s : State) : (busCalls es s).st.dseq = s.dseq := by
  rw [busCalls_spec]

@[simp] theorem busCalls_buf (es : List BusEvent) (s : State) : (busCalls es s).st.buf = s.buf := by
  rw [busCalls_spec]

theorem busCalls_cons (e : BusEvent) (es : List BusEvent) (s : State) :
    busCalls (e :: es) s = (busCalls [e] s).andThen (busCalls es) := busCalls_append [e] es s

theorem flushSeq_calls {s : State} (h : s.dseq = none) : flushSeq s = busCalls (flushEvents s.buf) s := by
  rw [flushSeq_eq, State.dseq_none h]

theorem clearSeq_calls {s : State} (h : s.dseq = none) :
    clearSeq s = busCalls (flushEvents Memory.zeroed) { s with buf := Memory.zeroed } :=
  flushSeq_calls (s := { s with buf := Memory.zeroed }) h

theorem slotsSeq_calls {s : State} (h : s.dseq = none) (slots : List Slot) (j : Bool) :
    slotsSeq slots j s = busCalls (flushEvents (render slots j)) { s with buf := render slots j } :=
  flushSeq_calls (s := { s with buf := render slots j }) h

/-- A command and then a flush, as one list of calls. -/
theorem blinkSeq_calls {s : State} (h : s.dseq = none) (rate : BlinkRate) :
    blinkSeq rate s = busCalls (.xfer Config.i2cAddr (blinkBytes rate) :: flushEvents s.buf) s := by
  rw [blinkSeq, i2cWrite_eq, busCalls_cons _ (flushEvents _)]
  refine Run.andThen_congr ?_
  rw [flushSeq_calls (by simpa using h)]
  simp

/-- The calls of DINIT (R130), in order. -/
def dinitCalls : List BusEvent :=
  .busOpen :: .xfer Config.i2cAddr oscOnBytes :: .xfer Config.i2cAddr (blinkBytes .off) ::
    ((if Config.initBlinkFlush then flushEvents Memory.zeroed else []) ++
      (.xfer Config.i2cAddr (brightBytes 15#4) :: flushEvents Memory.zeroed))

theorem dinitBody_calls {s : State} (h : s.dseq = none) :
    dinitBody s = (busCalls dinitCalls { s with buf := Memory.zeroed }).andThen fun t => ⟨{ t with dst := .opened }, true⟩ := by
  have blink : ∀ t : State, t.dseq = none → t.buf = Memory.zeroed →
      (if Config.initBlinkFlush then blinkSeq .off t else i2cWrite (blinkBytes .off) t) =
        busCalls (.xfer Config.i2cAddr (blinkBytes .off) ::
          (if Config.initBlinkFlush then flushEvents Memory.zeroed else [])) t := by
    intro t ht hb
    split
    · rw [blinkSeq_calls ht, hb]
    · rw [i2cWrite_eq]
  have keep : ∀ (es : List BusEvent) (t : State), (busCalls es t).st.dseq = t.dseq ∧ (busCalls es t).st.buf = t.buf :=
    fun es t => ⟨by simp, by simp⟩
  have clear : ∀ t : State, t.dseq = none → t.buf = Memory.zeroed →
      ((clearSeq t).andThen fun t => ⟨{ t with dst := .opened }, true⟩) =
        (busCalls (flushEvents Memory.zeroed) t).andThen fun t => ⟨{ t with dst := .opened }, true⟩ := by
    intro t ht hb
    rw [clearSeq_calls ht]
    congr 2
    obtain ⟨pix, cs, dat, clk, lst, buf, dst, ste, lseq, dseq, con, pinTrace, i2cTrace, waitTrace, replies, inbox, io, tokens⟩ := t
    cases hb; rfl
  unfold dinitBody dinitCalls
  generalize hs0 : ({ s with buf := Memory.zeroed } : State) = s0
  have hd : s0.dseq = none := by subst hs0; exact h
  have hb : s0.buf = Memory.zeroed := by subst hs0; rfl
  clear hs0 h
  rw [openBus_eq, busCalls_cons _ (_ :: _), Run.andThen_assoc]
  refine Run.andThen_congr ?_
  generalize ht : (busCalls [.busOpen] s0).st = t1
  have h1 : t1.dseq = none ∧ t1.buf = Memory.zeroed := by subst ht; simp [hd, hb]
  rw [oscOn, i2cWrite_eq, busCalls_cons _ (_ :: _), Run.andThen_assoc]
  refine Run.andThen_congr ?_
  generalize ht : (busCalls [.xfer Config.i2cAddr oscOnBytes] t1).st = t2
  have h2 : t2.dseq = none ∧ t2.buf = Memory.zeroed := by subst ht; simp [h1]
  rw [blink t2 h2.1 h2.2, ← List.cons_append, busCalls_append, Run.andThen_assoc]
  refine Run.andThen_congr ?_
  generalize ht : (busCalls (.xfer Config.i2cAddr (blinkBytes .off) ::
    (if Config.initBlinkFlush then flushEvents Memory.zeroed else [])) t2).st = t3
  have h3 : t3.dseq = none ∧ t3.buf = Memory.zeroed := by subst ht; simp [h2]
  rw [i2cWrite_eq, busCalls_cons _ (flushEvents _), Run.andThen_assoc]
  refine Run.andThen_congr ?_
  generalize ht : (busCalls [.xfer Config.i2cAddr (brightBytes 15#4)] t3).st = t4
  have h4 : t4.dseq = none ∧ t4.buf = Memory.zeroed := by subst ht; simp [h3]
  exact clear t4 h4.1 h4.2

/-- What DINIT does, for every environment. -/
theorem dinitSeq_spec {s : State} (h : s.dseq = none) :
    dinitSeq s =
      ⟨{ s with
          buf := Memory.zeroed, constructing := false,
          i2cTrace := s.i2cTrace ++ dinitCalls.take (okCalls dinitCalls.length s.io),
          io := answersLeft dinitCalls.length s.io,
          dst := if okCalls dinitCalls.length s.io = dinitCalls.length then .opened else s.dst },
        decide (okCalls dinitCalls.length s.io = dinitCalls.length)⟩ := by
  rw [dinitSeq, dinitBody_calls (s := { s with constructing := true }) h, busCalls_spec]
  by_cases hk : okCalls dinitCalls.length s.io = dinitCalls.length <;> simp [hk]

end Sys2Proof.Machine
end

