-- ==== Sys2Proof/Laws/Render.lean ====
section
/-! SUPPORT. What rendering leaves in the buffer (42_display.md R140 to R143), and the parsing of numbers. -/

namespace Sys2Proof.Machine

/-! ### Placing characters -/

theorem read_putChar {p : Nat} (h : p < 4) (c : CharCode) (dp : Bool) (m : Memory) (a : Nat) :
    Memory.read (putChar p c dp m) a =
      if a = 2 * p then (charMask c dp).setWidth 8
      else if a = 2 * p + 1 then (charMask c dp).extractLsb' 8 8 else Memory.read m a := by
  have hr : outOfRange (p : Int) Config.nDigits = false := by
    rw [outOfRange_eq_false]; simp only [Config.nDigits]; omega
  simp [putChar, hr, Memory.read_write2]

theorem read2_putChar {p : Nat} (h : p < 4) (c : CharCode) (dp : Bool) (m : Memory) (q : Nat) :
    Memory.read2 (putChar p c dp m) (2 * q) = if q = p then charMask c dp else Memory.read2 m (2 * q) := by
  by_cases hq : q = p
  · subst hq
    have hr : outOfRange (q : Int) Config.nDigits = false := by
      rw [outOfRange_eq_false]; simp only [Config.nDigits]; omega
    simp [putChar, hr, Memory.read2_write2]
  · simp only [Memory.read2, read_putChar h, hq, if_false]
    rw [if_neg (by omega), if_neg (by omega), if_neg (by omega), if_neg (by omega)]

theorem read2_place (slots : List Slot) (p : Nat) (h : p + slots.length ≤ 4) (m : Memory) (q : Nat) :
    Memory.read2 (place p slots m) (2 * q) =
      if hq : p ≤ q ∧ q < p + slots.length then charMask (slots[q - p]'(by omega)).ch (slots[q - p]'(by omega)).dp
      else Memory.read2 m (2 * q) := by
  induction slots generalizing p m with
  | nil => rw [dif_neg (by simp only [List.length_nil]; omega)]; rfl
  | cons x rest ih =>
    simp only [List.length_cons] at h
    rw [place, ih (p + 1) (by omega), read2_putChar (by omega)]
    by_cases h1 : q = p
    · subst h1
      rw [dif_neg (by omega), dif_pos ⟨Nat.le_refl _, by simp only [List.length_cons]; omega⟩]
      simp
    · by_cases h2 : p + 1 ≤ q ∧ q < p + 1 + rest.length
      · have h3 : p ≤ q ∧ q < p + (rest.length + 1) := by omega
        have h4 : q - p = (q - (p + 1)) + 1 := by omega
        simp only [h2, h3, and_self, dif_pos, List.length_cons, h4, List.getElem_cons_succ]
      · have h3 : ¬ (p ≤ q ∧ q < p + (rest.length + 1)) := by omega
        rw [dif_neg h2, if_neg h1, dif_neg (by simpa only [List.length_cons] using h3)]

theorem read_place_high (slots : List Slot) (p : Nat) (h : p + slots.length ≤ 4) (m : Memory) {a : Nat} (ha : 8 ≤ a) :
    Memory.read (place p slots m) a = Memory.read m a := by
  induction slots generalizing p m with
  | nil => rfl
  | cons x rest ih =>
    simp only [List.length_cons] at h
    rw [place, ih (p + 1) (by omega), read_putChar (by omega), if_neg (by omega), if_neg (by omega)]

theorem startPos_add_le {n : Nat} (h : n ≤ 4) (j : Bool) : startPos n j + n ≤ 4 := by
  cases j <;> simp [startPos, Config.nDigits] <;> omega

theorem textSlots_length (t : Text) : (textSlots t).length ≤ 4 := by
  simp only [textSlots, Config.nDigits, List.length_map, List.length_take]; omega

theorem numberSlots_length (slots : List Slot) : (numberSlots slots).length ≤ 4 := by
  unfold numberSlots
  split
  · exact textSlots_length _
  · simp only [Config.nDigits] at *; omega

@[simp] theorem Memory.read2_zeroed (p : Nat) : Memory.read2 Memory.zeroed p = 0#16 := by
  simp [Memory.read2]

/-! ### Parsing -/

theorem parseSlotsFrom_dots (n : Nat) (x : Slot) (acc : List Slot) (rest : Text) :
    parseSlotsFrom (x :: acc) (List.replicate n dotChar ++ rest) =
      parseSlotsFrom ((if n = 0 then x else ⟨x.ch, true⟩) :: acc) rest := by
  induction n generalizing x with
  | zero => simp
  | succ n ih =>
    simp only [List.replicate_succ, List.cons_append, parseSlotsFrom, if_true]
    rw [ih]
    simp

/-- Every text with no leading dot is characters that are no dots, each followed by some dots; each such group is one
slot (R142). -/
theorem parseSlotsFrom_groups (gs : List (CharCode × Nat)) (h : ∀ g ∈ gs, g.1 ≠ dotChar) (acc : List Slot) :
    parseSlotsFrom acc (gs.flatMap fun g => g.1 :: List.replicate g.2 dotChar) =
      some (acc.reverse ++ gs.map fun g => ⟨g.1, decide (g.2 ≠ 0)⟩) := by
  induction gs generalizing acc with
  | nil => simp [parseSlotsFrom]
  | cons g gs ih =>
    obtain ⟨c, n⟩ := g
    have hc : c ≠ dotChar := h (c, n) (by simp)
    have ih := ih (fun g hg => h g (by simp [hg]))
    simp only [List.flatMap_cons, List.cons_append, parseSlotsFrom, hc, if_false]
    rw [parseSlotsFrom_dots, ih]
    by_cases hn : n = 0 <;> simp [hn]

theorem parseSlots_groups (gs : List (CharCode × Nat)) (h : ∀ g ∈ gs, g.1 ≠ dotChar) :
    parseSlots (gs.flatMap fun g => g.1 :: List.replicate g.2 dotChar) =
      some (gs.map fun g => ⟨g.1, decide (g.2 ≠ 0)⟩) := by
  simp [parseSlots, parseSlotsFrom_groups gs h]

@[simp] theorem parseSlots_leadingDot (rest : Text) : parseSlots (dotChar :: rest) = none := by
  simp [parseSlots, parseSlotsFrom]

/-! ### Masks -/

theorem segRom_bit15 (k : Nat) : (segRom k).getLsbD 15 = false := by
  unfold segRom
  split <;> simp

theorem encodeMask_bit15 (c : CharCode) : (encodeMask c).getLsbD 15 = false := by
  unfold encodeMask
  split <;> exact segRom_bit15 _

theorem charMask_bit15 (c : CharCode) (dp : Bool) : (charMask c dp).getLsbD 15 = false := by
  have hdp : dpMask.getLsbD 15 = false := by decide
  unfold charMask
  split
  · rw [BitVec.getLsbD_or, encodeMask_bit15, hdp]; rfl
  · exact encodeMask_bit15 c

end Sys2Proof.Machine
end

