-- ==== Sys2Proof/Laws/Display.lean ====
section
/-! SUPPORT. What DCS sends is legal, and what it renders leaves the unused bits clear. -/

namespace Sys2Proof.Machine

/-- Everything a flush sends is legal (30_encoding.md R86). -/
theorem legal_flush (m : Memory) : ∀ e ∈ flushEvents m, BusEvent.legal e = true := by
  intro e he
  simp only [flushEvents, List.mem_map, List.mem_range, Config.bufLen] at he
  obtain ⟨p, hp, rfl⟩ := he
  have : ∀ q : BitVec 4, q.setWidth 8 ≤ 0x0F#8 := by decide
  simp [flushEvent, BusEvent.legal, Config.i2cAddr, dataBytes, this]

theorem legal_blink (r) : BusEvent.legal (.xfer Config.i2cAddr (blinkBytes r)) = true := by cases r <;> decide

theorem legal_bright : ∀ l, BusEvent.legal (.xfer Config.i2cAddr (brightBytes l)) = true := by decide

theorem legal_data : ∀ (p : BitVec 4) (v : Byte), BusEvent.legal (.xfer Config.i2cAddr (dataBytes p v)) = true := by
  intro p v
  have : ∀ q : BitVec 4, q.setWidth 8 ≤ 0x0F#8 := by decide
  simp [BusEvent.legal, Config.i2cAddr, dataBytes, this]

/-! ### The unused bits of the buffer (42_display.md R139) -/

/-- Bit 7 of every odd byte is clear: no mask has bit 15 set. -/
def Clean (m : Memory) : Prop := ∀ p < 8, (Memory.read m (2 * p + 1)).getLsbD 7 = false

/-- Bytes 8 and up are zero. -/
def High (m : Memory) : Prop := ∀ a, 8 ≤ a → Memory.read m a = 0x00#8

theorem clean_zero : Clean Memory.zeroed := by intro p _; simp

theorem high_zero : High Memory.zeroed := fun _ _ => rfl

theorem clean_putChar (p c dp) (m : Memory) (h : Clean m) : Clean (putChar p c dp m) := by
  intro k hk
  unfold putChar
  split
  · exact h k hk
  · rw [Memory.read_write2]
    have := charMask_bit15 c dp
    split
    · omega
    · split
      · rw [BitVec.getLsbD_extractLsb']; simpa using this
      · exact h k hk

theorem high_putChar (p c dp) (m : Memory) (h : High m) : High (putChar p c dp m) := by
  intro k hk
  unfold putChar
  split
  · exact h k hk
  · rename_i hr
    rw [Bool.not_eq_true, outOfRange_eq_false] at hr
    simp only [Config.nDigits] at hr
    rw [Memory.read_write2, if_neg (by omega), if_neg (by omega)]
    exact h k hk

theorem clean_place (sl) : ∀ p (m : Memory), Clean m → Clean (place p sl m) := by
  induction sl with
  | nil => intro p m h; exact h
  | cons x r ih => intro p m h; exact ih _ _ (clean_putChar _ _ _ _ h)

theorem high_place (sl) : ∀ p (m : Memory), High m → High (place p sl m) := by
  induction sl with
  | nil => intro p m h; exact h
  | cons x r ih => intro p m h; exact ih _ _ (high_putChar _ _ _ _ h)

/-- A padded text has at least one window (43_scroll.md R172). -/
theorem padText_length (x l) : 4 ≤ (padText x l).length := by
  simp [padText, padBase]; omega

end Sys2Proof.Machine
end

