-- ==== Sys2Proof/Laws/Equivariance.lean ====
section
/-! SUPPORT. Sequences that do not see a part of the state: a change of the histories (10_state.md R34), of the pixels for
DCS and STE (R20), of the buffer for LSE (R24) commutes with them. -/

namespace Sys2Proof.Machine

/-- A change `φ` of the state that no collaborator call and no reply sees. -/
structure Respects (φ : State → State) : Prop where
  io : ∀ s, (φ s).io = s.io
  inbox : ∀ s, (φ s).inbox = s.inbox
  replies : ∀ s, (φ s).replies = s.replies
  setIo : ∀ s x, φ { s with io := x } = { φ s with io := x }
  setInbox : ∀ s x, φ { s with inbox := x } = { φ s with inbox := x }
  setReplies : ∀ s x, φ { s with replies := x } = { φ s with replies := x }

/-- ... nor anything DCS and STE do. -/
structure RespectsDisplay (φ : State → State) : Prop extends Respects φ where
  dseq : ∀ s, (φ s).dseq = s.dseq
  buf : ∀ s, (φ s).buf = s.buf
  dst : ∀ s, (φ s).dst = s.dst
  ste : ∀ s, (φ s).ste = s.ste
  tokens : ∀ s, (φ s).tokens = s.tokens
  constructing : ∀ s, (φ s).constructing = s.constructing
  setDseq : ∀ s x, φ { s with dseq := x } = { φ s with dseq := x }
  setBuf : ∀ s x, φ { s with buf := x } = { φ s with buf := x }
  setDst : ∀ s x, φ { s with dst := x } = { φ s with dst := x }
  setSte : ∀ s x, φ { s with ste := x } = { φ s with ste := x }
  setTokens : ∀ s x, φ { s with tokens := x } = { φ s with tokens := x }
  setConstructing : ∀ s x, φ { s with constructing := x } = { φ s with constructing := x }
  logBus : ∀ s e, φ (s.logBus e) = (φ s).logBus e
  logWait : ∀ s e, φ (s.logWait e) = (φ s).logWait e

/-- ... nor anything LSE does. -/
structure RespectsStrip (φ : State → State) : Prop extends Respects φ where
  lseq : ∀ s, (φ s).lseq = s.lseq
  pix : ∀ s, (φ s).pix = s.pix
  lst : ∀ s, (φ s).lst = s.lst
  setLseq : ∀ s x, φ { s with lseq := x } = { φ s with lseq := x }
  setPix : ∀ s x, φ { s with pix := x } = { φ s with pix := x }
  setLst : ∀ s x, φ { s with lst := x } = { φ s with lst := x }
  setCs : ∀ s x, φ { s with cs := x } = { φ s with cs := x }
  setDat : ∀ s x, φ { s with dat := x } = { φ s with dat := x }
  setClk : ∀ s x, φ { s with clk := x } = { φ s with clk := x }
  logPin : ∀ s e, φ (s.logPin e) = (φ s).logPin e

/-- The change, made after a run. -/
def Run.map (φ : State → State) (r : Run) : Run := ⟨φ r.st, r.ok⟩

/-- Making the change before a sequence or after it is the same. -/
def Commutes (φ : State → State) (f : State → Run) : Prop := ∀ s, f (φ s) = Run.map φ (f s)

variable {φ : State → State}

theorem commutes_collab (c : Respects φ) {e : State → State} (he : ∀ s, e (φ s) = φ (e s)) : Commutes φ (collaborator e) := by
  intro s
  unfold collaborator
  rw [c.io]
  split
  · simp [Run.map, he]
  · exact congrArg (Run.mk · true) ((congrArg e (c.setIo _ _).symm).trans (he _))
  · exact congrArg (Run.mk · false) (c.setIo _ _).symm

theorem commutes_andThen {f g} (hf : Commutes φ f) (hg : Commutes φ g) : Commutes φ fun s => (f s).andThen g := by
  intro s
  have h := hf s
  rcases hr : f s with ⟨t, _ | _⟩
  · simp [h, hr, Run.map]
  · simp [h, hr, Run.map, hg t]

theorem commutes_always {f k} (hf : Commutes φ f) (hk : ∀ s, k (φ s) = φ (k s)) : Commutes φ fun s => (f s).always k := by
  intro s
  simp [hf s, Run.map, Run.always, hk]

theorem commutes_pure {k : State → State} (hk : ∀ s, k (φ s) = φ (k s)) : Commutes φ fun s => ⟨k s, true⟩ := by
  intro s; simp [Run.map, hk]

theorem commutes_pre {f} {k : State → State} (hf : Commutes φ f) (hk : ∀ s, k (φ s) = φ (k s)) : Commutes φ fun s => f (k s) := by
  intro s; simp only [hk]; exact hf _

section Display
variable (c : RespectsDisplay φ)
include c

theorem commutes_i2c (b) : Commutes φ (i2cWrite b) := commutes_collab c.toRespects fun _ => (c.logBus _ _).symm

theorem commutes_openBus : Commutes φ openBus := commutes_collab c.toRespects fun _ => (c.logBus _ _).symm

theorem commutes_closeBus : Commutes φ closeBus := commutes_collab c.toRespects fun _ => (c.logBus _ _).symm

theorem commutes_flushOne : Commutes φ flushOne := by
  intro s
  unfold flushOne
  rw [c.dseq, c.buf]
  exact commutes_andThen (commutes_i2c c _) (commutes_pure fun _ => (c.setDseq _ _).symm) s

theorem commutes_flushLoop (n) : Commutes φ (flushLoop n) := by
  induction n with
  | zero => exact commutes_pure fun _ => rfl
  | succ n ih => exact commutes_andThen (commutes_flushOne c) ih

theorem commutes_flushSeq : Commutes φ flushSeq := by
  refine commutes_always (commutes_pre (commutes_flushLoop c _) ?_) ?_ <;> intro s <;> exact (c.setDseq _ _).symm

theorem commutes_clear : Commutes φ clearSeq := commutes_pre (f := flushSeq) (k := fun s => { s with buf := Memory.zeroed }) (commutes_flushSeq c) fun _ => (c.setBuf _ _).symm

theorem commutes_blink (r) : Commutes φ (blinkSeq r) := commutes_andThen (commutes_i2c c _) (commutes_flushSeq c)

theorem commutes_slots (x j) : Commutes φ (slotsSeq x j) := commutes_pre (f := flushSeq) (k := fun s => { s with buf := render x j }) (commutes_flushSeq c) fun _ => (c.setBuf _ _).symm

theorem commutes_text (t j) : Commutes φ (textSeq t j) := by
  cases t
  · exact commutes_clear c
  · exact commutes_slots c _ _

theorem commutes_dinitBody : Commutes φ dinitBody := by
  refine commutes_andThen (commutes_pre (commutes_openBus c) fun _ => (c.setBuf _ _).symm)
    (commutes_andThen (f := oscOn) (commutes_i2c c _) ?_)
  refine commutes_andThen (f := fun s => if Config.initBlinkFlush then blinkSeq .off s else i2cWrite (blinkBytes .off) s) ?_ ?_
  · intro s
    by_cases h : Config.initBlinkFlush = true
    · simpa only [h, if_true] using commutes_blink c _ s
    · simpa [h] using commutes_i2c c (blinkBytes .off) s
  · exact commutes_andThen (commutes_i2c c _) (commutes_andThen (commutes_clear c) (commutes_pure fun _ => (c.setDst _ _).symm))

theorem commutes_dinit : Commutes φ dinitSeq :=
  commutes_always (commutes_pre (commutes_dinitBody c) fun _ => (c.setConstructing _ _).symm)
    fun _ => (c.setConstructing _ _).symm

theorem commutes_dteardown : Commutes φ dteardownSeq := by
  intro s
  simp only [dteardownSeq, commutes_clear c s, Run.map, commutes_closeBus c _]
  exact congrArg (Run.mk · _) (c.setDst _ _).symm
end Display

section Strip
variable (c : RespectsStrip φ)
include c

theorem latch_com (p l) (s : State) : φ (s.setLatch p l) = (φ s).setLatch p l := by
  cases p
  · exact c.setCs _ _
  · exact c.setDat _ _
  · exact c.setClk _ _

theorem commutes_pinWrite (p l) : Commutes φ (pinWrite p l) := commutes_collab c.toRespects fun s => by rw [c.logPin, latch_com c]

theorem commutes_threePins (e) : Commutes φ (forThreePins e) :=
  commutes_andThen (commutes_collab c.toRespects fun _ => rfl)
    (commutes_andThen (commutes_collab c.toRespects fun _ => rfl)
      (commutes_collab c.toRespects fun _ => (c.logPin _ _).symm))

theorem commutes_openPins : Commutes φ openPins := commutes_threePins c _

theorem commutes_closePins : Commutes φ closePins := commutes_threePins c _

theorem bump_com (s : State) : (φ s).bumpLseq = φ s.bumpLseq := by
  have h := (c.setLseq s (s.lseq.map (· + 1))).symm
  unfold State.bumpLseq; rw [c.lseq]; exact h

theorem commutes_sendBit (b) : Commutes φ (sendBit b) :=
  commutes_andThen (commutes_pinWrite c _ _) (commutes_andThen (commutes_pinWrite c _ _) (commutes_andThen (commutes_pinWrite c _ _) (commutes_pure (bump_com c))))

theorem commutes_sendBits (bs) : Commutes φ (sendBits bs) := by
  induction bs with
  | nil => exact commutes_pure fun _ => rfl
  | cons b r ih => exact commutes_andThen (commutes_sendBit c b) ih

theorem commutes_frames (ps) : Commutes φ (pixelFrames ps) := by
  induction ps with
  | nil => exact commutes_pure fun _ => rfl
  | cons b r ih => exact commutes_andThen (commutes_sendBits c _) ih

theorem commutes_pulses (n) : Commutes φ (pulses n) := by
  induction n with
  | zero => exact commutes_pure fun _ => rfl
  | succ n ih => exact commutes_andThen (commutes_andThen (commutes_pinWrite c _ _) (commutes_andThen (commutes_pinWrite c _ _) (commutes_pure (bump_com c)))) ih

theorem commutes_end : Commutes φ endFrame := commutes_andThen (commutes_pinWrite c _ _) (commutes_pulses c _)

theorem commutes_show : Commutes φ showSeq := by
  refine commutes_always (k := fun s => { s with lseq := none }) ?_ ?_
  · refine commutes_andThen (f := fun s => pinWrite .cs Config.csActive { s with lseq := some 0 }) (commutes_pre (commutes_pinWrite c _ _) fun _ => (c.setLseq _ _).symm) ?_
    refine commutes_andThen (commutes_sendBits c _) ?_
    refine commutes_andThen (f := fun s => pixelFrames s.pix s) ?_ (commutes_andThen (commutes_end c) (commutes_pinWrite c _ _))
    intro s
    show pixelFrames (φ s).pix (φ s) = _
    rw [c.pix]; exact commutes_frames c _ s
  · intro s; exact (c.setLseq _ _).symm

theorem black_com (s : State) : blackened (φ s) = φ (blackened s) := by
  unfold blackened; rw [c.pix]; exact (c.setPix _ _).symm

theorem commutes_linit : Commutes φ linitSeq := by
  refine commutes_andThen (f := fun s => openPins { s with pix := s.pix.map (fun _ => Pixel.zero) }) (commutes_pre (commutes_openPins c) ?_) ?_
  · intro s; rw [c.pix]; exact (c.setPix _ _).symm
  · refine commutes_pure fun s => ?_
    have := c.setLst ({ s with cs := !Config.csActive, dat := false, clk := false }) .opened
    have h2 := c.setClk ({ s with cs := !Config.csActive, dat := false }) false
    have h3 := c.setDat ({ s with cs := !Config.csActive }) false
    have h4 := c.setCs s (!Config.csActive)
    rw [h4] at h3; rw [h3] at h2; rw [h2] at this
    exact this.symm
end Strip

/-- The change, made after an answer. -/
def mapAnswer (φ : State → State) : Answer → Answer
  | .next t => .next (φ t)
  | .fault f => .fault f
  | .refused r => .refused r

/-- The same for a meaning. -/
def CommutesAnswer (φ : State → State) (f : State → Answer) : Prop := ∀ s, f (φ s) = mapAnswer φ (f s)

theorem reply_com (c : Respects φ) (s op st r) : (φ s).reply op st r = φ (s.reply op st r) := by
  unfold State.reply; rw [c.replies]; exact (c.setReplies _ _).symm

theorem answer_finish (c : Respects φ) {f} (hf : Commutes φ f) (op) : CommutesAnswer φ fun s => finish op (f s) := by
  intro s
  have h := reply_com c (f s).st op (f s).status .none
  simp only [finish, hf s, Run.map, mapAnswer, Run.status]
  exact congrArg Host.Outcome.next h

theorem answer_reply (c : Respects φ) {k : State → State} (hk : ∀ s, k (φ s) = φ (k s)) (op st r) : CommutesAnswer φ fun s => .next ((k s).reply op st r) := by
  intro s
  simp only [mapAnswer, hk]
  exact congrArg Host.Outcome.next (reply_com c _ _ _ _)

theorem answer_lse (c : RespectsStrip φ) {k} (hk : CommutesAnswer φ k) : CommutesAnswer φ fun s => whenLseOpen s k := by
  intro s
  simp only [whenLseOpen, c.lst]
  cases s.lst
  · rfl
  · exact hk s
  · rfl

theorem answer_dcs (c : RespectsDisplay φ) {k} (hk : CommutesAnswer φ k) : CommutesAnswer φ fun s => whenDcsFree s k := by
  intro s
  simp only [whenDcsFree, c.dst, c.ste]
  cases s.dst
  · rfl
  · cases s.ste
    · exact hk s
    · rfl
    · rfl
  · rfl

end Sys2Proof.Machine
end

