-- ==== Sys2Proof/Laws/Fractions.lean ====
section
/-! SUPPORT. The fraction conversions are the exact products of 00_scope.md R9 and 30_encoding.md R87. -/

namespace Sys2Proof.Machine

/-- `mulFloor` is the floor of the exact product. -/
theorem mulFloor_eq (k : Nat) (f : Frac) : mulFloor k f = ((k : Frac) * f).floor := by
  have h : (k : Frac) * f = ((k * f.num : ℤ) : Frac) / ((f.den : ℤ) : Frac) := by
    push_cast
    rw [mul_div_assoc, Rat.num_div_den]
  rw [mulFloor, h]
  exact (Rat.floor_intCast_div_natCast _ _).symm

/-- The delay is the exact product. -/
theorem delay_eq (speed : Frac) : delay speed = speed * 1000 := by
  rw [delay, Rat.mkRat_eq_div]
  push_cast
  rw [mul_comm, mul_div_assoc, Rat.num_div_den, mul_comm]

theorem fracOutOfRange_eq_false {f : Frac} : fracOutOfRange f = false ↔ 0 ≤ f ∧ f ≤ 1 := by
  simp [fracOutOfRange]

theorem fracOutOfRange_eq_true {f : Frac} : fracOutOfRange f = true ↔ f < 0 ∨ 1 < f := by
  simp [fracOutOfRange]

theorem speedOutOfRange_eq_false {f : Frac} : speedOutOfRange f = false ↔ 0 < f := by
  simp [speedOutOfRange]

/-- On the valid domain the product is inside the field, so nothing is truncated (90_conflicts.md C3). -/
theorem mulFloor_bounds (k : Nat) {f : Frac} (h0 : 0 ≤ f) (h1 : f ≤ 1) : 0 ≤ mulFloor k f ∧ mulFloor k f ≤ k := by
  rw [mulFloor_eq]
  have hk : (0 : Frac) ≤ k := Nat.cast_nonneg k
  constructor
  · exact Rat.le_floor_iff.2 (by simpa using mul_nonneg hk h0)
  · have h : (((k : Frac) * f).floor : Frac) ≤ k := (Rat.floor_le _).trans (mul_le_of_le_one_right hk h1)
    exact_mod_cast h

end Sys2Proof.Machine
end

