-- ==== Sys2Proof/Laws/PerInstr.lean ====
section
/-! SUPPORT. Statements about every instruction as syntax, one lemma per constructor. Family RoundTrip: the packet of a
well-formed instruction decodes to it. -/

namespace Sys2Proof.Laws.RoundTrip

/-- Decoding the encoding of a well-formed instruction gives it back. -/
def Statement (i : Instr) : Prop := i.wellFormed = true → decode (encode i) = .ok i

/-- A record whose operands are read back whole. -/
theorem of_record {number : Byte} {operands : List Byte} {i : Instr} (h : decodeOp number operands = .ok (i, [])) :
    decode ⟨.op, number :: operands⟩ = .ok i := by
  simp [decode, decodeRecord, h]

/-- Reading a last operand, with nothing after it. -/
theorem last {α : Type} {get : List Byte → Read α} {put : List Byte} {a : α}
    (h : ∀ rest, get (put ++ rest) = .ok (a, rest)) : get put = .ok (a, []) := by
  simpa using h []

theorem linit : Statement .linit := fun _ => rfl

theorem setpixel (index : Int) (r g b : Byte) (f : Frac) : Statement (.setpixel index r g b f) := fun _ =>
  of_record (by simp [decodeOp, getByte, last (getFrac_putFrac f)])

theorem setall (r g b : Byte) (f : Frac) : Statement (.setall r g b f) := fun _ =>
  of_record (by simp [decodeOp, getByte, last (getFrac_putFrac f)])

theorem lsetbright (f : Frac) : Statement (.lsetbright f) := fun _ =>
  of_record (by simp [decodeOp, last (getFrac_putFrac f)])

theorem lclear : Statement .lclear := fun _ => rfl

theorem getpixel (index : Int) : Statement (.getpixel index) := fun _ =>
  of_record (by simp [decodeOp, last (getInt_putInt index)])

theorem lshow : Statement .lshow := fun _ => rfl

theorem lteardown : Statement .lteardown := fun _ => rfl

theorem encodeChar (c : CharCode) : Statement (.encodeChar c) := fun h =>
  of_record (by simp [decodeOp, last (getChar_putNat h)])

theorem dinit : Statement .dinit := fun _ => rfl

theorem dsetbright (f : Frac) : Statement (.dsetbright f) := fun _ =>
  of_record (by simp [decodeOp, last (getFrac_putFrac f)])

theorem dsetblink (rate : BlinkRate) : Statement (.dsetblink rate) := fun _ => by cases rate <;> rfl

theorem dclear : Statement .dclear := fun _ => rfl

theorem flush : Statement .flush := fun _ => rfl

theorem setchar (p : Int) (c : CharCode) (d : Bool) : Statement (.setchar p c d) := fun h =>
  of_record (by simp [decodeOp, getChar_putNat h, last (getBool_putBool d)])

theorem bufrd (p : Int) : Statement (.bufrd p) := fun _ => of_record (by simp [decodeOp, last (getInt_putInt p)])

theorem bufwr (p : Int) (v : Byte) : Statement (.bufwr p v) := fun _ => of_record (by simp [decodeOp, getByte])

theorem disptext (t : Text) (j : Bool) : Statement (.disptext t j) := fun h =>
  of_record (by simp [decodeOp, getText_putText h, last (getBool_putBool j)])

theorem dispnum (t : Text) (j : Bool) : Statement (.dispnum t j) := fun h =>
  of_record (by simp [decodeOp, getText_putText h, last (getBool_putBool j)])

theorem dispfloat (v : Frac) (n : Nat) (j : Bool) : Statement (.dispfloat v n j) := fun _ =>
  of_record (by simp [decodeOp, last (getBool_putBool j)])

theorem disphex (v : Int) (j : Bool) : Statement (.disphex v j) := fun _ =>
  of_record (by simp [decodeOp, last (getBool_putBool j)])

theorem dteardown : Statement .dteardown := fun _ => rfl

theorem scroll (t : Text) (f : Frac) (l : Bool) : Statement (.scroll t f l) := fun h =>
  of_record (by simp [decodeOp, getText_putText h, last (getBool_putBool l)])

theorem cancel : Statement .cancel := fun _ => rfl

theorem i2cOscOn : Statement .i2cOscOn := fun _ => rfl

theorem i2cBlink (rate : BlinkRate) : Statement (.i2cBlink rate) := fun _ => by cases rate <;> rfl

theorem i2cBright (level : BitVec 4) : Statement (.i2cBright level) := fun _ => by
  simp only [decode, encode, brightBytes, decodeI2c1]
  rw [if_neg (by revert level; decide), if_neg (by revert level; decide), if_pos (by revert level; decide)]
  congr 2
  revert level; decide

theorem position_high : ∀ p : BitVec 4, p.setWidth 8 &&& 0xF0#8 = 0x00#8 := by decide

theorem position_back : ∀ p : BitVec 4, (p.setWidth 8).setWidth 4 = p := by decide

theorem brightness_high : ∀ br : BitVec 5, (0xE0#8 ||| br.setWidth 8) &&& 0xE0#8 = 0xE0#8 := by decide

theorem brightness_back : ∀ br : BitVec 5, (0xE0#8 ||| br.setWidth 8).setWidth 5 = br := by decide

theorem i2cData (p : BitVec 4) (v : Byte) : Statement (.i2cData p v) := fun _ => by
  simp only [decode, encode, dataBytes, decodeI2c2]
  rw [if_pos (position_high p), position_back]

theorem ledStart : Statement .ledStart := fun _ => rfl

theorem ledPixel (br : BitVec 5) (b g r : Byte) : Statement (.ledPixel br b g r) := fun _ => by
  simp only [decode, encode, pixelBytes, decodeLedFrame]
  rw [if_pos (brightness_high br), brightness_back]

theorem ledEnd : Statement .ledEnd := fun _ => rfl

theorem ledBitcell (bit : Bool) : Statement (.ledBitcell bit) := fun _ => by cases bit <;> rfl

theorem segMask (m : Mask) : Statement (.segMask m) := fun h => by
  have hm : m.extractLsb' 8 8 ++ m.setWidth 8 = m := by
    ext i hi
    simp only [BitVec.getElem_append, BitVec.getElem_setWidth, BitVec.getElem_extractLsb']
    split
    · rw [BitVec.getLsbD_eq_getElem hi]
    · rw [show 8 + (i - 8) = i by omega, BitVec.getLsbD_eq_getElem hi]
  simp only [Instr.wellFormed] at h
  simp [decode, encode, decodeMask, hm, h]

end Sys2Proof.Laws.RoundTrip
end

