-- ==== Sys2Proof/Laws/Strip.lean ====
section
/-! SUPPORT. What the sequences of LSE leave unchanged. -/

namespace Sys2Proof.Machine

/-! ### `lseq` stays dead in a sequence outside SHOW -/

theorem pinWrite_lseq (p l) (s : State) : (pinWrite p l s).st.lseq = s.lseq := by
  rcases s with ⟨pix, cs, dat, clk, lst, buf, dst, ste, lseq, dseq, con, pinTrace, i2cTrace, waitTrace, replies, inbox, io, tokens⟩
  rcases io with _ | ⟨_ | _, io⟩ <;> cases p <;> rfl

theorem andThen_lseq {r : Run} {f : State → Run} (hr : r.st.lseq = none) (hf : ∀ t, t.lseq = none → (f t).st.lseq = none) :
    (r.andThen f).st.lseq = none := by
  rcases r with ⟨s, _ | _⟩
  · exact hr
  · exact hf s hr

theorem sendBit_lseq (b) (s : State) (h : s.lseq = none) : (sendBit b s).st.lseq = none := by
  refine andThen_lseq (by rw [pinWrite_lseq, h]) fun t ht => andThen_lseq (by rw [pinWrite_lseq, ht]) fun t ht =>
    andThen_lseq (by rw [pinWrite_lseq, ht]) fun t ht => by simp [State.bumpLseq, ht]

theorem sendBits_lseq (bs) (s : State) (h : s.lseq = none) : (sendBits bs s).st.lseq = none := by
  induction bs generalizing s with
  | nil => exact h
  | cons b r ih => exact andThen_lseq (sendBit_lseq b s h) ih

theorem pulse_lseq (s : State) (h : s.lseq = none) : (pulse s).st.lseq = none := by
  refine andThen_lseq (by rw [pinWrite_lseq, h]) fun t ht => andThen_lseq (by rw [pinWrite_lseq, ht]) fun t ht =>
     by simp [State.bumpLseq, ht]

theorem pulses_lseq (n) (s : State) (h : s.lseq = none) : (pulses n s).st.lseq = none := by
  induction n generalizing s with
  | zero => exact h
  | succ b ih => exact andThen_lseq (pulse_lseq s h) ih

/-! ### What sending leaves alone -/

/-- `t` differs from `s` only in what LSE owns, and in the answers used up. -/
def OnlyStrip (s t : State) : Prop :=
  t.buf = s.buf ∧ t.dst = s.dst ∧ t.ste = s.ste ∧ t.dseq = s.dseq ∧ t.constructing = s.constructing ∧
    t.i2cTrace = s.i2cTrace ∧ t.waitTrace = s.waitTrace ∧ t.tokens = s.tokens ∧ t.inbox = s.inbox ∧ t.replies = s.replies

theorem OnlyStrip.refl (s) : OnlyStrip s s := ⟨rfl, rfl, rfl, rfl, rfl, rfl, rfl, rfl, rfl, rfl⟩

theorem OnlyStrip.trans {s t u} (h : OnlyStrip s t) (k : OnlyStrip t u) : OnlyStrip s u := by
  unfold OnlyStrip at *; simp_all

/-- A sequence that touches nothing else, nor the pixels or `LST`. -/
def StripOnly (f : State → Run) : Prop := ∀ s, OnlyStrip s (f s).st ∧ (f s).st.pix = s.pix ∧ (f s).st.lst = s.lst

theorem stripOnly_pinWrite (p l) : StripOnly (pinWrite p l) := by
  intro s
  rcases s with ⟨pix, cs, dat, clk, lst, buf, dst, ste, lseq, dseq, con, pinTrace, i2cTrace, waitTrace, replies, inbox, io, tokens⟩
  rcases io with _ | ⟨_ | _, io⟩ <;> cases p <;> exact ⟨⟨rfl, rfl, rfl, rfl, rfl, rfl, rfl, rfl, rfl, rfl⟩, rfl, rfl⟩

theorem stripOnly_andThen {f : State → Run} {g : State → Run} (hf : StripOnly f) (hg : StripOnly g) : StripOnly fun s => (f s).andThen g := by
  intro s
  have h := hf s
  rcases hr : f s with ⟨t, _ | _⟩
  · simpa [hr] using h
  · rw [hr] at h
    have k := hg t
    simp only [hr]
    exact ⟨h.1.trans k.1, k.2.1.trans h.2.1, k.2.2.trans h.2.2⟩

theorem stripOnly_id : StripOnly fun s => ⟨s, true⟩ := fun s => ⟨OnlyStrip.refl s, rfl, rfl⟩

theorem stripOnly_bump : StripOnly fun s => ⟨s.bumpLseq, true⟩ := fun s => ⟨OnlyStrip.refl s, rfl, rfl⟩

theorem stripOnly_sendBit (b) : StripOnly (sendBit b) :=
  stripOnly_andThen (stripOnly_pinWrite _ _) (stripOnly_andThen (stripOnly_pinWrite _ _) (stripOnly_andThen (stripOnly_pinWrite _ _) stripOnly_bump))

theorem stripOnly_sendBits (bs) : StripOnly (sendBits bs) := by
  induction bs with
  | nil => exact stripOnly_id
  | cons b r ih => exact stripOnly_andThen (stripOnly_sendBit b) ih

theorem stripOnly_pulses (n) : StripOnly (pulses n) := by
  induction n with
  | zero => exact stripOnly_id
  | succ n ih => exact stripOnly_andThen (stripOnly_andThen (stripOnly_pinWrite _ _) (stripOnly_andThen (stripOnly_pinWrite _ _) stripOnly_bump)) ih

theorem stripOnly_end : StripOnly endFrame := stripOnly_andThen (stripOnly_pinWrite _ _) (stripOnly_pulses _)

theorem stripOnly_threePins (e) : StripOnly (forThreePins e) := by
  intro s
  rw [forThreePins_spec]
  exact ⟨⟨rfl, rfl, rfl, rfl, rfl, rfl, rfl, rfl, rfl, rfl⟩, rfl, rfl⟩

theorem stripOnly_show : StripOnly showSeq := by
  intro s
  rw [showSeq_spec]
  exact ⟨⟨rfl, rfl, rfl, rfl, rfl, rfl, rfl, rfl, rfl, rfl⟩, rfl, rfl⟩

end Sys2Proof.Machine
end

