-- ==== Sys2Proof/Laws/Replies.lean ====
section
/-! SUPPORT. No sequence of collaborator calls delivers anything to the host: only the end of an operation does (R200). -/

namespace Sys2Proof.Machine

/-- A sequence that delivers nothing to the host. -/
def KeepsReplies (f : State → Run) : Prop := ∀ s, (f s).st.replies = s.replies

theorem keepsReplies_collab {e : State → State} (he : ∀ s, (e s).replies = s.replies) : KeepsReplies (collaborator e) := by
  intro s; unfold collaborator; split <;> simp [he]

theorem keepsReplies_then {f g} (hf : KeepsReplies f) (hg : KeepsReplies g) : KeepsReplies fun s => (f s).andThen g := by
  intro s
  have h := hf s
  rcases hr : f s with ⟨t, _ | _⟩
  · simpa [hr] using h
  · rw [hr] at h; simp only [hr, Run.andThen_true, hg t]; exact h

theorem keepsReplies_i2c (b) : KeepsReplies (i2cWrite b) := keepsReplies_collab fun _ => rfl

theorem keepsReplies_flushOne : KeepsReplies flushOne := fun s =>
  keepsReplies_then (keepsReplies_i2c _) (fun _ => rfl) s

theorem keepsReplies_flush : KeepsReplies flushSeq := fun s => by rw [flushSeq_spec]

theorem keepsReplies_pre {f} {k : State → State} (hf : KeepsReplies f) (hk : ∀ s, (k s).replies = s.replies) : KeepsReplies fun s => f (k s) := fun s => by
  show (f (k s)).st.replies = _
  rw [hf, hk]

theorem keepsReplies_clear : KeepsReplies clearSeq := keepsReplies_pre (f := flushSeq) (k := fun s => { s with buf := Memory.zeroed }) keepsReplies_flush fun _ => rfl

theorem keepsReplies_slots (x j) : KeepsReplies (slotsSeq x j) := keepsReplies_pre (f := flushSeq) (k := fun s => { s with buf := render x j }) keepsReplies_flush fun _ => rfl

theorem keepsReplies_text (t j) : KeepsReplies (textSeq t j) := by
  cases t
  · exact keepsReplies_clear
  · exact keepsReplies_slots _ _

theorem keepsReplies_blink (r) : KeepsReplies (blinkSeq r) := keepsReplies_then (keepsReplies_i2c _) keepsReplies_flush

theorem keepsReplies_dinitBody : KeepsReplies dinitBody := by
  refine keepsReplies_then (f := fun s => openBus { s with buf := Memory.zeroed }) (keepsReplies_pre (keepsReplies_collab fun _ => rfl) fun _ => rfl)
    (keepsReplies_then (f := oscOn) (keepsReplies_i2c _) ?_)
  refine keepsReplies_then (f := fun s => if Config.initBlinkFlush then blinkSeq .off s else i2cWrite (blinkBytes .off) s) ?_ ?_
  · intro s
    by_cases h : Config.initBlinkFlush = true
    · simpa only [h, if_true] using keepsReplies_blink _ s
    · simpa [h] using keepsReplies_i2c (blinkBytes .off) s
  · exact keepsReplies_then (keepsReplies_i2c _) (keepsReplies_then keepsReplies_clear fun _ => rfl)

theorem keepsReplies_dinit : KeepsReplies dinitSeq := fun s => keepsReplies_dinitBody { s with constructing := true }

theorem keepsReplies_dteardown : KeepsReplies dteardownSeq := fun s => by
  have h1 := keepsReplies_clear s
  have h2 := (keepsReplies_collab (e := fun t => t.logBus .busClose) (fun _ => rfl)) (clearSeq s).st
  exact h2.trans h1

theorem keepsReplies_strip {f} (h : StripOnly f) : KeepsReplies f := fun s => (h s).1.2.2.2.2.2.2.2.2.2

theorem keepsReplies_threePins (e) : KeepsReplies (forThreePins e) := keepsReplies_strip (stripOnly_threePins e)

theorem keepsReplies_linit : KeepsReplies linitSeq :=
  keepsReplies_then (f := fun s => openPins { s with pix := s.pix.map (fun _ => Pixel.zero) })
    (keepsReplies_pre (f := openPins) (keepsReplies_threePins _) fun _ => rfl) fun _ => rfl

theorem keepsReplies_steps (s : State) : (lteardownSteps s).replies = s.replies := by
  have h1 := keepsReplies_strip stripOnly_show (blackened s)
  have h2 := keepsReplies_threePins .pinsClose (showSeq (blackened s)).st
  exact h2.trans h1

end Sys2Proof.Machine
end

