-- ==== Sys2Proof/Laws/Samples.lean ====
section
/-! SUPPORT. The samples of the LED wire (40_led_strip.md R108): what each part of a transmission adds. -/

namespace Sys2Proof.Machine

/-- The bits of a pixel frame, most significant first, are the word of R79. -/
theorem pixelBits_frame (p : Pixel) : pixelBits p = (List.range 32).map fun k => frameBit [p] (32 + k) := by
  have h : ∀ k < 32, frameBit [p] (32 + k) = (pixelWord p).getLsbD (31 - k) := by
    intro k hk
    simp only [frameBit, List.length_singleton]
    rw [if_neg (by omega), if_pos (by omega), show (32 + k - 32) / 32 = 0 by omega, show 32 + k - 32 = k by omega, Nat.mod_eq_of_lt hk]
    rfl
  rw [List.map_congr_left (g := fun k => (pixelWord p).getLsbD (31 - k)) (by simpa using h)]
  have hw : ∀ j, (pixelWord p).getLsbD j = if j < 8 then p.r.getLsbD j else if j < 16 then p.g.getLsbD (j - 8) else if j < 24 then p.b.getLsbD (j - 16) else (0xE0#8 ||| p.br.setWidth 8).getLsbD (j - 24) := by
    intro j
    show BitVec.getLsbD (((((0xE0#8 ||| p.br.setWidth 8) ++ p.b : BitVec (8 + 8)) ++ p.g : BitVec (8 + 8 + 8)) ++ p.r : BitVec (8 + 8 + 8 + 8))) j = _
    rw [BitVec.getLsbD_append, BitVec.getLsbD_append, BitVec.getLsbD_append]
    by_cases h1 : j < 8
    · simp [h1]
    · by_cases h2 : j < 16
      · simp [h1, h2, show j - 8 < 8 by omega]
      · by_cases h3 : j < 24
        · simp only [h1, h2, h3, show ¬ j - 8 < 8 by omega, show j - 8 - 8 = j - 16 by omega, show j - 16 < 8 by omega, if_true, if_false]
        · simp only [h1, h2, h3, show ¬ j - 8 < 8 by omega, show ¬ j - 8 - 8 < 8 by omega, show j - 8 - 8 - 8 = j - 24 by omega, if_false]
  simp only [hw]
  have : List.range 32 = [0,1,2,3,4,5,6,7,8,9,10,11,12,13,14,15,16,17,18,19,20,21,22,23,24,25,26,27,28,29,30,31] := by decide
  rw [this]
  simp [pixelBits, pixelBytes, bits8]

/-- Samples of a list in two parts. -/
theorem samples_append (v : Levels) (a b : List PinStep) : samples v (a ++ b) = samples v a ++ samples (levelsAfter v a) b := by
  induction a generalizing v with
  | nil => rfl
  | cons w a ih =>
    simp only [List.cons_append, samples, levelsAfter_cons]
    split <;> simp [ih]

/-- Bit cells from a low clock, chip-select asserted: one sample each. -/
theorem samples_cells (d : Level) (bits : List Bool) : 
    samples ⟨Config.csActive, d, false⟩ (cells bits) = bits ∧ levelsAfter ⟨Config.csActive, d, false⟩ (cells bits) = ⟨Config.csActive, bits.getLastD d, false⟩ := by
  induction bits generalizing d with
  | nil => exact ⟨rfl, rfl⟩
  | cons b r ih =>
    have : cells (b :: r) = [(.dat, b), (.clk, true), (.clk, false)] ++ cells r := by simp [cells]
    rw [this, samples_append, levelsAfter_append]
    have e : levelsAfter ⟨Config.csActive, d, false⟩ [(.dat, b), (.clk, true), (.clk, false)] = ⟨Config.csActive, b, false⟩ := rfl
    rw [e, (ih b).1, (ih b).2]
    refine ⟨by simp [samples, Levels.after], ?_⟩
    rw [List.getLastD_cons]

/-- Pulses with data low: one zero sample each. -/
theorem samples_pulses (n : Nat) : 
    samples ⟨Config.csActive, false, false⟩ (pulseEvents n) = List.replicate n false ∧ levelsAfter ⟨Config.csActive, false, false⟩ (pulseEvents n) = ⟨Config.csActive, false, false⟩ := by
  induction n with
  | zero => exact ⟨rfl, rfl⟩
  | succ n ih =>
    have : pulseEvents (n + 1) = [(.clk, true), (.clk, false)] ++ pulseEvents n := by simp [pulseEvents, List.replicate_succ]
    rw [this, samples_append, levelsAfter_append]
    have e : levelsAfter ⟨Config.csActive, false, false⟩ [(.clk, true), (.clk, false)] = ⟨Config.csActive, false, false⟩ := rfl
    rw [e, ih.1, ih.2]
    exact ⟨by simp [samples, Levels.after, List.replicate_succ], rfl⟩

/-- Bit `k` of a pixel frame on the wire. -/
theorem pixelBits_get (p : Pixel) {k : Nat} (hk : k < 32) : (pixelBits p)[k]? = some ((pixelWord p).getLsbD (31 - k)) := by
  rw [pixelBits_frame, List.getElem?_map, List.getElem?_range hk]
  simp only [Option.map_some, frameBit, List.length_singleton]
  rw [if_neg (by omega), if_pos (by omega), show (32 + k - 32) / 32 = 0 by omega, show 32 + k - 32 = k by omega, Nat.mod_eq_of_lt hk]
  rfl

/-- Bit `k` of the pixel frames in index order. -/
theorem flatMap_pixelBits_get (ps : List Pixel) (k : Nat) (hk : k < 32 * ps.length) :
    (ps.flatMap pixelBits)[k]? = some ((pixelWord (ps.getD (k / 32) Pixel.zero)).getLsbD (31 - k % 32)) := by
  induction ps generalizing k with
  | nil => simp at hk
  | cons p ps ih =>
    rw [List.flatMap_cons]
    by_cases h : k < 32
    · rw [List.getElem?_append_left (by simpa using h), pixelBits_get p h, Nat.div_eq_of_lt h, Nat.mod_eq_of_lt h]; rfl
    · rw [List.getElem?_append_right (by simp; omega), pixelBits_length, ih (k - 32) (by simp at hk; omega)]
      rw [show k / 32 = (k - 32) / 32 + 1 by omega, show (k - 32) % 32 = k % 32 by omega]; rfl

end Sys2Proof.Machine
end

