-- ==== Sys2Proof/Laws/Step.lean ====
section
/-! SUPPORT. Everything a step can do, said once. -/

namespace Sys2Proof.Machine

/-- With no step of STE's own to take, the next action is the next event. -/
theorem nextAction_take {s : State} (hb : s.ste.busy = false) : nextAction s = takeEvent s := by
  unfold nextAction
  split
  · rfl
  · next h' => simp [h', Ste.busy] at hb
  · next S h' => simp [h', Ste.busy] at hb; simp [hb]

/-- A step that runs an instruction takes one packet, and runs on the state without it. -/
theorem nextAction_run {s u i} (h : nextAction s = .run i u) : ∃ rest p, s.inbox = .packet p :: rest ∧ decode p = .ok i ∧ u = { s with inbox := rest } := by
  have del : ∀ {p rest}, s.inbox = .packet p :: rest → deliver p { s with inbox := rest } = .run i u → ∃ rest p, s.inbox = .packet p :: rest ∧ decode p = .ok i ∧ u = { s with inbox := rest } := by
    intro p rest hp hd
    unfold deliver at hd
    split at hd
    · rename_i j hj
      injection hd with h1 h2; subst h1 h2
      exact ⟨rest, p, hp, hj, rfl⟩
    · cases hd
  have te : takeEvent s = .run i u → _ := fun h => by
    unfold takeEvent at h
    split at h
    · cases h
    · exact del ‹_› h
    · cases h
  unfold nextAction at h
  split at h
  · exact te h
  · unfold takeInputOr at h
    split at h
    · split at h
      · exact del ‹_› h
      · cases h
    · cases h
  · split at h
    · cases h
    · exact te h

/-- Where a step goes: through an instruction it fetched, or by a move of its own. -/
theorem step_next {s t} (h : step s = .next t) : (∃ i rest, exec i { s with inbox := rest } = .next t ∧ nextAction s = .run i { s with inbox := rest }) ∨ nextAction s = .move t := by
  unfold step at h
  rcases ha : nextAction s with ⟨i, u⟩ | u | r
  · rw [ha] at h
    obtain ⟨rest, p, h1, h2, rfl⟩ := nextAction_run ha
    exact .inl ⟨i, rest, h, rfl⟩
  · rw [ha] at h; cases h; exact .inr rfl
  · rw [ha] at h; cases h

/-- The moves that are no instruction: a wait, an expiry outside WAIT, the show step, the cancel step, the end of a wait. -/
theorem move_cases {s t} (h : nextAction s = .move t) :
    t = s ∨ (∃ b rest, s.inbox = .expiry b :: rest ∧ s.ste = .idle ∧ t = { s with inbox := rest }) ∨ (∃ S, s.ste = .showing S ∧ t = showStep S s) ∨
    (∃ S, s.ste = .waiting S ∧ S.cancel = true ∧ t = cancelStep s) ∨
    (∃ S b rest, s.ste = .waiting S ∧ S.cancel = false ∧ s.inbox = .expiry b :: rest ∧
      t = if b then cancelStep { s with inbox := rest } else advanceStep S { s with inbox := rest }) := by
  have del : ∀ {p u}, deliver p u ≠ .move t := fun {p u} hd => by unfold deliver at hd; split at hd <;> cases hd
  have te : takeEvent s = .move t → t = s ∨ ∃ b rest, s.inbox = .expiry b :: rest ∧ t = expireStep b { s with inbox := rest } := fun h => by
    unfold takeEvent at h
    split at h
    · cases h; exact .inl rfl
    · exact absurd h del
    · cases h; exact .inr ⟨_, _, ‹_›, rfl⟩
  unfold nextAction at h
  split at h
  · rename_i hs
    rcases te h with h | ⟨b, rest, hi, rfl⟩
    · exact .inl h
    · exact .inr (.inl ⟨b, rest, hi, hs, by simp only [expireStep, hs]⟩)
  · rename_i S hs
    unfold takeInputOr at h
    split at h
    · split at h
      · exact absurd h del
      · cases h; exact .inr (.inr (.inl ⟨S, hs, rfl⟩))
    · cases h; exact .inr (.inr (.inl ⟨S, hs, rfl⟩))
  · rename_i S hs
    split at h
    · cases h; exact .inr (.inr (.inr (.inl ⟨S, hs, ‹_›, rfl⟩)))
    · rename_i hc
      rcases te h with h | ⟨b, rest, hi, rfl⟩
      · exact .inl h
      · refine .inr (.inr (.inr (.inr ⟨S, b, rest, hs, by simpa using hc, hi, ?_⟩)))
        simp only [expireStep, hs]
        cases b <;> simp [hc]

end Sys2Proof.Machine
end

