-- ==== Sys2Proof/Machine/Assembler.lean ====
section
/-! DEFINITION. The assembler syntax of 30_encoding.md R73: an operation written as a call, where "An absent operand is
the stated default and nothing else". -/

namespace Sys2Proof.Machine.Asm

/-- `SETPIXEL(index, r, g, b, brightness = 0.2)`. -/
def setPixel (index : Int) (r g b : Byte) (brightness : Frac := Config.defLedBright) : Instr := .setpixel index r g b brightness

/-- `SETALL(r, g, b, brightness = 0.2)`. -/
def setAll (r g b : Byte) (brightness : Frac := Config.defLedBright) : Instr := .setall r g b brightness

/-- `SETCHAR(position, c, showDecimal = false)`. -/
def setChar (position : Int) (c : CharCode) (showDecimal : Bool := false) : Instr := .setchar position c showDecimal

/-- `DISPTEXT(text, justifyRight = true)`. -/
def dispText (t : Text) (justifyRight : Bool := true) : Instr := .disptext t justifyRight

/-- `DISPNUM(s, justifyRight = true)`. -/
def dispNum (t : Text) (justifyRight : Bool := true) : Instr := .dispnum t justifyRight

/-- `DISPFLOAT(value, decimalPlaces = 2, justifyRight = true)`. -/
def dispFloat (value : Frac) (decimalPlaces : Nat := Config.defDecimals) (justifyRight : Bool := true) : Instr :=
  .dispfloat value decimalPlaces justifyRight

/-- `DISPHEX(value, justifyRight = true)`. -/
def dispHex (value : Int) (justifyRight : Bool := true) : Instr := .disphex value justifyRight

/-- `SCROLL(text, speed = 1.0, loop = true)`. -/
def scroll (t : Text) (speed : Frac := Config.defSpeed) (loop : Bool := true) : Instr := .scroll t speed loop

end Sys2Proof.Machine.Asm
end

