-- ==== Sys2Proof/Tests/Slice0.lean ====
section
/-! SUPPORT. Tests. Every expected value is written out from the spec: the encodings of 30_encoding.md, the examples and
vectors of 95_test_vectors.md (their ids stand beside each test), or the rule named. The last part shows, for every
statement of Obligations.lean that has hypotheses, a state and operands that meet them. -/

open Sys2Proof Sys2Proof.Machine

namespace Sys2Proof.Tests

/-! ### Small states -/

/-- LSE constructed, seven black pixels. -/
def strip : State := { State.reset with lst := .opened }

/-- LSE constructed with the one pixel of S1. -/
def onePixel : State := { strip with pix := [⟨255#8, 0#8, 0#8, 15#5⟩] }

/-- LSE constructed, with the pixel of V-L7 and V-L8 at index 2. -/
def painted : State := { strip with pix := strip.pix.set 2 ⟨9#8, 8#8, 7#8, 15#5⟩ }

/-- DCS constructed, the buffer zero. -/
def panel : State := { State.reset with dst := .opened }

/-- DCS constructed, `BUF[8] = 0xAA`. -/
def marked : State := { panel with buf := Memory.write Memory.zeroed 8 0xAA#8 }

/-- A scroll of four spaces, once. -/
def blankScroll : ScrollState := newScroll [] 1 false false

/-- A scroll of the empty text, looping: one window. -/
def blankLoop : ScrollState := newScroll [] 1 true false

/-- The state a step or a meaning goes to (reset where it stops). -/
def after (a : Answer) : State :=
  match a with
  | .next t => t
  | .fault _ => State.reset
  | .refused _ => State.reset

/-- The next state, if there is one. -/
def nextOf (a : Answer) : Option State :=
  match a with
  | .next t => some t
  | .fault _ => none
  | .refused _ => none

/-- The refusal, if it is one. -/
def refusalOf (a : Answer) : Option Refusal :=
  match a with
  | .next _ => none
  | .fault _ => none
  | .refused r => some r

/-- The last reply. -/
def lastReply (s : State) : Option Reply := s.replies.getLast?

/-- The levels written to DAT, in order. -/
def datLevels (es : List PinEvent) : List Level :=
  es.filterMap fun e =>
    match e with
    | .write .dat l => some l
    | _ => none

/-- A byte as eight bits, most significant first. -/
def msb (v : Nat) : List Bool := (List.range 8).map fun j => v.testBit (7 - j)

/-! ### WellFormed refuses -/

theorem test_wf_encode_char : (Instr.encodeChar (2 ^ Config.charW)).wellFormed = false := charOk_first_bad
theorem test_wf_setchar_char : (Instr.setchar 0 (2 ^ Config.charW) false).wellFormed = false := charOk_first_bad
theorem test_wf_disptext_char : (Instr.disptext [0x41, 2 ^ Config.charW] true).wellFormed = false := by
  simp [Instr.wellFormed, textOk]
theorem test_wf_dispnum_char : (Instr.dispnum [2 ^ Config.charW] true).wellFormed = false := by
  simp [Instr.wellFormed, textOk]
theorem test_wf_scroll_char : (Instr.scroll [0x41, 0x42, 2 ^ Config.charW] 1 true).wellFormed = false := by
  simp [Instr.wellFormed, textOk]
theorem test_wf_mask_bit15 : (Instr.segMask 0x8000#16).wellFormed = false := by decide
theorem test_wf_accepts : (Instr.encodeChar 0x7F).wellFormed = true ∧ (Instr.segMask 0x7FFF#16).wellFormed = true := by decide

/-! ### Decoding: the operation numbers of R71, the operands of R72 -/

theorem test_decode_linit : decode ⟨.op, [0x10#8]⟩ = .ok .linit := rfl
theorem test_decode_setpixel :
    decode ⟨.op, [0x11#8, 0x0C#8, 0x01#8, 0x02#8, 0x03#8, 0x02#8, 0x01#8]⟩ =
      .ok (.setpixel 6 1#8 2#8 3#8 ⟨1, 2, by decide, by decide⟩) := rfl
theorem test_decode_setall :
    decode ⟨.op, [0x12#8, 0x01#8, 0x02#8, 0x03#8, 0x02#8, 0x00#8]⟩ =
      .ok (.setall 1#8 2#8 3#8 ⟨1, 1, by decide, by decide⟩) := rfl
theorem test_decode_lsetbright :
    decode ⟨.op, [0x13#8, 0x02#8, 0x04#8]⟩ = .ok (.lsetbright ⟨1, 5, by decide, by decide⟩) := rfl
theorem test_decode_lclear : decode ⟨.op, [0x14#8]⟩ = .ok .lclear := rfl
theorem test_decode_getpixel : decode ⟨.op, [0x15#8, 0x01#8]⟩ = .ok (.getpixel (-1)) := rfl
theorem test_decode_show : decode ⟨.op, [0x16#8]⟩ = .ok .lshow := rfl
theorem test_decode_lteardown : decode ⟨.op, [0x1F#8]⟩ = .ok .lteardown := rfl
theorem test_decode_encode : decode ⟨.op, [0x20#8, 0x7E#8]⟩ = .ok (.encodeChar 0x7E) := rfl
theorem test_decode_dinit : decode ⟨.op, [0x30#8]⟩ = .ok .dinit := rfl
theorem test_decode_dsetbright :
    decode ⟨.op, [0x31#8, 0x02#8, 0x01#8]⟩ = .ok (.dsetbright ⟨1, 2, by decide, by decide⟩) := rfl
theorem test_decode_dsetblink : decode ⟨.op, [0x32#8, 0x01#8]⟩ = .ok (.dsetblink .hz2) := rfl
theorem test_decode_dclear : decode ⟨.op, [0x33#8]⟩ = .ok .dclear := rfl
theorem test_decode_flush : decode ⟨.op, [0x34#8]⟩ = .ok .flush := rfl
theorem test_decode_setchar : decode ⟨.op, [0x35#8, 0x02#8, 0x41#8, 0x01#8]⟩ = .ok (.setchar 1 0x41 true) := rfl
theorem test_decode_bufrd : decode ⟨.op, [0x36#8, 0x20#8]⟩ = .ok (.bufrd 16) := rfl
theorem test_decode_bufwr : decode ⟨.op, [0x37#8, 0x10#8, 0xAA#8]⟩ = .ok (.bufwr 8 0xAA#8) := rfl
theorem test_decode_disptext :
    decode ⟨.op, [0x38#8, 0x02#8, 0x41#8, 0x42#8, 0x00#8]⟩ = .ok (.disptext [0x41, 0x42] false) := rfl
theorem test_decode_dispnum :
    decode ⟨.op, [0x39#8, 0x04#8, 0x31#8, 0x32#8, 0x2E#8, 0x35#8, 0x01#8]⟩ = .ok (.dispnum [0x31, 0x32, 0x2E, 0x35] true) := rfl
theorem test_decode_dispfloat :
    decode ⟨.op, [0x3A#8, 0x31#8, 0x01#8, 0x01#8, 0x01#8]⟩ = .ok (.dispfloat ⟨-25, 2, by decide, by decide⟩ 1 true) := rfl
theorem test_decode_disphex : decode ⟨.op, [0x3B#8, 0x01#8, 0x01#8]⟩ = .ok (.disphex (-1) true) := rfl
theorem test_decode_dteardown : decode ⟨.op, [0x3F#8]⟩ = .ok .dteardown := rfl
theorem test_decode_scroll :
    decode ⟨.op, [0x40#8, 0x02#8, 0x41#8, 0x42#8, 0x02#8, 0x00#8, 0x00#8]⟩ =
      .ok (.scroll [0x41, 0x42] ⟨1, 1, by decide, by decide⟩ false) := rfl
theorem test_decode_cancel : decode ⟨.input, []⟩ = .ok .cancel := rfl

/-! ### Decoding: the wire formats of R75 to R85, bit by bit -/

theorem test_decode_osc_on : decode ⟨.i2c1, [0b00100001#8]⟩ = .ok .i2cOscOn := rfl
theorem test_decode_blink_off : decode ⟨.i2c1, [0b10000001#8]⟩ = .ok (.i2cBlink .off) := rfl
theorem test_decode_blink_half : decode ⟨.i2c1, [0b10000111#8]⟩ = .ok (.i2cBlink .hzHalf) := rfl
theorem test_decode_bright : decode ⟨.i2c1, [0b11100111#8]⟩ = .ok (.i2cBright 0b0111#4) := rfl
theorem test_decode_data : decode ⟨.i2c2, [0b00001111#8, 0x10#8]⟩ = .ok (.i2cData 15#4 0x10#8) := rfl
theorem test_decode_led_start : decode ⟨.ledFrame, [0#8, 0#8, 0#8, 0#8]⟩ = .ok .ledStart := rfl
theorem test_decode_led_pixel :
    decode ⟨.ledFrame, [0b11101111#8, 0x01#8, 0x02#8, 0x03#8]⟩ = .ok (.ledPixel 0b01111#5 0x01#8 0x02#8 0x03#8) := rfl
theorem test_decode_led_end : decode ⟨.ledEnd, [0#8, 0#8, 0#8, 0#8, 0#8]⟩ = .ok .ledEnd := rfl
theorem test_decode_bitcell : decode ⟨.pinSeq, [1#8]⟩ = .ok (.ledBitcell true) := rfl
theorem test_decode_mask : decode ⟨.mask16, [0x12#8, 0x40#8]⟩ = .ok (.segMask 0x4012#16) := rfl

/-- R86 (a) to (g): what is no item. -/
theorem test_reserved_items :
    decode ⟨.i2c1, [0x20#8]⟩ = .error (.badItem .i2c1) ∧ decode ⟨.i2c1, [0x88#8]⟩ = .error (.badItem .i2c1) ∧
      decode ⟨.i2c1, [0xF0#8]⟩ = .error (.badItem .i2c1) ∧ decode ⟨.i2c2, [0x10#8, 0#8]⟩ = .error (.badItem .i2c2) ∧
      decode ⟨.ledFrame, [0x6F#8, 0#8, 0#8, 0#8]⟩ = .error (.badItem .ledFrame) ∧
      decode ⟨.mask16, [0#8, 0x80#8]⟩ = .error (.badItem .mask16) ∧
      decode ⟨.op, [0x41#8]⟩ = .error (.unknownOperation 0x41#8) := ⟨rfl, rfl, rfl, rfl, rfl, rfl, rfl⟩

/-- Records that spell nothing: too short, too long, a needless digit, a fraction not in lowest terms, a bad Bool or
rate (the model's codec, notes/assumptions/1.md). -/
theorem test_bad_records :
    decode ⟨.op, []⟩ = .error .emptyRecord ∧ decode ⟨.op, [0x36#8]⟩ = .error .truncated ∧
      decode ⟨.op, [0x16#8, 0#8]⟩ = .error .trailing ∧ decode ⟨.op, [0x36#8, 0x80#8, 0#8]⟩ = .error .numberNotCanonical ∧
      decode ⟨.op, [0x31#8, 0x04#8, 0x01#8]⟩ = .error .fracNotCanonical ∧
      decode ⟨.op, [0x3B#8, 0#8, 2#8]⟩ = .error .badBool ∧ decode ⟨.op, [0x32#8, 4#8]⟩ = .error .badRate :=
  ⟨rfl, rfl, rfl, rfl, rfl, rfl, rfl⟩

/-- R11, whatever `CHARW` is: its first code too many is none. -/
theorem test_bad_char : decode ⟨.op, 0x20#8 :: putNat (2 ^ Config.charW)⟩ = .error .badChar := by
  have h : getNat (putNat (2 ^ Config.charW)) = .ok (2 ^ Config.charW, []) := by
    simpa using getNat_putNat (2 ^ Config.charW) []
  simp [decode, decodeRecord, decodeOp, getChar, h]

/-- Words as opcode_table.json numbers them. -/
theorem test_table_words :
    decodeTableWord 8 0x10 = some .linit ∧ decodeTableWord 8 0x36 = some (.bufrd 0) ∧
      decodeTableWord 8 0x21 = some .i2cOscOn ∧ decodeTableWord 8 0x85 = some (.i2cBlink .hz1) ∧
      decodeTableWord 16 0x08AA = some (.i2cData 8#4 0xAA#8) ∧
      decodeTableWord 16 0x4012 = some (.segMask 0x4012#16) ∧
      decodeTableWord 32 0xEF0000FF = some (.ledPixel 15#5 0#8 0#8 0xFF#8) ∧ decodeTableWord 32 0 = some .ledStart ∧
      decodeTableWord 36 0 = some .ledEnd ∧ decodeTableWord 0 0 = some .cancel ∧ decodeTableWord 8 0x41 = none := by
  decide

/-! ### Statuses, defaults, conversions -/

/-- R200. -/
theorem test_status_codes :
    Status.ok.code = 0 ∧ Status.rangeError.code = 1 ∧ Status.resourceError.code = 2 ∧ Status.cancelled.code = 3 := by decide

/-- R73: `SETALL(1, 2, 3)` has brightness 0.2, `DISPTEXT("AB")` justifyRight true, and so on. -/
theorem test_defaults :
    Asm.setAll 1#8 2#8 3#8 = .setall 1#8 2#8 3#8 (mkRat 1 5) ∧ Asm.setPixel 1 10#8 20#8 30#8 = .setpixel 1 10#8 20#8 30#8 (mkRat 1 5) ∧
      Asm.setChar 0 0x41 = .setchar 0 0x41 false ∧ Asm.dispText [0x41, 0x42] = .disptext [0x41, 0x42] true ∧
      Asm.dispNum [0x37] = .dispnum [0x37] true ∧ Asm.dispFloat 7 = .dispfloat 7 2 true ∧ Asm.dispHex 31 = .disphex 31 true ∧
      Asm.scroll [0x41] = .scroll [0x41] 1 true := ⟨rfl, rfl, rfl, rfl, rfl, rfl, rfl, rfl⟩

/-- V-L1. -/
theorem test_br5_floor :
    br5 0 = 0#5 ∧ br5 (mkRat 1 5) = 6#5 ∧ br5 (mkRat 1 2) = 15#5 ∧ br5 (mkRat 99 100) = 30#5 ∧ br5 (mkRat 999 1000) = 30#5 ∧
      br5 1 = 31#5 := by decide

/-- V-L2. -/
theorem test_br5_edges :
    br5 (mkRat 1 31) = 1#5 ∧ br5 (mkRat 322 10000) = 0#5 ∧ br5 (mkRat 323 10000) = 1#5 ∧ br5 (mkRat 30 31) = 30#5 ∧
      br5 (mkRat 9677 10000) = 29#5 ∧ br5 (mkRat 9678 10000) = 30#5 := by decide

/-- V-D1, V-D2. -/
theorem test_lv4_floor :
    lv4 (mkRat 1 5) = 3#4 ∧ lv4 (mkRat 1 2) = 7#4 ∧ lv4 (mkRat 99 100) = 14#4 ∧ lv4 1 = 15#4 ∧ lv4 (mkRat 1 15) = 1#4 ∧
      lv4 (mkRat 666 10000) = 0#4 ∧ lv4 (mkRat 667 10000) = 1#4 ∧ lv4 (mkRat 9333 10000) = 13#4 ∧
      lv4 (mkRat 9334 10000) = 14#4 := by decide

/-- V-S6. -/
theorem test_delay : delay 1 = 1000 ∧ delay (mkRat 1 4) = 250 ∧ delay 2 = 2000 ∧ delay (mkRat 1 3) = mkRat 1000 3 := by decide

/-! ### LSE -/

/-- R100: GETPIXEL(3) would give (0, 0, 0, 0), one event, no frame. -/
theorem test_linit_opens :
    exec .linit State.reset = .next
      { State.reset with
        pinTrace := [.pinsOpen], cs := !Config.csActive, lst := .opened, replies := [⟨some 0x10#8, .ok, .none⟩] } := rfl
/-- R202: the third of the three opens fails. -/
theorem test_linit_fails : nextOf (exec .linit { State.reset with io := [.ok, .ok, .fail] }) =
    some { State.reset with replies := [⟨some 0x10#8, .resourceError, .none⟩] } := by decide

/-- V-L3. -/
theorem test_setpixel_stores :
    (after (exec (.setpixel 6 1#8 2#8 3#8 1) strip)).pix = strip.pix.set 6 ⟨1#8, 2#8, 3#8, 31#5⟩ := by decide
/-- V-L6. -/
theorem test_setpixel_range :
    nextOf (exec (.setpixel 7 1#8 2#8 3#8 (mkRat 3 2)) strip) = some (strip.reply (some 0x11#8) .rangeError .none) := by decide

/-- R73: the default brightness stores 6. -/
theorem test_setall_default :
    (after (exec (Asm.setAll 1#8 2#8 3#8) strip)).pix = List.replicate 7 ⟨1#8, 2#8, 3#8, 6#5⟩ := by decide
/-- S3. -/
theorem test_setall_range :
    nextOf (exec (.setall 1#8 2#8 3#8 (mkRat (-1) 100)) strip) = some (strip.reply (some 0x12#8) .rangeError .none) := by decide

/-- V-L7. -/
theorem test_lsetbright_keeps_colour :
    (after (exec (.lsetbright 0) painted)).pix[2]? = some ⟨9#8, 8#8, 7#8, 0#5⟩ := by decide
/-- S3. -/
theorem test_lsetbright_range : lastReply (after (exec (.lsetbright 2) painted)) = some ⟨some 0x13#8, .rangeError, .none⟩ := by
  decide

/-- V-L8. -/
theorem test_lclear_keeps_brightness : (after (exec .lclear painted)).pix[2]? = some ⟨0#8, 0#8, 0#8, 15#5⟩ := by decide

/-- S2. -/
theorem test_getpixel_returns :
    nextOf (exec (.getpixel 2) painted) = some (painted.reply (some 0x15#8) .ok (.pixel ⟨9#8, 8#8, 7#8, 15#5⟩)) := by decide
/-- V-L12. -/
theorem test_getpixel_range : nextOf (exec (.getpixel 7) painted) = some (painted.reply (some 0x15#8) .rangeError .none) := by decide

/-- S1: bytes `00 00 00 00 EF 00 00 FF`, one more DAT write, 267 events. -/
theorem test_show_one_pixel :
    datLevels (after (exec .lshow onePixel)).pinTrace =
        ([0, 0, 0, 0, 0xEF, 0, 0, 0xFF].flatMap msb) ++ [false] ∧
      (after (exec .lshow onePixel)).pinTrace.length = 267 := by decide +kernel
/-- V-L17. -/
theorem test_show_fifth_write_fails :
    (after (exec .lshow { onePixel with io := [.ok, .ok, .ok, .ok, .fail] })).pinTrace =
        [.write .cs Config.csActive, .write .dat false, .write .clk true, .write .clk false] ∧
      lastReply (after (exec .lshow { onePixel with io := [.ok, .ok, .ok, .ok, .fail] })) =
        some ⟨some 0x16#8, .resourceError, .none⟩ := ⟨rfl, by decide⟩

/-- V-L16. -/
theorem test_lteardown_closed :
    nextOf (exec .lteardown { strip with lst := .closed }) =
      some (({ strip with lst := .closed } : State).reply (some 0x1F#8) .ok .none) := by decide
/-- R111 with every call failing: still closed, still OK. -/
theorem test_lteardown_swallows :
    nextOf (exec .lteardown { onePixel with io := [.fail, .fail] }) =
      some (({ onePixel with pix := [⟨0#8, 0#8, 0#8, 15#5⟩], lst := .closed } : State).reply (some 0x1F#8) .ok .none) := by
  decide

/-! ### SEGROM -/

/-- V-R1. -/
theorem test_encode_fallback :
    exec (.encodeChar 0x7F) State.reset = .next (State.reset.reply (some 0x20#8) .ok (.mask (segRom 31))) := rfl
/-- V-R2, V-R3, V-R4. -/
theorem test_encode_entries :
    encodeMask 0x20 = 0#16 ∧ encodeMask 0x7E = segRom 94 ∧ charMask 0x41 false = segRom 33 ∧
      charMask 0x41 true = segRom 33 ||| 0x4000#16 ∧ charMask 0x2E false = segRom 14 ||| 0x4000#16 := ⟨rfl, rfl, rfl, rfl, rfl⟩

/-! ### DCS -/

/-- R130 with the second call failing: the bus is open, nothing sent, DST stays UNINIT. -/
theorem test_dinit_fails :
    nextOf (exec .dinit { State.reset with io := [.ok, .fail] }) =
      some (({ State.reset with i2cTrace := [.busOpen] } : State).reply (some 0x30#8) .resourceError .none) := by decide

/-- V-D3. -/
theorem test_dsetbright_truncates :
    nextOf (exec (.dsetbright (mkRat 1 2)) panel) =
      some (({ panel with i2cTrace := [.xfer 0x70#8 [0xE7#8]] } : State).reply (some 0x31#8) .ok .none) := by decide
/-- V-X4. -/
theorem test_dsetbright_range_first :
    nextOf (exec (.dsetbright 2) { panel with io := [.fail] }) =
      some (({ panel with io := [.fail] } : State).reply (some 0x31#8) .rangeError .none) := by decide

/-- V-D7, with the coupled flush. -/
theorem test_dsetblink_flushes :
    (after (exec (.dsetblink .hz1) marked)).i2cTrace.take 2 = [.xfer 0x70#8 [0x85#8], .xfer 0x70#8 [0#8, 0#8]] ∧
      (after (exec (.dsetblink .hz1) marked)).i2cTrace[9]? = some (.xfer 0x70#8 [8#8, 0xAA#8]) ∧
      (after (exec (.dsetblink .hz1) marked)).i2cTrace.length = 17 := by decide

/-- V-D8. -/
theorem test_dclear_zeroes :
    (after (exec .dclear marked)).buf = [] ∧
      (after (exec .dclear marked)).i2cTrace = (List.range 16).map fun i => .xfer 0x70#8 [BitVec.ofNat 8 i, 0#8] := by decide

/-- P4, step 6: the ninth transaction. -/
theorem test_flush_ninth : (after (exec .flush marked)).i2cTrace[8]? = some (.xfer 0x70#8 [0x08#8, 0xAA#8]) := by decide
/-- V-D39, on a flush alone: the third transaction fails. -/
theorem test_flush_third_fails :
    nextOf (exec .flush { marked with io := [.ok, .ok, .fail, .ok] }) =
      some (({ marked with i2cTrace := [.xfer 0x70#8 [0#8, 0#8], .xfer 0x70#8 [1#8, 0#8]], io := [.ok] } : State).reply
        (some 0x34#8) .resourceError .none) := by decide

/-- V-D10 with the space, whose entry is 0: only the point, in bit 6 of byte 7. -/
theorem test_setchar_slot3 : (after (exec (.setchar 3 0x20 true) panel)).buf = [(7, 0x40#8)] := by decide
/-- V-D11. -/
theorem test_setchar_ignored : nextOf (exec (.setchar 4 0x41 false) marked) = some (marked.reply (some 0x35#8) .ok .none) := by decide

/-- V-D15. -/
theorem test_bufrd_returns : nextOf (exec (.bufrd 8) marked) = some (marked.reply (some 0x36#8) .ok (.byte 0xAA#8)) := by decide
/-- V-D16. -/
theorem test_bufrd_range : nextOf (exec (.bufrd 16) marked) = some (marked.reply (some 0x36#8) .rangeError .none) := by decide

/-- V-D15. -/
theorem test_bufwr_writes :
    nextOf (exec (.bufwr 15 0xAA#8) panel) = some (({ panel with buf := [(15, 0xAA#8)] } : State).reply (some 0x37#8) .ok .none) := by
  decide
/-- V-D16. -/
theorem test_bufwr_range : nextOf (exec (.bufwr (-1) 0#8) marked) = some (marked.reply (some 0x37#8) .rangeError .none) := by decide

/-- V-D19. -/
theorem test_disptext_empty :
    (after (exec (.disptext [] true) marked)).buf = [] ∧ (after (exec (.disptext [] true) marked)).i2cTrace.length = 16 := by
  decide
/-- S4: `"HELLO"` is cut to `"HELL"`, `"AB"` starts at 2. -/
theorem test_disptext_slots :
    textSlots [0x48, 0x45, 0x4C, 0x4C, 0x4F] = [⟨0x48, false⟩, ⟨0x45, false⟩, ⟨0x4C, false⟩, ⟨0x4C, false⟩] ∧
      startPos 2 true = 2 ∧ startPos 4 true = 0 ∧ startPos 2 false = 0 := by decide

/-- S5, V-D22, V-D23, V-D27. -/
theorem test_dispnum_slots :
    parseSlots [0x31, 0x32, 0x2E, 0x35] = some [⟨0x31, false⟩, ⟨0x32, true⟩, ⟨0x35, false⟩] ∧
      parseSlots [0x31, 0x2E, 0x2E, 0x32] = some [⟨0x31, true⟩, ⟨0x32, false⟩] ∧
      (parseSlots [0x31, 0x2E, 0x32, 0x2E, 0x33, 0x2E, 0x34, 0x2E]).map numberSlots =
        some [⟨0x31, true⟩, ⟨0x32, true⟩, ⟨0x33, true⟩, ⟨0x34, true⟩] ∧
      (parseSlots [0x31, 0x32, 0x33, 0x34, 0x2E, 0x35]).map numberSlots =
        some [⟨0x2D, false⟩, ⟨0x2D, false⟩, ⟨0x2D, false⟩, ⟨0x2D, false⟩] := by decide
/-- V-D29. -/
theorem test_dispnum_leading_dot : refusalOf (exec (.dispnum [0x2E, 0x35] true) panel) = some .leadingDot := by decide

/-- V-D33, V-D34: the texts `FMT` is asked for, by place count. -/
theorem test_dispfloat_reduces :
    floatTextBy (fun _ n => if n = 1 then [0x31, 0x32, 0x33, 0x2E, 0x35] else [0x31, 0x32, 0x33, 0x2E, 0x34, 0x36])
        (mkRat 123456 1000) 2 = [0x31, 0x32, 0x33, 0x2E, 0x35] ∧
      floatTextBy (fun _ n => if n = 1 then [0x2D, 0x30, 0x2E, 0x31] else [0x2D, 0x30, 0x2E, 0x31, 0x32, 0x33])
        (mkRat (-123) 1000) 3 = [0x2D, 0x30, 0x2E, 0x31] := by decide
/-- V-D37, V-D38: a count clamped at 0, and the cap of 3. -/
theorem test_dispfloat_clamps :
    reducedPlaces (mkRat 123456 10) [0x31, 0x32, 0x33, 0x34, 0x35, 0x2E, 0x36, 0x30] = 0 ∧
      floatTextBy (fun _ n => List.replicate n 0x37) 1 9 = [0x37, 0x37, 0x37] := by decide

/-- V-D30. -/
theorem test_disphex_spelling :
    hexText 0x1F = [0x31, 0x46] ∧ hexText 0 = [0x30] ∧ hexText 0xABCD = [0x41, 0x42, 0x43, 0x44] ∧
      hexText 4096 = [0x31, 0x30, 0x30, 0x30] := by decide
/-- S6. -/
theorem test_disphex_ignored :
    nextOf (exec (.disphex 0x10000 true) marked) = some (marked.reply (some 0x3B#8) .ok .none) ∧
      nextOf (exec (.disphex (-1) true) marked) = some (marked.reply (some 0x3B#8) .ok .none) := by decide

/-- V-D40. -/
theorem test_dteardown_closes :
    (after (exec .dteardown marked)).dst = .closed ∧ (after (exec .dteardown marked)).buf = [] ∧
      (after (exec .dteardown marked)).i2cTrace[15]? = some (.xfer 0x70#8 [15#8, 0#8]) ∧
      (after (exec .dteardown marked)).i2cTrace[16]? = some .busClose := by decide
/-- D26: a failing clear is the status, and the bus is still released. -/
theorem test_dteardown_fails :
    nextOf (exec .dteardown { marked with io := [.fail] }) =
      some (({ panel with dst := .closed, i2cTrace := [.busClose] } : State).reply (some 0x3F#8) .resourceError .none) := by decide

/-! ### STE -/

/-- V-S1. -/
theorem test_scroll_padding :
    padText [0x41, 0x42] false = [0x41, 0x42, 0x20, 0x20, 0x20, 0x20, 0x20, 0x20] ∧
      padText [0x41, 0x42] true = [0x41, 0x42, 0x20, 0x20, 0x41, 0x42] ∧
      padText [0x41] true = [0x41, 0x20, 0x20, 0x20, 0x41] ∧ padText [] true = [0x20, 0x20, 0x20, 0x20] := by decide
/-- V-S5. -/
theorem test_scroll_speed : nextOf (exec (.scroll [0x41, 0x42] 0 true) panel) = some (panel.reply (some 0x40#8) .rangeError .none) := by
  decide

/-- R207: the latch. -/
theorem test_cancel_latches :
    nextOf (exec .cancel { panel with ste := .waiting blankScroll }) =
      some { panel with ste := .waiting { blankScroll with cancel := true } } := by decide
/-- R207: outside a scroll. -/
theorem test_cancel_idle : nextOf (exec .cancel panel) = some panel := by decide

/-- V-S7: a window of four spaces fills the display and starts a wait. -/
theorem test_step_shows :
    (after (step { panel with ste := .showing blankScroll })).ste = .waiting blankScroll ∧
      (after (step { panel with ste := .showing blankScroll })).waitTrace = [1000] ∧
      (after (step { panel with ste := .showing blankScroll })).i2cTrace.length = 16 := by decide
/-- R213: cancel wins over a simultaneous expiry. -/
theorem test_step_cancel_wins :
    lastReply (after (step { panel with ste := .waiting blankLoop, inbox := [.expiry true] })) =
      some ⟨some 0x40#8, .cancelled, .none⟩ := by decide
/-- R179: a looping scroll of one window starts again. -/
theorem test_step_wraps :
    after (step { panel with ste := .waiting blankLoop, inbox := [.expiry false] }) =
      { panel with ste := .showing blankLoop } := by decide
/-- R134: a DCS operation during a wait is refused, an LSE operation runs. -/
theorem test_step_during_wait :
    refusalOf (step { panel with ste := .waiting blankLoop, inbox := [.packet ⟨.op, [0x34#8]⟩] }) = some .scrollActive ∧
      nextOf (step { panel with lst := .opened, ste := .waiting blankLoop, inbox := [.packet ⟨.op, [0x14#8]⟩] }) =
        some (({ panel with lst := .opened, ste := .waiting blankLoop } : State).reply (some 0x14#8) .ok .none) := by decide

/-! ### Wire items -/

/-- R80: while a DINIT is under way, and at no other moment. -/
theorem test_item_osc_on :
    nextOf (exec .i2cOscOn { State.reset with constructing := true }) =
        some (({ State.reset with constructing := true, i2cTrace := [.xfer 0x70#8 [0x21#8]] } : State).reply none .ok .none) ∧
      refusalOf (exec .i2cOscOn panel) = some .oscOnOutsideDinit := by decide
theorem test_item_blink :
    nextOf (exec (.i2cBlink .hz2) panel) = some (({ panel with i2cTrace := [.xfer 0x70#8 [0x83#8]] } : State).reply none .ok .none) := by
  decide
theorem test_item_bright :
    nextOf (exec (.i2cBright 9#4) panel) = some (({ panel with i2cTrace := [.xfer 0x70#8 [0xE9#8]] } : State).reply none .ok .none) := by
  decide
/-- R50, R83: what a flush under way sends next, and nothing else. -/
theorem test_item_data :
    nextOf (exec (.i2cData 8#4 0xAA#8) { marked with dseq := some 8 }) =
        some (({ marked with dseq := some 9, i2cTrace := [.xfer 0x70#8 [8#8, 0xAA#8]] } : State).reply none .ok .none) ∧
      refusalOf (exec (.i2cData 8#4 0xAA#8) marked) = some .dataOutsideFlush ∧
      refusalOf (exec (.i2cData 8#4 0x5A#8) { marked with dseq := some 8 }) = some .dataOutsideFlush := by decide
theorem test_item_led_start : (after (exec .ledStart strip)).pinTrace.length = 96 := by decide +kernel
theorem test_item_led_pixel :
    datLevels (after (exec (.ledPixel 15#5 0x01#8 0x02#8 0x80#8) strip)).pinTrace = [0xEF, 0x01, 0x02, 0x80].flatMap msb := by
  decide +kernel
theorem test_item_led_end :
    (after (exec .ledEnd strip)).pinTrace.take 3 = [.write .dat false, .write .clk true, .write .clk false] ∧
      (after (exec .ledEnd strip)).pinTrace.length = 73 := by decide
/-- V-L13, one cell. -/
theorem test_item_bitcell :
    (after (exec (.ledBitcell true) strip)).pinTrace = [.write .dat true, .write .clk true, .write .clk false] := by decide
theorem test_item_mask :
    nextOf (exec (.segMask 0x4012#16) State.reset) = some (State.reset.reply none .ok (.mask 0x4012#16)) ∧
      refusalOf (exec (.segMask 0x8000#16) State.reset) = some .maskBit15 := by decide

/-! ### Fetching -/

/-- A placed word is the first thing to run after reset. -/
theorem test_placed_word :
    step (State.reset.withFetchWord 8 0x10) = exec .linit State.reset ∧
      step (State.reset.withFetchWord 8 0x16) = .refused .lseNotOpen := ⟨rfl, rfl⟩
/-- R231: with nothing there, reset waits. -/
theorem test_reset_waits : step State.reset = .next State.reset := rfl

/-! ### Witnesses: the hypotheses of each statement can be met

One theorem for each statement of Obligations.lean that has hypotheses, under its name, with the boundary values of each
clause. A hypothesis `exec i s = .next t` is met by some `t`. -/

/-- A scroll of `"AB"`, once, at offset 0. -/
def abScroll : ScrollState := newScroll [0x41, 0x42] 1 false false

/-- The same at its last offset. -/
def abLast : ScrollState := { abScroll with off := 4 }

/-- DCS constructed, one failing call to come. -/
def failing : State := { panel with io := [.fail] }

/-- DCS constructed, FLUSH next to arrive. -/
def flushNext : State := { panel with inbox := [.packet ⟨.op, [0x34#8]⟩] }

theorem abScroll_wf : abScroll.wf := ⟨rfl, by decide, by decide⟩

theorem abLast_wf : abLast.wf := ⟨rfl, by decide, by decide⟩

theorem blankLoop_wf : blankLoop.wf := ⟨rfl, by decide, by decide⟩

theorem witness_DecodingInvertsEncoding : (Instr.setchar 3 (2 ^ Config.charW - 1) true).wellFormed = true :=
  charOk_iff.2 (Nat.sub_lt (Nat.two_pow_pos _) Nat.one_pos)

theorem witness_DecodedPacketsAreCanonical : decode ⟨.op, [0x36#8, 0x1E#8]⟩ = .ok (.bufrd 15) := rfl

theorem witness_UnknownOperationNumbersAreRefused :
    0x41#8 ∉ [0x10#8, 0x11#8, 0x12#8, 0x13#8, 0x14#8, 0x15#8, 0x16#8, 0x1F#8, 0x20#8, 0x30#8, 0x31#8, 0x32#8, 0x33#8, 0x34#8,
      0x35#8, 0x36#8, 0x37#8, 0x38#8, 0x39#8, 0x3A#8, 0x3B#8, 0x3F#8, 0x40#8] ∧
      ({ panel with inbox := [.packet ⟨.op, [0x41#8]⟩] } : State).ste.busy = false ∧
      ({ panel with inbox := [.packet ⟨.op, [0x41#8]⟩] } : State).inbox = .packet ⟨.op, 0x41#8 :: []⟩ :: [] := by decide

/-- An operation in IDLE, an operation in WAIT, CANCEL in SHOW, and nothing there in WAIT. -/
theorem witness_StepRunsTheDecodedInstruction :
    (decode ⟨.op, [0x14#8]⟩ = .ok .lclear ∧ panel.ste.busy = false ∧ (Ste.waiting abScroll).busy = false) ∧
      (decode ⟨.input, []⟩ = .ok .cancel ∧ (Ste.showing abScroll).phase = .shows ∧ (⟨.input, []⟩ : Packet).fmt = .input) ∧
      ({ panel with ste := .waiting abScroll } : State).inbox = [] := ⟨⟨rfl, rfl, rfl⟩, ⟨rfl, rfl, rfl⟩, rfl⟩

theorem witness_PlacedTableWordsAreExecuted : decodeTableWord 8 0x40 = some (.scroll [] 0 false) := by decide

theorem witness_OnlyInitialisersRunBeforeConstruction :
    State.reset.lst = .uninit ∧ State.reset.dst = .uninit ∧ State.reset.ste = .idle ∧ State.reset.constructing = false ∧
      State.reset.dseq = none ∧ (∃ t, exec .linit State.reset = .next t) ∧ (∃ t, exec (.encodeChar 0x41) State.reset = .next t) ∧
      (∃ t, exec .cancel State.reset = .next t) ∧ ∃ t, exec (.segMask 0#16) State.reset = .next t :=
  ⟨rfl, rfl, rfl, rfl, rfl, ⟨_, rfl⟩, ⟨_, rfl⟩, ⟨_, rfl⟩, ⟨_, rfl⟩⟩

/-- In the middle of a scroll. -/
theorem witness_EveryStepKeepsTheInvariant :
    ({ marked with ste := .waiting abScroll, inbox := [.expiry false] } : State).Inv ∧
      ∃ t, step { marked with ste := .waiting abScroll, inbox := [.expiry false] } = .next t :=
  ⟨⟨rfl, by decide, rfl, rfl, rfl, ⟨rfl, abScroll_wf⟩, fun _ h => by cases h⟩, ⟨_, rfl⟩⟩

theorem witness_OnlyBufwrDirtiesTheUnusedBits :
    (∃ t, step flushNext = .next t) ∧ (∀ p v s', nextAction flushNext ≠ .run (.bufwr p v) s') ∧ flushNext.maskClear ∧
      ∀ a, 8 ≤ a → Memory.read flushNext.buf a = 0x00#8 := by
  refine ⟨⟨_, rfl⟩, fun p v s' h => ?_, (by unfold State.maskClear; decide), fun _ _ => rfl⟩
  have : nextAction flushNext = .run .flush panel := rfl
  rw [this] at h
  cases h

theorem witness_HistoriesOnlyGrow :
    ∃ t, step flushNext = .next t ∧ t.i2cTrace.length = 16 := ⟨_, rfl, by decide⟩

theorem witness_NoRuleReadsTheHistories :
    (∃ t, step flushNext = .next t) ∧
      step { panel with inbox := [.packet ⟨.op, [0x14#8]⟩] } = .refused .lseNotOpen := ⟨⟨_, rfl⟩, rfl⟩

theorem witness_OnlyLseTouchesThePixels :
    (∃ t, step { strip with inbox := [.packet ⟨.op, [0x14#8]⟩] } = .next t) ∧
      (Spec.ofStrip .flush = false ∧ ∃ t, exec .flush panel = .next t) ∧
      ∃ t, nextAction { panel with ste := .showing blankScroll } = .move t := ⟨⟨_, rfl⟩, ⟨rfl, _, rfl⟩, _, rfl⟩

theorem witness_LseNeverTouchesTheDisplay : Spec.ofStrip .lclear = true ∧ ∃ t, exec .lclear strip = .next t := ⟨rfl, _, rfl⟩

theorem witness_RangeErrorsAreExactlyTheListed :
    ((∃ t, exec (.bufrd 15) panel = .next t) ∧ ¬ Spec.RangeCondition panel (.bufrd 15)) ∧
      (∃ t, exec (.bufrd 16) panel = .next t) ∧ Spec.RangeCondition panel (.bufrd 16) :=
  ⟨⟨⟨_, rfl⟩, by simp [Spec.RangeCondition]⟩, ⟨_, rfl⟩, by simp [Spec.RangeCondition]⟩

theorem witness_OnlyIoOperationsRaiseResourceError :
    ∃ t, exec .flush failing = .next t ∧ t.replies = failing.replies ++ [⟨some 0x34#8, .resourceError, .none⟩] :=
  ⟨_, rfl, by decide⟩

theorem witness_CancelledOnlyAfterTheClear :
    ∃ t, step { marked with ste := .waiting blankLoop, inbox := [.expiry true] } = .next t ∧
      t.replies = marked.replies ++ [⟨some 0x40#8, .cancelled, .none⟩] := ⟨_, rfl, by decide⟩

theorem witness_EveryOperationEndsWithOneStatus :
    (∃ t, exec .flush failing = .next t) ∧ (∃ t, exec .cancel panel = .next t) ∧
      ∃ t, exec (.scroll [0x41] 1 true) panel = .next t := ⟨⟨_, rfl⟩, ⟨_, rfl⟩, ⟨_, rfl⟩⟩

theorem witness_LseIsRefusedOutsideOpen :
    (Spec.ofStrip .lshow = true ∧ Instr.lshow ≠ .linit ∧ panel.lst ≠ .opened ∧ ¬ (Instr.lshow = .lteardown ∧ panel.lst = .closed)) ∧
      (Spec.ofStrip .lteardown = true ∧ Instr.lteardown ≠ .linit ∧ panel.lst ≠ .opened ∧
        ¬ (Instr.lteardown = .lteardown ∧ panel.lst = .closed)) ∧
      strip.lst ≠ .uninit ∧ ({ strip with lst := .closed } : State).lst = .closed := by decide

theorem witness_LinitOpensTheStrip : State.reset.lst = .uninit := rfl

/-- Indexes -1 and 7 and brightnesses just outside fail; 0 and 6, 0 and 1 pass. -/
theorem witness_SetpixelStoresThePixel :
    strip.lst = .opened ∧ (-1 : Int) < 0 ∧ (strip.pix.length : Int) ≤ 7 ∧ mkRat (-1) 100 < 0 ∧ 1 < mkRat 101 100 ∧
      (0 ≤ (0 : Int) ∧ (0 : Int) < strip.pix.length ∧ (0 : Frac) ≤ 0 ∧ (0 : Frac) ≤ 1) ∧
      (0 ≤ (6 : Int) ∧ (6 : Int) < strip.pix.length ∧ (0 : Frac) ≤ 1 ∧ (1 : Frac) ≤ 1) := by decide

theorem witness_SetallStoresEveryPixel :
    strip.lst = .opened ∧ mkRat (-1) 100 < 0 ∧ 1 < mkRat 101 100 ∧ (0 : Frac) ≤ 0 ∧ (0 : Frac) ≤ 1 ∧ (1 : Frac) ≤ 1 := by decide

theorem witness_LsetbrightKeepsTheColours :
    painted.lst = .opened ∧ mkRat (-1) 100 < 0 ∧ 1 < mkRat 101 100 ∧ (0 : Frac) ≤ 0 ∧ (0 : Frac) ≤ 1 ∧ (1 : Frac) ≤ 1 ∧
      painted.pix[6]? = some Pixel.zero := by decide

theorem witness_LclearKeepsTheBrightness : painted.lst = .opened ∧ painted.pix[2]? = some ⟨9#8, 8#8, 7#8, 15#5⟩ := by decide

theorem witness_GetpixelReturnsThePixel :
    painted.lst = .opened ∧ (-1 : Int) < 0 ∧ (painted.pix.length : Int) ≤ 7 ∧ (6 : Int) = (6 : Nat) ∧
      painted.pix[6]? = some Pixel.zero := by decide

theorem witness_ShowSendsItsEventList : painted.lst = .opened ∧ painted.lseq = none := by decide

theorem witness_ShowSamplesAreTheFrames : (⟨true, true, false⟩ : Levels).clk = false := rfl

theorem witness_LteardownBlanksAndCloses : painted.lst = .opened ∧ painted.lseq = none := by decide

theorem witness_LedItemsSendTheirFrames : painted.lst = .opened ∧ painted.lseq = none := by decide

theorem witness_PixelOperationFrames :
    (∃ t, exec (.setpixel 6 1#8 2#8 3#8 1) strip = .next t) ∧ (∃ t, exec (.setall 1#8 2#8 3#8 1) strip = .next t) ∧
      (∃ t, exec (.lsetbright 1) strip = .next t) ∧ (∃ t, exec .lclear strip = .next t) ∧
      (∃ t, exec (.getpixel 6) strip = .next t) ∧ ((5 : Nat) : Int) ≠ 6 :=
  ⟨⟨_, rfl⟩, ⟨_, rfl⟩, ⟨_, rfl⟩, ⟨_, rfl⟩, ⟨_, rfl⟩, by decide⟩

theorem witness_StripIoFrames :
    (∃ t, exec .lshow strip = .next t) ∧ (∃ t, exec .ledStart strip = .next t) ∧
      (∃ t, exec (.ledPixel 31#5 1#8 2#8 3#8) strip = .next t) ∧ (∃ t, exec .ledEnd strip = .next t) ∧
      (∃ t, exec (.ledBitcell true) strip = .next t) ∧ Spec.ofStrip .lteardown = true ∧ ∃ t, exec .lteardown strip = .next t :=
  ⟨⟨_, rfl⟩, ⟨_, rfl⟩, ⟨_, rfl⟩, ⟨_, rfl⟩, ⟨_, rfl⟩, rfl, ⟨_, rfl⟩⟩

theorem witness_SegMaskIsAValue : (0x7FFF#16).getLsbD 15 = false ∧ (0x8000#16).getLsbD 15 = true := by decide

theorem witness_FractionConversionsAreFloors :
    (0 : Frac) ≤ 0 ∧ (0 : Frac) ≤ mkRat 1 31 ∧ mkRat 1 31 ≤ 1 ∧ (1 : Frac) ≤ 1 ∧ 0 < mkRat 1 1000 := by decide

theorem witness_DcsIsRefusedUnlessFree :
    (Spec.ofStrip .flush = false ∧ State.reset.dst ≠ .opened) ∧
      (panel.dst = .opened ∧ ({ panel with ste := .waiting abScroll } : State).ste ≠ .idle) ∧
      ¬ (Instr.dteardown = .dteardown ∧ State.reset.dst = .closed) ∧ panel.dst ≠ .uninit ∧
      ({ panel with dst := .closed } : State).dst = .closed ∧ panel.constructing = false ∧
      panel.dseq ≠ some (0#4).toNat ∧ 0x5A#8 ≠ Memory.read marked.buf (8#4).toNat := by decide

theorem witness_DinitSendsItsSequence : State.reset.dst = .uninit ∧ State.reset.dseq = none := ⟨rfl, rfl⟩

theorem witness_DsetbrightSendsTheLevel :
    panel.dst = .opened ∧ panel.ste = .idle ∧ mkRat (-1) 100 < 0 ∧ 1 < mkRat 10001 10000 ∧ (0 : Frac) ≤ 0 ∧ (0 : Frac) ≤ 1 ∧
      (1 : Frac) ≤ 1 := by decide

theorem witness_DsetblinkSendsThenFlushes : marked.dst = .opened ∧ marked.ste = .idle ∧ marked.dseq = none := by decide

theorem witness_DclearZeroesThenFlushes : marked.dst = .opened ∧ marked.ste = .idle ∧ marked.dseq = none := by decide

theorem witness_FlushSendsTheBuffer : marked.dst = .opened ∧ marked.ste = .idle ∧ marked.dseq = none := by decide

theorem witness_SetcharWritesItsSlot :
    panel.dst = .opened ∧ panel.ste = .idle ∧ (-1 : Int) < 0 ∧ (3 : Int) < 4 ∧ (0 ≤ (0 : Int) ∧ (0 : Int) ≤ 3) ∧
      (0 ≤ (3 : Int) ∧ (3 : Int) ≤ 3) := by decide

theorem witness_ByteAccessorsReadAndWrite :
    panel.dst = .opened ∧ panel.ste = .idle ∧ (-1 : Int) < 0 ∧ (16 : Int) ≤ 16 ∧ (0 ≤ (0 : Int) ∧ (0 : Int) < 16) ∧
      (0 ≤ (15 : Int) ∧ (15 : Int) < 16) := by decide

theorem witness_DisptextShowsTheText : marked.dst = .opened ∧ marked.ste = .idle ∧ marked.dseq = none := by decide

/-- `"12.5"`, `"12345"` and the empty text are dotted texts. -/
theorem witness_DispnumShowsTheSlots :
    marked.dst = .opened ∧ marked.ste = .idle ∧ marked.dseq = none ∧
      ((∀ g ∈ [(0x31, 0), (0x32, 1), (0x35, 0)], g.1 ≠ 0x2E) ∧
        Spec.dotted [(0x31, 0), (0x32, 1), (0x35, 0)] = [0x31, 0x32, 0x2E, 0x35]) ∧
      ((∀ g ∈ [(0x31, 0), (0x32, 0), (0x33, 0), (0x34, 0), (0x35, 0)], g.1 ≠ 0x2E) ∧
        Spec.dotted [(0x31, 0), (0x32, 0), (0x33, 0), (0x34, 0), (0x35, 0)] = [0x31, 0x32, 0x33, 0x34, 0x35]) ∧
      Spec.dotted [] = [] := by decide

/-- A formatting function whose text is `"3.14"` (V-D32). `FMT` itself is OPEN, so which of the two clauses about it
applies to a value is not known; one of them always does. -/
theorem witness_DispfloatFollowsTheFormula :
    marked.dst = .opened ∧ marked.ste = .idle ∧ marked.dseq = none ∧
      ((∀ g ∈ [(0x33, 1), (0x31, 0), (0x34, 0)], g.1 ≠ 0x2E) ∧
        Spec.floatString (fun _ _ => [0x33, 0x2E, 0x31, 0x34]) (mkRat 314159 100000) 2 =
          Spec.dotted [(0x33, 1), (0x31, 0), (0x34, 0)]) ∧
      ∀ (v : Frac) (n : Nat), (Spec.floatString Config.fmt v n).head? ≠ some 0x2E ∨
        (Spec.floatString Config.fmt v n).head? = some 0x2E :=
  ⟨by decide, by decide, by decide, ⟨by decide, by decide⟩, fun _ _ => (Decidable.em _).symm⟩

theorem witness_DisphexShowsTheSpelling :
    marked.dst = .opened ∧ marked.ste = .idle ∧ marked.dseq = none ∧ (0 ≤ (0 : Int) ∧ (0 : Int) ≤ 0xFFFF) ∧
      (0 ≤ (0xFFFF : Int) ∧ (0xFFFF : Int) ≤ 0xFFFF) ∧ (-1 : Int) < 0 ∧ 0xFFFF < (0x10000 : Int) := by decide

theorem witness_DteardownBlanksAndReleases : marked.dst = .opened ∧ marked.ste = .idle ∧ marked.dseq = none := by decide

theorem witness_I2cItemsSendTheirTransaction :
    panel.dst = .opened ∧ panel.ste = .idle ∧ ({ State.reset with constructing := true } : State).constructing = true ∧
      (({ marked with dseq := some 15 } : State).dseq = some (15#4).toNat ∧ 0x00#8 = Memory.read marked.buf (15#4).toNat) ∧
      0xAA#8 = Memory.read marked.buf (8#4).toNat := by decide

theorem witness_TransactionsPerOperation :
    ∃ t, exec (.dsetblink .hz2) marked = .next t ∧
      t.replies = marked.replies ++ [⟨some 0x32#8, .ok, .none⟩] := ⟨_, rfl, by decide⟩

theorem witness_DisplayOperationFrames :
    Spec.ofStrip .flush = false ∧ (∃ t, exec .flush marked = .next t) ∧ (∃ t, exec (.bufrd 15) marked = .next t) ∧
      (∃ t, exec (.dsetbright 1) marked = .next t) ∧ (∃ t, exec (.dsetblink .off) marked = .next t) ∧
      (∃ t, exec (.setchar 3 0x41 false) marked = .next t) ∧ (∃ t, exec (.bufwr 15 1#8) marked = .next t) ∧
      (∃ t, exec (.scroll [0x41] 1 true) marked = .next t) ∧ (∃ t, exec .cancel marked = .next t) ∧
      (((5 : Nat) : Int) ≠ 2 * 3 ∧ ((5 : Nat) : Int) ≠ 2 * 3 + 1) ∧ ((14 : Nat) : Int) ≠ 15 :=
  ⟨rfl, ⟨_, rfl⟩, ⟨_, rfl⟩, ⟨_, rfl⟩, ⟨_, rfl⟩, ⟨_, rfl⟩, ⟨_, rfl⟩, ⟨_, rfl⟩, ⟨_, rfl⟩, by decide, by decide⟩

theorem witness_ScrollStarts :
    panel.dst = .opened ∧ panel.ste = .idle ∧ (0 : Frac) ≤ 0 ∧ 0 < mkRat 1 1000 := by decide

theorem witness_CancelSetsTheLatch :
    panel.ste = .idle ∧ ({ panel with ste := .showing abScroll } : State).ste = .showing abScroll ∧
      ({ panel with ste := .waiting abScroll } : State).ste = .waiting abScroll ∧
      ∃ t, (Ste.showing { blankScroll with cancel := true }).scrollState = some { blankScroll with cancel := true } ∧
        ({ blankScroll with cancel := true } : ScrollState).cancel = true ∧
        step { panel with ste := .showing { blankScroll with cancel := true } } = .next t ∧
        t.ste.scrollState = some { blankScroll with cancel := true } := ⟨rfl, rfl, rfl, _, rfl, rfl, rfl, by decide⟩

/-- With nothing there, and with an operation waiting its turn. -/
theorem witness_ShowStepShowsTheWindow :
    ({ panel with ste := .showing abLast } : State).ste = .showing abLast ∧ abLast.wf ∧ panel.dseq = none ∧
      (∀ p rest, ({ panel with ste := .showing abLast } : State).inbox = .packet p :: rest → p.fmt ≠ .input) ∧
      ∀ p rest, ([.packet ⟨.op, [0x14#8]⟩] : List Event) = .packet p :: rest → p.fmt ≠ .input := by
  refine ⟨rfl, abLast_wf, rfl, ?_, ?_⟩ <;> (intro p rest h; cases h)
  decide

theorem witness_WaitEndsByCancel :
    panel.dseq = none ∧ ({ abScroll with cancel := true } : ScrollState).cancel = true ∧ abScroll.cancel = false ∧
      ({ panel with ste := .waiting abScroll, inbox := [.expiry true] } : State).inbox = .expiry true :: [] := by decide

theorem witness_WaitEndsByTimer :
    abScroll.wf ∧ abLast.wf ∧ blankLoop.wf ∧ abScroll.cancel = false ∧ abScroll.off + 4 < abScroll.pad.length ∧
      (abLast.off + 4 = abLast.pad.length ∧ abLast.loop = false) ∧
      (blankLoop.off + 4 = blankLoop.pad.length ∧ blankLoop.loop = true) :=
  ⟨abScroll_wf, abLast_wf, blankLoop_wf, by decide, by decide, by decide, by decide⟩

theorem witness_LoopingScrollsEndOnlyEarly :
    ∃ t, (Ste.waiting blankLoop).scrollState = some blankLoop ∧ blankLoop.loop = true ∧
      step { panel with ste := .waiting blankLoop, inbox := [.expiry true] } = .next t ∧ t.ste = .idle := ⟨_, rfl, rfl, rfl, by decide⟩

theorem witness_OneSweepRunsToCompletion :
    panel.dst = .opened ∧ panel.ste = .idle ∧ panel.dseq = none ∧ panel.io = [] ∧ panel.tokens.headD false = false ∧
      0 < mkRat 1 4 ∧ textOk [0x41, 0x42] = true ∧
      ([0x41, 0x42] ++ List.replicate (4 - [0x41, 0x42].length) 0x20 ++ [0x20, 0x20, 0x20, 0x20]).length - 3 = 5 := by decide

/-- A FLUSH, and a DINIT that succeeds. -/
theorem witness_OscOnComesFromDinitAndDataFromTheBuffer :
    (∃ t, flushNext.constructing = false ∧ step flushNext = .next t ∧ ∀ s', nextAction flushNext ≠ .run .dinit s') ∧
      ∃ t, State.reset.dseq = none ∧ exec .dinit State.reset = .next t ∧ t.dst = .opened := by
  refine ⟨⟨_, rfl, rfl, fun s' h => ?_⟩, ?_⟩
  · have : nextAction flushNext = .run .flush panel := rfl
    rw [this] at h
    cases h
  · refine ⟨_, rfl, rfl, ?_⟩
    rw [dinitSeq_spec rfl]
    simp [State.reset]

end Sys2Proof.Tests
end

section
/-! What a step fetches (00_scope.md R6, 10_state.md R30, 43_scroll.md R184). The rules for the fetch functions, then O5. -/

namespace Sys2Proof.Machine

theorem deliver_of_decode {p : Packet} {i : Instr} (hd : decode p = .ok i) (s : State) : deliver p s = .run i s := by
  simp only [deliver, hd]

theorem takeEvent_packet {s : State} {p : Packet} {rest : List Event} (hin : s.inbox = .packet p :: rest) :
    takeEvent s = deliver p { s with inbox := rest } := by
  simp only [takeEvent, hin]

theorem takeEvent_nil {s : State} (hin : s.inbox = []) : takeEvent s = .move s := by
  simp only [takeEvent, hin]

theorem takeInputOr_input {s : State} {p : Packet} {rest : List Event} (hin : s.inbox = .packet p :: rest)
    (hp : p.fmt = .input) (otherwise : Action) : takeInputOr otherwise s = deliver p { s with inbox := rest } := by
  simp only [takeInputOr, hin, hp, if_true]

/-- In phase SHOW a packet of the CANCEL input is fetched before the show step (R30). -/
theorem nextAction_shows_input {s : State} {p : Packet} {rest : List Event} (hin : s.inbox = .packet p :: rest)
    (hph : s.ste.phase = .shows) (hp : p.fmt = .input) : nextAction s = deliver p { s with inbox := rest } := by
  unfold nextAction
  split
  case h_1 hs => simp [hs, Ste.phase] at hph
  case h_2 => exact takeInputOr_input hin hp _
  case h_3 hs => simp [hs, Ste.phase] at hph

theorem step_of_run {s t : State} {i : Instr} (h : nextAction s = .run i t) : step s = exec i t := by
  simp only [step, h]

theorem step_of_move {s t : State} (h : nextAction s = .move t) : step s = .next t := by
  simp only [step, h]

/-- Settles O5: when STE is not busy the packet is the next event, and in phase SHOW an input packet goes before the show
step; delivered, either runs what it decodes to. -/
theorem stepRunsTheDecodedInstruction : Obligations.StepRunsTheDecodedInstruction := by
  refine ⟨fun s p rest i hin hd hfree => ?_, fun s hin hb => ?_⟩
  · have hfetch : nextAction s = deliver p { s with inbox := rest } := by
      rcases hfree with hb | ⟨hph, hp⟩
      · exact (nextAction_take hb).trans (takeEvent_packet hin)
      · exact nextAction_shows_input hin hph hp
    exact step_of_run (hfetch.trans (deliver_of_decode hd _))
  · exact step_of_move ((nextAction_take hb).trans (takeEvent_nil hin))

end Sys2Proof.Machine
end

section
/-! A change of the state that the display's part does not see commutes with every display instruction and every move of
STE's own, one that LSE's part does not see with every LSE instruction, and one that neither sees with every step. -/

namespace Sys2Proof.Machine

variable {φ : State → State}

/-! ### Answers -/

theorem answer_next {k : State → State} (hk : ∀ s, k (φ s) = φ (k s)) : CommutesAnswer φ fun s => .next (k s) :=
  fun s => congrArg Host.Outcome.next (hk s)

theorem answer_refused (r : Refusal) : CommutesAnswer φ fun _ => .refused r := fun _ => rfl

theorem answer_complete (c : Respects φ) (op res) : CommutesAnswer φ (complete op res) :=
  answer_reply c (k := fun s => s) (fun _ => rfl) _ _ _

theorem answer_raise (c : Respects φ) (op st) : CommutesAnswer φ (raise op st) :=
  answer_reply c (k := fun s => s) (fun _ => rfl) _ _ _

/-- A branch on a condition that the change does not affect. -/
theorem answer_ite {b : State → Prop} [DecidablePred b] {f g : State → Answer} (hb : ∀ s, b (φ s) ↔ b s)
    (hf : CommutesAnswer φ f) (hg : CommutesAnswer φ g) : CommutesAnswer φ fun s => if b s then f s else g s := by
  intro s
  by_cases h : b s
  · simpa only [hb, h, if_true] using hf s
  · simpa only [hb, h, if_false] using hg s

/-! ### The display's instructions -/

section Display
variable (c : RespectsDisplay φ)
include c

theorem buf_com {w : Memory → Memory} (s : State) :
    ({ φ s with buf := w (φ s).buf } : State) = φ { s with buf := w s.buf } := by
  rw [c.buf]; exact (c.setBuf _ _).symm

theorem answer_number (op t j) : CommutesAnswer φ (showNumber op t j) := by
  unfold showNumber
  cases parseSlots t with
  | none => exact answer_refused _
  | some slots => exact answer_finish c.toRespects (commutes_slots c _ _) _

theorem answer_dinit : CommutesAnswer φ execDinit := by
  intro s
  unfold execDinit
  rw [c.dst]
  cases s.dst with
  | uninit => exact answer_finish c.toRespects (commutes_dinit c) _ s
  | _ => rfl

theorem answer_dteardown : CommutesAnswer φ execDteardown := by
  have hfree := answer_dcs c (answer_finish c.toRespects (commutes_dteardown c) (some Op.dteardown))
  intro s
  unfold execDteardown
  rw [c.dst]
  cases s.dst with
  | closed => exact answer_complete c.toRespects _ _ s
  | _ => exact hfree s

theorem answer_scroll (t speed l) : CommutesAnswer φ (execScroll t speed l) := by
  refine answer_dcs c (answer_ite (fun _ => Iff.rfl) (answer_raise c.toRespects _ _) (answer_next fun s => ?_))
  rw [c.tokens]
  let started : Ste := .showing (newScroll t speed l (s.tokens.headD false))
  have htokens := c.setTokens { s with ste := started } s.tokens.tail
  rw [c.setSte s started] at htokens
  exact htokens.symm

theorem answer_cancel : CommutesAnswer φ execCancel := by
  intro s
  unfold execCancel
  rw [c.ste]
  cases s.ste with
  | idle => rfl
  | _ => exact congrArg Host.Outcome.next (c.setSte _ _).symm

/-- No instruction outside LSE sees a change of what is not the display's. -/
theorem exec_commutes_display {i : Instr} (hi : Spec.ofStrip i = false) : CommutesAnswer φ (exec i) := by
  have r := c.toRespects
  cases i with
  | encodeChar => exact answer_complete r _ _
  | dinit => exact answer_dinit c
  | dsetbright =>
    exact answer_dcs c (answer_ite (fun _ => Iff.rfl) (answer_raise r _ _) (answer_finish r (commutes_i2c c _) _))
  | dsetblink => exact answer_dcs c (answer_finish r (commutes_blink c _) _)
  | dclear => exact answer_dcs c (answer_finish r (commutes_clear c) _)
  | flush => exact answer_dcs c (answer_finish r (commutes_flushSeq c) _)
  | setchar p ch d => exact answer_dcs c (answer_reply r (buf_com c (w := putChar p ch d)) _ _ _)
  | bufrd p =>
    refine answer_dcs c (answer_ite (fun _ => Iff.rfl) (answer_raise r _ _) fun s => ?_)
    rw [c.buf]
    exact answer_complete r _ _ s
  | bufwr p v =>
    exact answer_dcs c (answer_ite (fun _ => Iff.rfl) (answer_raise r _ _)
      (answer_reply r (buf_com c (w := fun m => Memory.write m p.toNat v)) _ _ _))
  | disptext => exact answer_dcs c (answer_finish r (commutes_text c _ _) _)
  | dispnum => exact answer_dcs c (answer_number c _ _ _)
  | dispfloat => exact answer_dcs c (answer_number c _ _ _)
  | disphex =>
    exact answer_dcs c (answer_ite (fun _ => Iff.rfl) (answer_complete r _ _) (answer_finish r (commutes_text c _ _) _))
  | dteardown => exact answer_dteardown c
  | scroll => exact answer_scroll c _ _ _
  | cancel => exact answer_cancel c
  | i2cOscOn =>
    exact answer_ite (fun s => by rw [c.constructing]) (answer_finish r (commutes_i2c c _) _) (answer_refused _)
  | i2cBlink => exact answer_dcs c (answer_finish r (commutes_i2c c _) _)
  | i2cBright => exact answer_dcs c (answer_finish r (commutes_i2c c _) _)
  | i2cData =>
    exact answer_ite (fun s => by rw [c.dseq, c.buf]) (answer_finish r (commutes_flushOne c) _) (answer_refused _)
  | segMask => exact answer_ite (fun _ => Iff.rfl) (answer_reply r (k := fun s => s) (fun _ => rfl) _ _ _) (answer_refused _)
  | _ => cases hi

end Display

/-! ### LSE's instructions -/

section Strip
variable (c : RespectsStrip φ)
include c

theorem pix_com {w : List Pixel → List Pixel} (s : State) :
    ({ φ s with pix := w (φ s).pix } : State) = φ { s with pix := w s.pix } := by
  rw [c.pix]; exact (c.setPix _ _).symm

theorem answer_linit : CommutesAnswer φ execLinit := by
  intro s
  unfold execLinit
  rw [c.lst]
  cases s.lst with
  | uninit => exact answer_finish c.toRespects (commutes_linit c) _ s
  | _ => rfl

theorem lteardownSteps_com (s : State) : lteardownSteps (φ s) = φ (lteardownSteps s) := by
  simp only [lteardownSteps, black_com c, commutes_show c _, Run.map, commutes_closePins c _]
  exact (c.setLst _ _).symm

theorem answer_lteardown : CommutesAnswer φ execLteardown := by
  intro s
  unfold execLteardown
  rw [c.lst]
  cases s.lst with
  | uninit => rfl
  | opened => exact answer_reply c.toRespects (lteardownSteps_com c) _ _ _ s
  | closed => exact answer_complete c.toRespects _ _ s

/-- No LSE instruction sees a change of what is not LSE's. -/
theorem exec_commutes_strip {i : Instr} (hi : Spec.ofStrip i = true) : CommutesAnswer φ (exec i) := by
  have r := c.toRespects
  cases i with
  | linit => exact answer_linit c
  | setpixel p x y z f =>
    exact answer_lse c (answer_ite (fun s => by rw [State.nPix_eq, c.pix]; rfl) (answer_raise r _ _)
      (answer_reply r (pix_com c (w := fun q => q.set p.toNat ⟨x, y, z, br5 f⟩)) _ _ _))
  | setall x y z f =>
    exact answer_lse c (answer_ite (fun _ => Iff.rfl) (answer_raise r _ _)
      (answer_reply r (pix_com c (w := List.map fun _ => ⟨x, y, z, br5 f⟩)) _ _ _))
  | lsetbright f =>
    exact answer_lse c (answer_ite (fun _ => Iff.rfl) (answer_raise r _ _)
      (answer_reply r (pix_com c (w := List.map fun p => { p with br := br5 f })) _ _ _))
  | lclear => exact answer_lse c (answer_reply r (black_com c) _ _ _)
  | getpixel =>
    refine answer_lse c (answer_ite (fun s => by rw [State.nPix_eq, c.pix]; rfl) (answer_raise r _ _) fun s => ?_)
    rw [c.pix]
    exact answer_complete r _ _ s
  | lshow => exact answer_lse c (answer_finish r (commutes_show c) _)
  | lteardown => exact answer_lteardown c
  | ledStart => exact answer_lse c (answer_finish r (commutes_sendBits c _) _)
  | ledPixel => exact answer_lse c (answer_finish r (commutes_sendBits c _) _)
  | ledEnd => exact answer_lse c (answer_finish r (commutes_end c) _)
  | ledBitcell => exact answer_lse c (answer_finish r (commutes_sendBit c _) _)
  | _ => cases hi

end Strip

/-! ### Moves and steps -/

/-- The change, made after the choice of the next action. -/
def mapAction (φ : State → State) : Action → Action
  | .run i t => .run i (φ t)
  | .move t => .move (φ t)
  | .reject r => .reject r

theorem deliver_com (p) (s : State) : deliver p (φ s) = mapAction φ (deliver p s) := by
  unfold deliver
  cases decode p <;> rfl

section Display
variable (c : RespectsDisplay φ)
include c

theorem endScroll_com (st) (s : State) : endScroll st (φ s) = φ (endScroll st s) := by
  unfold endScroll
  rw [← c.setSte, reply_com c.toRespects]

theorem showStep_com (S) (s : State) : showStep S (φ s) = φ (showStep S s) := by
  simp only [showStep, commutes_text c _ _ s, Run.map]
  by_cases h : (textSeq (window S.pad S.off) false s).ok
  · rw [if_pos h, if_pos h, c.logWait]
    exact congrArg (State.logWait · S.delay) (c.setSte _ _).symm
  · rw [if_neg h, if_neg h, endScroll_com c]

theorem cancelStep_com (s : State) : cancelStep (φ s) = φ (cancelStep s) := by
  simp only [cancelStep, commutes_clear c s, Run.map, endScroll_com c]

theorem advanceStep_com (S) (s : State) : advanceStep S (φ s) = φ (advanceStep S s) := by
  unfold advanceStep
  split
  · exact (c.setSte _ _).symm
  · split
    · exact (c.setSte _ _).symm
    · exact endScroll_com c _ _

theorem expireStep_com (b) (s : State) : expireStep b (φ s) = φ (expireStep b s) := by
  unfold expireStep
  rw [c.ste]
  cases s.ste with
  | waiting S =>
    by_cases h : S.cancel ∨ b
    · simp only [h, if_true, cancelStep_com c]
    · simp only [h, if_false, advanceStep_com c]
  | _ => rfl

theorem takeEvent_com (s : State) : takeEvent (φ s) = mapAction φ (takeEvent s) := by
  unfold takeEvent
  rw [c.inbox]
  rcases s.inbox with _ | ⟨p | b, rest⟩
  · rfl
  · simp only [← c.setInbox, deliver_com]
  · simp only [← c.setInbox, expireStep_com c, mapAction]

theorem takeInputOr_com (a) (s : State) : takeInputOr (mapAction φ a) (φ s) = mapAction φ (takeInputOr a s) := by
  unfold takeInputOr
  rw [c.inbox]
  rcases s.inbox with _ | ⟨p | b, rest⟩
  · rfl
  · by_cases h : p.fmt = .input
    · simp only [h, if_true, ← c.setInbox, deliver_com]
    · simp only [h, if_false]
  · rfl

theorem nextAction_com (s : State) : nextAction (φ s) = mapAction φ (nextAction s) := by
  unfold nextAction
  rw [c.ste]
  cases s.ste with
  | idle => exact takeEvent_com c s
  | showing S =>
    simp only [showStep_com c]
    exact takeInputOr_com c (.move (showStep S s)) s
  | waiting S =>
    by_cases h : S.cancel
    · simp only [h, if_true, cancelStep_com c, mapAction]
    · simpa only [if_neg h] using takeEvent_com c s

end Display

/-- No step sees a change of what is neither the display's nor LSE's. -/
theorem step_commutes (c : RespectsDisplay φ) (l : RespectsStrip φ) : CommutesAnswer φ step := by
  intro s
  unfold step
  rw [nextAction_com c]
  rcases nextAction s with ⟨i, u⟩ | u | r
  · cases hi : Spec.ofStrip i with
    | true => exact exec_commutes_strip l hi u
    | false => exact exec_commutes_display c hi u
  · rfl
  · rfl

/-- Commuting says where the changed state goes. -/
theorem next_of_commutes {f : State → Answer} {s t : State} (hf : CommutesAnswer φ f) (h : f s = .next t) :
    f (φ s) = .next (φ t) := by
  rw [hf s, h]; rfl

/-- What a change pins, in a state where it is pinned already, is pinned in the next state too: a rule that a part of
the state does not sway leaves that part as it is. -/
theorem fixed_of_commutes {f : State → Answer} {s t : State} (hf : CommutesAnswer φ f) (hs : φ s = s) (h : f s = .next t) :
    φ t = t := by
  have hφ := next_of_commutes hf h
  rw [hs, h] at hφ
  exact (Host.Outcome.next.inj hφ).symm

end Sys2Proof.Machine
end

section
/-! What no rule reads, no rule is swayed by and no rule changes: the histories (10_state.md R34), the pixels outside LSE
(R20) and the display inside LSE (R24). -/

namespace Sys2Proof.Machine

/-! ### The histories -/

/-- Other histories in front of those of a state. -/
def State.historiesInFront (ps : List PinEvent) (bs : List BusEvent) (ws : List Frac) (s : State) : State :=
  s.withHistories (ps ++ s.pinTrace) (bs ++ s.i2cTrace) (ws ++ s.waitTrace)

section
variable (ps : List PinEvent) (bs : List BusEvent) (ws : List Frac)

theorem respects_histories : Respects (State.historiesInFront ps bs ws) := by
  constructor <;> intros <;> rfl

theorem respectsDisplay_histories : RespectsDisplay (State.historiesInFront ps bs ws) := by
  constructor
  case toRespects => exact respects_histories ps bs ws
  case logBus | logWait => intros; simp [State.historiesInFront, State.withHistories, State.logBus, State.logWait]
  all_goals intros; rfl

theorem respectsStrip_histories : RespectsStrip (State.historiesInFront ps bs ws) := by
  constructor
  case toRespects => exact respects_histories ps bs ws
  case logPin => intros; simp [State.historiesInFront, State.withHistories, State.logPin]
  all_goals intros; rfl

theorem step_commutes_histories : CommutesAnswer (State.historiesInFront ps bs ws) step :=
  step_commutes (respectsDisplay_histories ps bs ws) (respectsStrip_histories ps bs ws)

end

/-- Settles O13: histories in front are a change that neither the display nor LSE sees. -/
theorem noRuleReadsTheHistories : Obligations.NoRuleReadsTheHistories := by
  intro s ps bs ws
  have hφ := step_commutes_histories ps bs ws
  exact ⟨fun t h => next_of_commutes hφ h, fun r h => (hφ s).trans (by rw [h]; rfl)⟩

/-- Settles O12: a state is the same state with empty histories, with its own put in front; and so is the state after
the step. -/
theorem historiesOnlyGrow : Obligations.HistoriesOnlyGrow := by
  intro s t h
  let s₀ := s.withHistories [] [] []
  have hs : s = s₀.historiesInFront s.pinTrace s.i2cTrace s.waitTrace := by
    simp [s₀, State.historiesInFront, State.withHistories]
  have hφ := step_commutes_histories s.pinTrace s.i2cTrace s.waitTrace s₀
  rw [← hs, h] at hφ
  cases h₀ : step s₀ with
  | next t₀ =>
    rw [h₀] at hφ
    cases hφ
    exact ⟨⟨_, rfl⟩, ⟨_, rfl⟩, ⟨_, rfl⟩⟩
  | fault f => cases f
  | refused r => rw [h₀] at hφ; cases hφ

/-! ### What LSE owns -/

/-- `s` with what LSE owns (R20 to R23) taken from `o`. -/
def State.withLseOf (o s : State) : State :=
  { s with pix := o.pix, cs := o.cs, dat := o.dat, clk := o.clk, lst := o.lst, lseq := o.lseq, pinTrace := o.pinTrace }

theorem respectsDisplay_lse (o : State) : RespectsDisplay o.withLseOf := by
  constructor
  case toRespects => constructor <;> intros <;> rfl
  all_goals intros; rfl

/-- With LSE's part as in `s` already, only the pixels are new. -/
theorem State.withLseOf_setPix {s t : State} (h : s.withLseOf t = t) (q : List Pixel) :
    ({ s with pix := q } : State).withLseOf t = { t with pix := q } := by
  rw [← h]; rfl

theorem pix_of_withLseOf {s t : State} (h : s.withLseOf t = t) : t.pix = s.pix := (congrArg State.pix h).symm

/-- An instruction outside LSE leaves what LSE owns. -/
theorem exec_display_keeps_lse {i : Instr} {s t : State} (hi : Spec.ofStrip i = false) (h : exec i s = .next t) :
    s.withLseOf t = t :=
  fixed_of_commutes (exec_commutes_display (respectsDisplay_lse s) hi) rfl h

/-- A move of STE's own does not see what LSE owns. -/
theorem nextAction_move_withLseOf {s t : State} (h : nextAction s = .move t) (o : State) :
    nextAction (o.withLseOf s) = .move (o.withLseOf t) := by
  rw [nextAction_com (respectsDisplay_lse o), h]; rfl

/-- A move of STE's own leaves what LSE owns. -/
theorem move_keeps_lse {s t : State} (h : nextAction s = .move t) : s.withLseOf t = t :=
  Action.move.inj ((nextAction_move_withLseOf h s).symm.trans h)

/-! ### What the display owns -/

/-- `s` with what DCS and STE own (R24 to R30) taken from `o`. -/
def State.withDisplayOf (o s : State) : State :=
  { s with
    buf := o.buf, dst := o.dst, ste := o.ste, dseq := o.dseq, constructing := o.constructing, i2cTrace := o.i2cTrace,
    waitTrace := o.waitTrace, tokens := o.tokens }

theorem respectsStrip_display (o : State) : RespectsStrip o.withDisplayOf := by
  constructor
  case toRespects => constructor <;> intros <;> rfl
  all_goals intros; rfl

theorem State.withDisplayOf_setBuf {s t : State} (h : s.withDisplayOf t = t) (m : Memory) :
    ({ s with buf := m } : State).withDisplayOf t = { t with buf := m } := by
  rw [← h]; rfl

theorem sameDisplay_of_withDisplayOf {s t : State} (h : s.withDisplayOf t = t) : s.sameDisplay t := by
  rw [← h]
  exact ⟨fun _ => rfl, rfl, rfl, rfl, rfl, rfl, rfl, rfl⟩

/-- An LSE instruction leaves what the display owns. -/
theorem exec_strip_keeps_display {i : Instr} {s t : State} (hi : Spec.ofStrip i = true) (h : exec i s = .next t) :
    s.withDisplayOf t = t :=
  fixed_of_commutes (exec_commutes_strip (respectsStrip_display s) hi) rfl h

/-- Settles O15: the display is a part that no LSE instruction sees, so none changes it, and another buffer stays. -/
theorem lseNeverTouchesTheDisplay : Obligations.LseNeverTouchesTheDisplay := by
  intro i s t m hi h
  have hkeep := exec_strip_keeps_display hi h
  refine ⟨sameDisplay_of_withDisplayOf hkeep, ?_⟩
  rw [← State.withDisplayOf_setBuf hkeep]
  exact next_of_commutes (exec_commutes_strip (respectsStrip_display { s with buf := m }) hi) h

end Sys2Proof.Machine
end

section
/-! Where a meaning leads: a relation between the states before and after it that replies do not affect, through the
guards, branches and ends of the meanings. -/

namespace Sys2Proof.Machine

/-- The meaning leads from a state only to states related to it. -/
def Leads (R : State → State → Prop) (f : State → Answer) : Prop := ∀ s t, f s = .next t → R s t

/-- A relation that holds where nothing happens, and that a reply does not affect. -/
structure IgnoresReplies (R : State → State → Prop) : Prop where
  refl : ∀ s, R s s
  reply : ∀ {s t : State} (op : Option Byte) (st : Status) (r : Result), R s t → R s (t.reply op st r)

variable {R : State → State → Prop}

theorem leads_next {k : State → State} (hk : ∀ s, R s (k s)) : Leads R fun s => .next (k s) := by
  rintro s t ⟨⟩
  exact hk s

theorem leads_refused (r : Refusal) : Leads R fun _ => .refused r := fun _ _ h => by cases h

theorem leads_ite {b : State → Prop} [DecidablePred b] {f g : State → Answer} (hf : Leads R f) (hg : Leads R g) :
    Leads R fun s => if b s then f s else g s := by
  intro s t h
  by_cases hb : b s
  · exact hf s t (by simpa only [hb, if_true] using h)
  · exact hg s t (by simpa only [hb, if_false] using h)

theorem leads_lse {k : State → Answer} (hk : Leads R k) : Leads R fun s => whenLseOpen s k :=
  fun s t h => hk s t (whenLseOpen_next h).2

theorem leads_dcs {k : State → Answer} (hk : Leads R k) : Leads R fun s => whenDcsFree s k :=
  fun s t h => hk s t (whenDcsFree_next h).2.2

section
variable (c : IgnoresReplies R)
include c

theorem leads_finish {f : State → Run} (hf : ∀ s, R s (f s).st) (op) : Leads R fun s => finish op (f s) :=
  leads_next fun s => c.reply _ _ _ (hf s)

theorem leads_complete {k : State → State} (hk : ∀ s, R s (k s)) (op r) : Leads R fun s => complete op r (k s) :=
  leads_next fun s => c.reply _ _ _ (hk s)

theorem leads_complete_only (op r) : Leads R (complete op r) := leads_complete c c.refl op r

theorem leads_raise (op st) : Leads R (raise op st) := leads_next fun s => c.reply _ _ _ (c.refl s)

end

end Sys2Proof.Machine
end

section
/-! The pixel count (10_state.md R20) and the dead `lseq` (R31) through the instructions of LSE, and who touches the
pixels. -/

namespace Sys2Proof.Machine

/-- The pixel count is the same, and a dead `lseq` stays dead. -/
def StripWfKept (s t : State) : Prop := t.pix.length = s.pix.length ∧ (s.lseq = none → t.lseq = none)

theorem ignoresReplies_stripWfKept : IgnoresReplies StripWfKept := ⟨fun _ => ⟨rfl, id⟩, fun _ _ _ h => h⟩

theorem stripWfKept_setPix {w : List Pixel → List Pixel} (hw : ∀ q, (w q).length = q.length) (s : State) :
    StripWfKept s { s with pix := w s.pix } := ⟨hw _, id⟩

/-- Sending outside SHOW moves no pixel, and `lseq` only where it is live. -/
theorem stripWfKept_sending {f : State → Run} (hf : StripOnly f) (hl : ∀ s, s.lseq = none → (f s).st.lseq = none)
    (s : State) : StripWfKept s (f s).st := by
  obtain ⟨-, hpix, -⟩ := hf s
  exact ⟨by rw [hpix], hl s⟩

theorem endFrame_lseq (s : State) (h : s.lseq = none) : (endFrame s).st.lseq = none :=
  andThen_lseq ((pinWrite_lseq _ _ s).trans h) fun t ht => pulses_lseq _ t ht

theorem showSeq_lseq (s : State) : (showSeq s).st.lseq = none := by rw [showSeq_spec]; rfl

theorem forThreePins_lseq (e : PinEvent) (s : State) : (forThreePins e s).st.lseq = s.lseq := by rw [forThreePins_spec]

theorem stripWfKept_linit (s : State) : StripWfKept s (linitSeq s).st := by
  unfold linitSeq openPins
  rw [forThreePins_spec]
  by_cases h : okCalls 3 s.io = 3
  · simp [h, StripWfKept]
  · simp [h, StripWfKept]

theorem stripWfKept_lteardown (s : State) : StripWfKept s (lteardownSteps s) := by
  obtain ⟨-, hshow, -⟩ := stripOnly_show (blackened s)
  obtain ⟨-, hclose, -⟩ := stripOnly_threePins .pinsClose (showSeq (blackened s)).st
  refine ⟨?_, fun _ => (forThreePins_lseq _ _).trans (showSeq_lseq _)⟩
  calc (lteardownSteps s).pix.length
      = (blackened s).pix.length := congrArg List.length (hclose.trans hshow)
    _ = s.pix.length := by simp [blackened]

theorem leads_linit : Leads StripWfKept execLinit := by
  intro s t h
  unfold execLinit at h
  split at h
  · exact leads_finish ignoresReplies_stripWfKept stripWfKept_linit _ s t h
  · cases h

theorem leads_lteardown : Leads StripWfKept execLteardown := by
  have c := ignoresReplies_stripWfKept
  intro s t h
  unfold execLteardown at h
  split at h
  · exact leads_complete_only c _ _ s t h
  · exact leads_complete c stripWfKept_lteardown _ _ s t h
  · cases h

theorem exec_strip_wfKept {i : Instr} (hi : Spec.ofStrip i = true) : Leads StripWfKept (exec i) := by
  have c := ignoresReplies_stripWfKept
  cases i with
  | linit => exact leads_linit
  | setpixel p x y z f =>
    exact leads_lse (leads_ite (leads_raise c _ _)
      (leads_complete c (stripWfKept_setPix (w := fun q => q.set p.toNat ⟨x, y, z, br5 f⟩) fun _ => List.length_set) _ _))
  | setall => exact leads_lse (leads_ite (leads_raise c _ _) (leads_complete c (stripWfKept_setPix fun _ => List.length_map _) _ _))
  | lsetbright =>
    exact leads_lse (leads_ite (leads_raise c _ _) (leads_complete c (stripWfKept_setPix fun _ => List.length_map _) _ _))
  | lclear => exact leads_lse (leads_complete c (stripWfKept_setPix fun _ => List.length_map _) _ _)
  | getpixel =>
    refine leads_lse (leads_ite (leads_raise c _ _) ?_)
    exact fun s => leads_complete_only c _ _ s
  | lshow => exact leads_lse (leads_finish c (stripWfKept_sending stripOnly_show fun s _ => showSeq_lseq s) _)
  | lteardown => exact leads_lteardown
  | ledStart => exact leads_lse (leads_finish c (stripWfKept_sending (stripOnly_sendBits _) (sendBits_lseq _)) _)
  | ledPixel => exact leads_lse (leads_finish c (stripWfKept_sending (stripOnly_sendBits _) (sendBits_lseq _)) _)
  | ledEnd => exact leads_lse (leads_finish c (stripWfKept_sending stripOnly_end endFrame_lseq) _)
  | ledBitcell => exact leads_lse (leads_finish c (stripWfKept_sending (stripOnly_sendBit _) (sendBit_lseq _)) _)
  | _ => cases hi

theorem exec_pix_length {i : Instr} {s t : State} (h : exec i s = .next t) : t.pix.length = s.pix.length := by
  cases hi : Spec.ofStrip i with
  | false => rw [pix_of_withLseOf (exec_display_keeps_lse hi h)]
  | true => exact (exec_strip_wfKept hi s t h).1

theorem step_pix_length {s t : State} (h : step s = .next t) : t.pix.length = s.pix.length := by
  rcases step_next h with ⟨i, rest, hexec, -⟩ | hmove
  · exact exec_pix_length hexec (s := { s with inbox := rest })
  · rw [pix_of_withLseOf (move_keeps_lse hmove)]

/-- Settles O14: LSE's part is one that the display does not see, so nothing but LSE changes it; and LSE keeps the
count. -/
theorem onlyLseTouchesThePixels : Obligations.OnlyLseTouchesThePixels := by
  refine ⟨fun s t => step_pix_length, fun i s t q hi h => ?_, fun s t q h => ?_⟩
  · have hkeep := exec_display_keeps_lse hi h
    refine ⟨pix_of_withLseOf hkeep, ?_⟩
    rw [← State.withLseOf_setPix hkeep]
    exact next_of_commutes (exec_commutes_display (respectsDisplay_lse { s with pix := q }) hi) h
  · have hkeep := move_keeps_lse h
    refine ⟨pix_of_withLseOf hkeep, ?_⟩
    rw [← State.withLseOf_setPix hkeep]
    exact nextAction_move_withLseOf h { s with pix := q }

end Sys2Proof.Machine
end

section
/-! The invariant (10_state.md R20, R24, R28, R31; 30_encoding.md R86; 42_display.md R134): what LSE does keeps its own
clauses and leaves the others, and every sequence of DCS and STE is legal bus calls on a canonical buffer. -/

namespace Sys2Proof.Machine

/-! ### Updates that keep the invariant -/

/-- The invariant is kept. -/
def InvKept (s t : State) : Prop := s.Inv → t.Inv

theorem ignoresReplies_invKept : IgnoresReplies InvKept :=
  ⟨fun _ => id, fun _ _ _ h hs => { h hs with }⟩

theorem inv_setInbox {s : State} (h : s.Inv) (rest : List Event) : ({ s with inbox := rest } : State).Inv := { h with }

theorem inv_setBuf {s : State} {m : Memory} (h : s.Inv) (hm : Memory.wf m = true) : ({ s with buf := m } : State).Inv :=
  { h with bufWf := hm }

theorem inv_setSte {s : State} {x : Ste} (h : s.Inv) (hx : ({ s with ste := x } : State).scrollWf) :
    ({ s with ste := x } : State).Inv := { h with scrollOk := hx }

theorem scrollWf_idle {s : State} (h : s.ste = .idle) : s.scrollWf := by
  simp only [State.scrollWf, h, Ste.scrollState]

theorem scrollWf_active {s : State} {S : ScrollState} (h : s.ste.scrollState = some S) :
    s.scrollWf ↔ s.dst = .opened ∧ S.wf := by
  simp only [State.scrollWf, h]

theorem State.Inv.scroll {s : State} {S : ScrollState} (h : s.Inv) (hS : s.ste.scrollState = some S) :
    s.dst = .opened ∧ S.wf := (scrollWf_active hS).1 h.scrollOk

theorem inv_setDst_opened {s : State} (h : s.Inv) : ({ s with dst := .opened } : State).Inv := by
  refine { h with scrollOk := ?_ }
  cases hS : s.ste.scrollState with
  | none => simp only [State.scrollWf, hS]
  | some S => exact (scrollWf_active (s := { s with dst := .opened }) hS).2 ⟨rfl, (h.scroll hS).2⟩

/-! ### The sequences of DCS -/

theorem inv_busCalls {es : List BusEvent} (hes : ∀ e ∈ es, BusEvent.legal e = true) {s : State} (h : s.Inv) :
    (busCalls es s).st.Inv := by
  rw [busCalls_spec]
  refine { h with busLegal := fun e he => ?_ }
  rcases List.mem_append.1 he with he | he
  · exact h.busLegal e he
  · exact hes e (List.mem_of_mem_take he)

theorem inv_i2c {bytes : List Byte} (hb : BusEvent.legal (.xfer Config.i2cAddr bytes) = true) (s : State) :
    InvKept s (i2cWrite bytes s).st := fun h => by
  rw [i2cWrite_eq]
  exact inv_busCalls (by simpa using hb) h

theorem inv_flush (s : State) : InvKept s (flushSeq s).st := fun h => by
  rw [flushSeq_calls h.dseqDead]
  exact inv_busCalls (legal_flush _) h

theorem inv_clear (s : State) : InvKept s (clearSeq s).st := fun h =>
  inv_flush _ (inv_setBuf h Memory.wf_zeroed)

theorem inv_slots (slots j) (s : State) : InvKept s (slotsSeq slots j s).st := fun h =>
  inv_flush _ (inv_setBuf h (wf_render slots j))

theorem inv_text (x j) (s : State) : InvKept s (textSeq x j s).st := by
  cases x with
  | nil => exact inv_clear s
  | cons => exact inv_slots _ _ s

theorem inv_blink (rate) (s : State) : InvKept s (blinkSeq rate s).st := fun h => by
  rw [blinkSeq_calls h.dseqDead]
  refine inv_busCalls (fun e he => ?_) h
  rcases List.mem_cons.1 he with rfl | he
  · exact legal_blink rate
  · exact legal_flush _ e he

theorem legal_oscOn : BusEvent.legal (.xfer Config.i2cAddr oscOnBytes) = true := by decide

theorem legal_dinit : ∀ e ∈ dinitCalls, BusEvent.legal e = true := by
  intro e he
  simp only [dinitCalls, List.mem_cons, List.mem_append] at he
  rcases he with rfl | rfl | rfl | he | rfl | he
  · rfl
  · exact legal_oscOn
  · exact legal_blink _
  · split at he
    · exact legal_flush _ e he
    · cases he
  · exact legal_bright _
  · exact legal_flush _ e he

theorem inv_dinit (s : State) : InvKept s (dinitSeq s).st := fun h => by
  have hcalls : (busCalls dinitCalls { s with buf := Memory.zeroed }).st.Inv :=
    inv_busCalls legal_dinit (inv_setBuf h Memory.wf_zeroed)
  rw [busCalls_spec] at hcalls
  rw [dinitSeq_spec h.dseqDead]
  by_cases hk : okCalls dinitCalls.length s.io = dinitCalls.length
  · simp only [if_pos hk]
    exact { inv_setDst_opened hcalls with notConstructing := rfl }
  · simp only [if_neg hk]
    exact { hcalls with notConstructing := rfl }

theorem textSeq_keeps_ste (x j) (s : State) : (textSeq x j s).st.ste = s.ste := by
  cases x <;> simp [textSeq, clearSeq, slotsSeq, flushSeq_spec]

/-- The teardown closes an idle display. -/
theorem inv_dteardown {s : State} (hidle : s.ste = .idle) (h : s.Inv) : (dteardownSeq s).st.Inv := by
  have hcleared := inv_clear s h
  have hreleased : (closeBus (clearSeq s).st).st.Inv := by
    rw [closeBus_eq]
    exact inv_busCalls (by simp [BusEvent.legal]) hcleared
  refine { hreleased with scrollOk := scrollWf_idle ?_ }
  simp [dteardownSeq, closeBus_eq, busCalls_spec, clearSeq, flushSeq_spec, hidle]

/-! ### The instructions outside LSE -/

theorem leads_inv_number (op x j) : Leads InvKept (showNumber op x j) := by
  unfold showNumber
  cases parseSlots x with
  | none => exact leads_refused _
  | some slots => exact leads_finish ignoresReplies_invKept (inv_slots _ _) _

theorem leads_inv_dinit : Leads InvKept execDinit := by
  intro s t h
  unfold execDinit at h
  split at h
  · exact leads_finish ignoresReplies_invKept inv_dinit _ s t h
  · cases h

theorem leads_inv_dteardown : Leads InvKept execDteardown := by
  have c := ignoresReplies_invKept
  intro s t h
  unfold execDteardown at h
  split at h
  · exact leads_complete_only c _ _ s t h
  · obtain ⟨-, hidle, hend⟩ := whenDcsFree_next h
    rw [finish_next] at hend
    subst hend
    exact c.reply _ _ _ (inv_dteardown hidle)

theorem newScroll_wf (x : Text) {speed : Frac} (l token : Bool) (hspeed : 0 < speed) : (newScroll x speed l token).wf :=
  ⟨rfl, by simpa [newScroll] using padText_length x l, by simpa [newScroll, delay_eq] using hspeed⟩

theorem leads_inv_scroll (x speed l) : Leads InvKept (execScroll x speed l) := by
  intro s t h hs
  obtain ⟨hopen, -, hrun⟩ := whenDcsFree_next h
  split at hrun
  · exact leads_raise ignoresReplies_invKept _ _ s t hrun hs
  · next hspeed =>
    rw [Bool.not_eq_true, speedOutOfRange_eq_false] at hspeed
    cases hrun
    exact { hs with scrollOk := (scrollWf_active rfl).2 ⟨hopen, newScroll_wf x l _ hspeed⟩ }

theorem leads_inv_cancel : Leads InvKept execCancel := by
  intro s t h hs
  unfold execCancel at h
  split at h <;> cases h
  case h_1 => exact hs
  case h_2 S hS => exact inv_setSte hs (hs.scroll (S := S) (congrArg Ste.scrollState hS))
  case h_3 S hS => exact inv_setSte hs (hs.scroll (S := S) (congrArg Ste.scrollState hS))

theorem leads_inv_bufwr (p v) : Leads InvKept (execBufwr p v) := by
  refine leads_dcs fun s t h hs => ?_
  split at h
  · exact leads_raise ignoresReplies_invKept _ _ s t h hs
  · next hp =>
    rw [Bool.not_eq_true, outOfRange_eq_false] at hp
    rw [complete_next] at h
    subst h
    exact ignoresReplies_invKept.reply _ _ _ (fun h => inv_setBuf h (Memory.wf_write v h.bufWf (by omega))) hs

/-- I2C.DATA has a meaning only where a flush is under way, which it never is between steps. -/
theorem leads_inv_data (p v) : Leads InvKept (execI2cData p v) := by
  intro s t h hs
  unfold execI2cData at h
  rw [if_neg (by simp [hs.dseqDead])] at h
  cases h

theorem exec_display_invKept {i : Instr} (hi : Spec.ofStrip i = false) : Leads InvKept (exec i) := by
  have c := ignoresReplies_invKept
  cases i with
  | encodeChar => exact leads_complete_only c _ _
  | dinit => exact leads_inv_dinit
  | dsetbright => exact leads_dcs (leads_ite (leads_raise c _ _) (leads_finish c (inv_i2c (legal_bright _)) _))
  | dsetblink => exact leads_dcs (leads_finish c (inv_blink _) _)
  | dclear => exact leads_dcs (leads_finish c inv_clear _)
  | flush => exact leads_dcs (leads_finish c inv_flush _)
  | setchar => exact leads_dcs (leads_complete c (fun s h => inv_setBuf h (wf_putChar _ _ _ h.bufWf)) _ _)
  | bufrd =>
    refine leads_dcs (leads_ite (leads_raise c _ _) ?_)
    exact fun s => leads_complete_only c _ _ s
  | bufwr => exact leads_inv_bufwr _ _
  | disptext => exact leads_dcs (leads_finish c (inv_text _ _) _)
  | dispnum => exact leads_dcs (leads_inv_number _ _ _)
  | dispfloat => exact leads_dcs (leads_inv_number _ _ _)
  | disphex => exact leads_dcs (leads_ite (leads_complete_only c _ _) (leads_finish c (inv_text _ _) _))
  | dteardown => exact leads_inv_dteardown
  | scroll => exact leads_inv_scroll _ _ _
  | cancel => exact leads_inv_cancel
  | i2cOscOn => exact leads_ite (leads_finish c (inv_i2c legal_oscOn) _) (leads_refused _)
  | i2cBlink => exact leads_dcs (leads_finish c (inv_i2c (legal_blink _)) _)
  | i2cBright => exact leads_dcs (leads_finish c (inv_i2c (legal_bright _)) _)
  | i2cData => exact leads_inv_data _ _
  | segMask => exact leads_ite (leads_next fun s => c.reply _ _ _ (c.refl s)) (leads_refused _)
  | _ => cases hi

/-! ### The instructions of LSE -/

/-- With the display's part as it was, the pixel count and the dead `lseq` are all that is left to keep. -/
theorem inv_of_withDisplayOf {s t : State} (hkeep : s.withDisplayOf t = t) (hwf : StripWfKept s t) (h : s.Inv) : t.Inv := by
  obtain ⟨hcount, hlseq⟩ := hwf
  rw [← hkeep]
  exact { h with pixCount := hcount.trans h.pixCount, lseqDead := hlseq h.lseqDead }

theorem exec_invKept (i : Instr) : Leads InvKept (exec i) := by
  cases hi : Spec.ofStrip i with
  | false => exact exec_display_invKept hi
  | true => exact fun s t h => inv_of_withDisplayOf (exec_strip_keeps_display hi h) (exec_strip_wfKept hi s t h)

/-! ### The moves of STE -/

theorem inv_endScroll (st) {s : State} (h : s.Inv) : (endScroll st s).Inv :=
  ignoresReplies_invKept.reply _ _ _ (fun h => inv_setSte h (scrollWf_idle rfl)) h

theorem inv_cancelStep {s : State} (h : s.Inv) : (cancelStep s).Inv := inv_endScroll _ (inv_clear s h)

theorem inv_showStep {s : State} {S : ScrollState} (hS : s.ste = .showing S) (h : s.Inv) : (showStep S s).Inv := by
  have hshown := inv_text (window S.pad S.off) false s h
  have hste : (textSeq (window S.pad S.off) false s).st.ste.scrollState = some S := by
    rw [textSeq_keeps_ste, hS]; rfl
  simp only [showStep]
  split
  · have hwait := inv_setSte (x := .waiting S) hshown (hshown.scroll hste)
    exact { hwait with }
  · exact inv_endScroll _ hshown

theorem inv_advanceStep {s : State} {S : ScrollState} (hS : s.ste = .waiting S) (h : s.Inv) : (advanceStep S s).Inv := by
  obtain ⟨hopen, hpad, hoff, hdelay⟩ := h.scroll (congrArg Ste.scrollState hS)
  unfold advanceStep
  split
  · exact inv_setSte h ⟨hopen, hpad, show S.off + 1 + 4 ≤ S.pad.length by omega, hdelay⟩
  · split
    · exact inv_setSte h ⟨hopen, hpad, show 0 + 4 ≤ S.pad.length by omega, hdelay⟩
    · exact inv_endScroll _ h

theorem move_invKept {s t : State} (h : nextAction s = .move t) : InvKept s t := by
  intro hs
  rcases move_cases h with rfl | ⟨b, rest, -, -, rfl⟩ | ⟨S, hS, rfl⟩ | ⟨S, -, -, rfl⟩ | ⟨S, b, rest, hS, -, -, rfl⟩
  · exact hs
  · exact inv_setInbox hs rest
  · exact inv_showStep hS hs
  · exact inv_cancelStep hs
  · split
    · exact inv_cancelStep (inv_setInbox hs rest)
    · exact inv_advanceStep hS (inv_setInbox hs rest)

/-! ### Reset and steps -/

/-- Settles O8: nothing has been sent, nothing is under way, and the seven pixels are there. -/
theorem resetMeetsTheInvariant : Obligations.ResetMeetsTheInvariant where
  pixCount := List.length_replicate
  bufWf := Memory.wf_zeroed
  lseqDead := rfl
  dseqDead := rfl
  notConstructing := rfl
  scrollOk := scrollWf_idle rfl
  busLegal := List.forall_mem_nil _

/-- Settles O10: the instruction a step fetches keeps the invariant, and so does a move of STE's own. -/
theorem everyStepKeepsTheInvariant : Obligations.EveryStepKeepsTheInvariant := by
  intro s t hs h
  rcases step_next h with ⟨i, rest, hexec, -⟩ | hmove
  · exact exec_invKept i _ t hexec (inv_setInbox hs rest)
  · exact move_invKept hmove hs

end Sys2Proof.Machine
end

section
/-! The reset values (10_state.md R36) and the I2C items (30_encoding.md R80 to R83). -/

namespace Sys2Proof.Machine

/-- Settles O7: the definition of reset, field by field; its buffer lists no position. -/
theorem resetIsBeforeConstruction : Obligations.ResetIsBeforeConstruction :=
  ⟨rfl, Memory.read_nil, rfl, rfl, rfl, rfl, rfl, rfl, rfl, rfl⟩

/-- An operation whose calls are a list of bus calls sends them and reports how they went. -/
theorem finish_busCalls (op : Option Byte) (es : List BusEvent) (s : State) :
    finish op (busCalls es s) = .next (Spec.sentReply op es s) := by
  simp [finish, busCalls_spec, Spec.sentReply, Spec.sent, Spec.ioStatus, Run.status]

theorem finish_i2cWrite (op : Option Byte) (bytes : List Byte) (s : State) :
    finish op (i2cWrite bytes s) = .next (Spec.sentReply op [.xfer 0x70#8 bytes] s) := by
  rw [i2cWrite_eq, finish_busCalls]; rfl

theorem brightBytes_eq : ∀ level : BitVec 4, brightBytes level = [BitVec.ofNat 8 (0xE0 + level.toNat)] := by decide

/-- Settles O50: each item is the call of its sequence; I2C.DATA moves `dseq` on when the call succeeds. -/
theorem i2cItemsSendTheirTransaction : Obligations.I2cItemsSendTheirTransaction := by
  refine ⟨fun s hc => ?_, fun s p v hd hv => ?_, fun s hopen hidle => ⟨fun rate => ?_, fun level => ?_⟩⟩
  · exact (if_pos hc).trans (finish_i2cWrite none oscOnBytes s)
  · subst hv
    refine (if_pos ⟨hd, rfl⟩).trans ?_
    rw [flushOne_spec hd]
    simp [finish, Run.status, Spec.sentReply, Spec.sent, Spec.ioStatus, State.reply, flushEvent, dataBytes, Config.i2cAddr]
  · rw [exec, execI2cBlink, whenDcsFree_free hopen hidle, finish_i2cWrite]
    cases rate <;> rfl
  · rw [exec, execI2cBright, whenDcsFree_free hopen hidle, finish_i2cWrite, brightBytes_eq]; rfl

end Sys2Proof.Machine
end

section
/-! What a step puts on the bus (20_memory.md R50; 30_encoding.md R80 to R83): with the buffer it leaves, and the
oscillator-on command only from DINIT. -/

namespace Sys2Proof.Machine

/-! ### What is sent while the buffer is `m` -/

/-- A transaction or lifecycle event with the buffer `m`; the oscillator-on command only where `osc` holds (R80). -/
inductive Emitted (osc : Prop) (m : Memory) : BusEvent → Prop
  | busOpen : Emitted osc m .busOpen
  | busClose : Emitted osc m .busClose
  | oscOn (h : osc) : Emitted osc m (.xfer Config.i2cAddr oscOnBytes)
  | blink (rate : BlinkRate) : Emitted osc m (.xfer Config.i2cAddr (blinkBytes rate))
  | bright (level : BitVec 4) : Emitted osc m (.xfer Config.i2cAddr (brightBytes level))
  | data {p : Nat} (hp : p < Config.bufLen) : Emitted osc m (flushEvent m p)

theorem blinkBytes_ne_oscOn (rate : BlinkRate) : blinkBytes rate ≠ [0x21#8] := by cases rate <;> decide

theorem brightBytes_ne_oscOn : ∀ level : BitVec 4, brightBytes level ≠ [0x21#8] := by decide

theorem not_emitted_oscOn (m : Memory) : ¬ Emitted False m (Spec.command 0x21#8) := by
  intro h
  generalize he : Spec.command 0x21#8 = e at h
  cases h with
  | oscOn h => exact h
  | blink rate => exact blinkBytes_ne_oscOn rate (BusEvent.xfer.inj he).2.symm
  | bright level => exact brightBytes_ne_oscOn level (BusEvent.xfer.inj he).2.symm
  | data => simp [Spec.command, flushEvent, dataBytes] at he
  | _ => cases he

/-- Only a flush sends two bytes: a position 0..15 and the byte that the buffer holds there (R50, R83). -/
theorem Emitted.of_two_bytes {osc : Prop} {m : Memory} {a p v : Byte} (h : Emitted osc m (.xfer a [p, v])) :
    a = 0x70#8 ∧ p ≤ 0x0F#8 ∧ v = Memory.read m p.toNat := by
  generalize he : BusEvent.xfer a [p, v] = e at h
  cases h with
  | @data q hp =>
    simp only [Config.bufLen] at hp
    have hq : ((BitVec.ofNat 4 q).setWidth 8).toNat = q := by
      rw [BitVec.toNat_setWidth, BitVec.toNat_ofNat]; omega
    cases he
    exact ⟨rfl, BitVec.le_def.2 (hq.trans_le (Nat.le_of_lt_succ hp)), by rw [hq]⟩
  | _ => cases he

theorem emitted_flush {osc : Prop} (m : Memory) : ∀ e ∈ flushEvents m, Emitted osc m e := by
  simp only [flushEvents, List.mem_map, List.mem_range]
  rintro _ ⟨p, hp, rfl⟩
  exact .data hp

/-! ### Sequences of calls -/

/-- From `s` to `t`, the bus history grows by what may be sent with the buffer that `t` holds. -/
def Emits (osc : Prop) (s t : State) : Prop :=
  ∃ es, t.i2cTrace = s.i2cTrace ++ es ∧ ∀ e ∈ es, Emitted osc t.buf e

variable {osc : Prop}

theorem emits_nothing {s t : State} (h : t.i2cTrace = s.i2cTrace) : Emits osc s t :=
  ⟨[], by simpa using h, List.forall_mem_nil _⟩

theorem emits_setBuf (s : State) (m : Memory) : Emits osc s { s with buf := m } := emits_nothing rfl

theorem Emits.trans {s t u : State} (hst : Emits osc s t) (hbuf : u.buf = t.buf) (htu : Emits osc t u) : Emits osc s u := by
  obtain ⟨es, hes, hem⟩ := hst
  obtain ⟨fs, hfs, hfm⟩ := htu
  refine ⟨es ++ fs, by rw [hfs, hes, List.append_assoc], fun e he => ?_⟩
  rcases List.mem_append.1 he with he | he
  · exact hbuf ▸ hem e he
  · exact hfm e he

theorem ignoresReplies_emits : IgnoresReplies (Emits osc) := ⟨fun _ => emits_nothing rfl, fun _ _ _ h => h⟩

/-- With the buffer `m`, the sequence sends what may be sent with it, and leaves it. -/
def EmitsWith (osc : Prop) (m : Memory) (f : State → Run) : Prop :=
  ∀ s, s.buf = m → (f s).st.buf = m ∧ Emits osc s (f s).st

variable {m : Memory}

theorem emitsWith_busCalls {es : List BusEvent} (hes : ∀ e ∈ es, Emitted osc m e) : EmitsWith osc m (busCalls es) := by
  rintro s rfl
  rw [busCalls_spec]
  exact ⟨rfl, _, rfl, fun e he => hes e (List.mem_of_mem_take he)⟩

theorem emitsWith_openBus : EmitsWith osc m openBus := by
  rw [funext openBus_eq]
  exact emitsWith_busCalls (by simpa using .busOpen)

theorem emitsWith_closeBus : EmitsWith osc m closeBus := by
  rw [funext closeBus_eq]
  exact emitsWith_busCalls (by simpa using .busClose)

theorem emitsWith_i2c {bytes : List Byte} (hb : Emitted osc m (.xfer Config.i2cAddr bytes)) :
    EmitsWith osc m (i2cWrite bytes) := by
  rw [funext (i2cWrite_eq bytes)]
  exact emitsWith_busCalls (by simpa using hb)

theorem emitsWith_flush : EmitsWith osc m flushSeq := by
  rintro s rfl
  rw [flushSeq_eq]
  exact emitsWith_busCalls (emitted_flush s.buf) { s with dseq := none } rfl

theorem emitsWith_andThen {f g : State → Run} (hf : EmitsWith osc m f) (hg : EmitsWith osc m g) :
    EmitsWith osc m fun s => (f s).andThen g := by
  intro s hs
  have h := hf s hs
  rcases hr : f s with ⟨t, _ | _⟩
  · simpa [hr] using h
  · rw [hr] at h
    obtain ⟨htbuf, hemits⟩ := h
    obtain ⟨hubuf, hrest⟩ := hg t htbuf
    simp only [hr, Run.andThen_true]
    exact ⟨hubuf, hemits.trans (hubuf.trans htbuf.symm) hrest⟩

theorem emitsWith_blink (rate : BlinkRate) : EmitsWith osc m (blinkSeq rate) :=
  emitsWith_andThen (emitsWith_i2c (.blink rate)) emitsWith_flush

theorem emitsWith_clear : EmitsWith osc Memory.zeroed clearSeq := fun s _ =>
  emitsWith_flush { s with buf := Memory.zeroed } rfl

theorem EmitsWith.emits {f : State → Run} (h : ∀ m, EmitsWith osc m f) (s : State) : Emits osc s (f s).st :=
  (h s.buf s rfl).2

theorem emits_i2c {bytes : List Byte} (hb : ∀ m, Emitted osc m (.xfer Config.i2cAddr bytes)) (s : State) :
    Emits osc s (i2cWrite bytes s).st := EmitsWith.emits (fun m => emitsWith_i2c (hb m)) s

theorem emits_flush (s : State) : Emits osc s (flushSeq s).st := EmitsWith.emits (fun _ => emitsWith_flush) s

theorem emits_blink (rate : BlinkRate) (s : State) : Emits osc s (blinkSeq rate s).st :=
  EmitsWith.emits (fun _ => emitsWith_blink rate) s

theorem emits_clear (s : State) : Emits osc s (clearSeq s).st := emits_flush { s with buf := Memory.zeroed }

theorem emits_slots (slots : List Slot) (j : Bool) (s : State) : Emits osc s (slotsSeq slots j s).st :=
  emits_flush { s with buf := render slots j }

theorem emits_text (x : Text) (j : Bool) (s : State) : Emits osc s (textSeq x j s).st := by
  cases x with
  | nil => exact emits_clear s
  | cons => exact emits_slots _ _ s

/-- The calls of DINIT after it has zeroed the buffer, whatever `dseq` was. -/
theorem emits_dinit (hosc : osc) (s : State) : Emits osc s (dinitSeq s).st := by
  have hblink : EmitsWith osc Memory.zeroed fun s =>
      if Config.initBlinkFlush then blinkSeq .off s else i2cWrite (blinkBytes .off) s := by
    split
    · exact emitsWith_blink _
    · exact emitsWith_i2c (.blink _)
  have hopened : EmitsWith osc Memory.zeroed fun s => ⟨{ s with dst := .opened }, true⟩ := fun _ hs =>
    ⟨hs, emits_nothing rfl⟩
  have hbody := emitsWith_andThen emitsWith_openBus (emitsWith_andThen (emitsWith_i2c (.oscOn hosc))
    (emitsWith_andThen hblink (emitsWith_andThen (emitsWith_i2c (.bright 15#4)) (emitsWith_andThen emitsWith_clear hopened))))
  exact (hbody { s with constructing := true, buf := Memory.zeroed } rfl).2

theorem emits_dteardown (s : State) : Emits osc s (dteardownSeq s).st := by
  obtain ⟨hbuf, hclose⟩ := emitsWith_closeBus (clearSeq s).st rfl
  exact (emits_clear s).trans hbuf hclose

/-! ### The instructions -/

theorem leads_emits_number (op : Byte) (x : Text) (j : Bool) : Leads (Emits osc) (showNumber op x j) := by
  unfold showNumber
  cases parseSlots x with
  | none => exact leads_refused _
  | some slots => exact leads_finish ignoresReplies_emits (emits_slots _ _) _

theorem leads_emits_dinit (hosc : osc) : Leads (Emits osc) execDinit := by
  intro s t h
  unfold execDinit at h
  split at h
  · exact leads_finish ignoresReplies_emits (emits_dinit hosc) _ s t h
  · cases h

theorem leads_emits_dteardown : Leads (Emits osc) execDteardown := by
  have c := ignoresReplies_emits (osc := osc)
  intro s t h
  unfold execDteardown at h
  split at h
  · exact leads_complete_only c _ _ s t h
  · exact leads_dcs (leads_finish c emits_dteardown _) s t h

theorem leads_emits_cancel : Leads (Emits osc) execCancel := by
  intro s t h
  unfold execCancel at h
  split at h <;> cases h <;> exact emits_nothing rfl

/-- I2C.DATA sends the transaction of its position, with the buffer's byte. -/
theorem leads_emits_data (p : BitVec 4) (v : Byte) : Leads (Emits osc) (execI2cData p v) := by
  intro s t h
  unfold execI2cData at h
  split at h
  · next hp =>
    obtain ⟨hdseq, -⟩ := hp
    rw [flushOne_spec hdseq, finish_next] at h
    subst h
    refine ⟨_, rfl, fun e he => ?_⟩
    rw [List.mem_singleton.1 (List.mem_of_mem_take he)]
    exact .data p.isLt
  · cases h

theorem exec_display_emits {i : Instr} (hi : Spec.ofStrip i = false) (hosc : i = .dinit ∨ i = .i2cOscOn → osc) :
    Leads (Emits osc) (exec i) := by
  have c := ignoresReplies_emits (osc := osc)
  cases i with
  | encodeChar => exact leads_complete_only c _ _
  | dinit => exact leads_emits_dinit (hosc (.inl rfl))
  | dsetbright => exact leads_dcs (leads_ite (leads_raise c _ _) (leads_finish c (emits_i2c fun _ => .bright _) _))
  | dsetblink => exact leads_dcs (leads_finish c (emits_blink _) _)
  | dclear => exact leads_dcs (leads_finish c emits_clear _)
  | flush => exact leads_dcs (leads_finish c emits_flush _)
  | setchar => exact leads_dcs (leads_complete c (fun s => emits_setBuf s _) _ _)
  | bufrd =>
    refine leads_dcs (leads_ite (leads_raise c _ _) ?_)
    exact fun s => leads_complete_only c _ _ s
  | bufwr => exact leads_dcs (leads_ite (leads_raise c _ _) (leads_complete c (fun s => emits_setBuf s _) _ _))
  | disptext => exact leads_dcs (leads_finish c (emits_text _ _) _)
  | dispnum => exact leads_dcs (leads_emits_number _ _ _)
  | dispfloat => exact leads_dcs (leads_emits_number _ _ _)
  | disphex => exact leads_dcs (leads_ite (leads_complete_only c _ _) (leads_finish c (emits_text _ _) _))
  | dteardown => exact leads_emits_dteardown
  | scroll => exact leads_dcs (leads_ite (leads_raise c _ _) (leads_next fun _ => emits_nothing rfl))
  | cancel => exact leads_emits_cancel
  | i2cOscOn => exact leads_ite (leads_finish c (emits_i2c fun _ => .oscOn (hosc (.inr rfl))) _) (leads_refused _)
  | i2cBlink => exact leads_dcs (leads_finish c (emits_i2c fun _ => .blink _) _)
  | i2cBright => exact leads_dcs (leads_finish c (emits_i2c fun _ => .bright _) _)
  | i2cData => exact leads_emits_data _ _
  | segMask => exact leads_ite (leads_next fun s => c.reply _ _ _ (c.refl s)) (leads_refused _)
  | _ => cases hi

theorem exec_emits {i : Instr} (hosc : i = .dinit ∨ i = .i2cOscOn → osc) : Leads (Emits osc) (exec i) := by
  cases hi : Spec.ofStrip i with
  | false => exact exec_display_emits hi hosc
  | true =>
    exact fun s t h => emits_nothing (congrArg State.i2cTrace (exec_strip_keeps_display hi h)).symm

theorem execI2cOscOn_next {s t : State} (h : execI2cOscOn s = .next t) : s.constructing = true := by
  unfold execI2cOscOn at h
  split at h
  · assumption
  · cases h

/-! ### The moves of STE, and steps -/

theorem emits_showStep (S : ScrollState) (s : State) : Emits osc s (showStep S s) := by
  have hshown := emits_text (osc := osc) (window S.pad S.off) false s
  simp only [showStep]
  split <;> exact hshown

theorem emits_cancelStep (s : State) : Emits osc s (cancelStep s) := emits_clear s

theorem emits_advanceStep (S : ScrollState) (s : State) : Emits osc s (advanceStep S s) := by
  unfold advanceStep
  split
  · exact emits_nothing rfl
  · split <;> exact emits_nothing rfl

theorem move_emits {s t : State} (h : nextAction s = .move t) : Emits osc s t := by
  rcases move_cases h with rfl | ⟨b, rest, -, -, rfl⟩ | ⟨S, -, rfl⟩ | ⟨S, -, -, rfl⟩ | ⟨S, b, rest, -, -, -, rfl⟩
  · exact emits_nothing rfl
  · exact emits_nothing rfl
  · exact emits_showStep S s
  · exact emits_cancelStep s
  · split
    · exact emits_cancelStep { s with inbox := rest }
    · exact emits_advanceStep S { s with inbox := rest }

/-- A step sends the oscillator-on command only if it runs DINIT, or I2C.OSC_ON while a DINIT is under way. -/
theorem step_emits {s t : State} (h : step s = .next t)
    (hosc : (∃ s', nextAction s = .run .dinit s') ∨ s.constructing = true → osc) : Emits osc s t := by
  rcases step_next h with ⟨i, rest, hexec, hrun⟩ | hmove
  · refine exec_emits (fun hi => hosc ?_) { s with inbox := rest } t hexec
    rcases hi with rfl | rfl
    · exact .inl ⟨_, hrun⟩
    · exact .inr (execI2cOscOn_next (s := { s with inbox := rest }) hexec)
  · exact move_emits hmove

/-! ### A DINIT that succeeds -/

/-- A DINIT that opens the display has made all its calls (R130). -/
theorem execDinit_opened {s t : State} (hdseq : s.dseq = none) (h : execDinit s = .next t) (hopen : t.dst = .opened) :
    t.i2cTrace = s.i2cTrace ++ dinitCalls := by
  unfold execDinit at h
  split at h
  · next huninit =>
    rw [dinitSeq_spec hdseq, finish_next] at h
    subst h
    by_cases hall : okCalls dinitCalls.length s.io = dinitCalls.length
    · simp [hall]
    · simp [hall, huninit] at hopen
  · cases h

/-- DINIT opens the bus, sends the oscillator-on command, and then no other (R130). -/
theorem dinitCalls_eq :
    ∃ es, dinitCalls = .busOpen :: Spec.command 0x21#8 :: es ∧ ∀ e ∈ es, Emitted False Memory.zeroed e := by
  refine ⟨_, rfl, fun e he => ?_⟩
  simp only [List.mem_cons, List.mem_append] at he
  rcases he with rfl | he | rfl | he
  · exact .blink _
  · split at he
    · exact emitted_flush _ e he
    · cases he
  · exact .bright _
  · exact emitted_flush _ e he

/-- Settles O60: every event a step adds is one that may be sent with the buffer it leaves, the oscillator-on command only
from DINIT; and a DINIT that succeeds has made its calls in order. -/
theorem oscOnComesFromDinitAndDataFromTheBuffer : Obligations.OscOnComesFromDinitAndDataFromTheBuffer := by
  refine ⟨fun s t hidle h hdinit => ?_, fun s t hdseq h hopen => ?_, fun s t h => ?_⟩
  · have hosc : ¬ ((∃ s', nextAction s = .run .dinit s') ∨ s.constructing = true) := by simp [hdinit, hidle]
    obtain ⟨es, hes, hem⟩ := step_emits h hosc
    exact ⟨es, hes, fun hmem => not_emitted_oscOn _ (hem _ hmem)⟩
  · obtain ⟨es, hcalls, hem⟩ := dinitCalls_eq
    exact ⟨es, hcalls ▸ execDinit_opened hdseq h hopen, fun hmem => not_emitted_oscOn _ (hem _ hmem)⟩
  · obtain ⟨es, hes, hem⟩ := step_emits (osc := True) h fun _ => trivial
    exact ⟨es, hes, fun a p v hmem => (hem _ hmem).of_two_bytes⟩

end Sys2Proof.Machine
end

section
/-! The packets (30_encoding.md R71 to R85): every instruction through its own round trip; and back, format by format. -/

namespace Sys2Proof

open Laws in
/-- Settles O1: by the round trip of each row of the table. -/
theorem decodingInvertsEncoding : Obligations.DecodingInvertsEncoding := fun i =>
  match i with
  | .linit => RoundTrip.linit
  | .setpixel index r g b f => RoundTrip.setpixel index r g b f
  | .setall r g b f => RoundTrip.setall r g b f
  | .lsetbright f => RoundTrip.lsetbright f
  | .lclear => RoundTrip.lclear
  | .getpixel index => RoundTrip.getpixel index
  | .lshow => RoundTrip.lshow
  | .lteardown => RoundTrip.lteardown
  | .encodeChar c => RoundTrip.encodeChar c
  | .dinit => RoundTrip.dinit
  | .dsetbright f => RoundTrip.dsetbright f
  | .dsetblink rate => RoundTrip.dsetblink rate
  | .dclear => RoundTrip.dclear
  | .flush => RoundTrip.flush
  | .setchar p c d => RoundTrip.setchar p c d
  | .bufrd p => RoundTrip.bufrd p
  | .bufwr p v => RoundTrip.bufwr p v
  | .disptext t j => RoundTrip.disptext t j
  | .dispnum t j => RoundTrip.dispnum t j
  | .dispfloat v n j => RoundTrip.dispfloat v n j
  | .disphex v j => RoundTrip.disphex v j
  | .dteardown => RoundTrip.dteardown
  | .scroll t f l => RoundTrip.scroll t f l
  | .cancel => RoundTrip.cancel
  | .i2cOscOn => RoundTrip.i2cOscOn
  | .i2cBlink rate => RoundTrip.i2cBlink rate
  | .i2cBright level => RoundTrip.i2cBright level
  | .i2cData p v => RoundTrip.i2cData p v
  | .ledStart => RoundTrip.ledStart
  | .ledPixel br b g r => RoundTrip.ledPixel br b g r
  | .ledEnd => RoundTrip.ledEnd
  | .ledBitcell bit => RoundTrip.ledBitcell bit
  | .segMask m => RoundTrip.segMask m

/-! ### What each format's decoder accepts is what the encoder writes in it -/

/-- `i` is well-formed, and `p` is its packet. -/
def IsPacketOf (p : Packet) (i : Instr) : Prop := i.wellFormed = true ∧ encode i = p

variable {bs : List Byte} {i : Instr}

theorem decodeRecord_canonical (h : decodeRecord bs = .ok i) : IsPacketOf ⟨.op, bs⟩ i := by
  unfold decodeRecord at h
  split at h
  next => cases h
  next number operands =>
    split at h
    next => cases h
    next hop =>
      cases h
      obtain ⟨hwf, ops, henc, hops⟩ := decodeOp_canonical hop
      rw [List.append_nil] at hops
      exact ⟨hwf, hops ▸ henc⟩
    next => cases h

theorem decodeInput_canonical (h : decodeInput bs = .ok i) : IsPacketOf ⟨.input, bs⟩ i := by
  unfold decodeInput at h
  split at h
  next => cases h; exact ⟨rfl, rfl⟩
  next => cases h

theorem decodeI2c1_canonical (h : decodeI2c1 bs = .ok i) : IsPacketOf ⟨.i2c1, bs⟩ i := by
  unfold decodeI2c1 at h
  split at h
  next b =>
    split_ifs at h with hosc hblink hbright
    · cases h; subst hosc; exact ⟨rfl, rfl⟩
    · cases h; exact ⟨rfl, by rw [encode, blinkBytes, i2c1_blink b hosc hblink]⟩
    · cases h; exact ⟨rfl, by rw [encode, brightBytes, i2c1_bright b hbright]⟩
  next => cases h

theorem decodeI2c2_canonical (h : decodeI2c2 bs = .ok i) : IsPacketOf ⟨.i2c2, bs⟩ i := by
  unfold decodeI2c2 at h
  split at h
  next p v =>
    split_ifs at h with hpos
    cases h
    exact ⟨rfl, by rw [encode, dataBytes, i2c2_pos p hpos]⟩
  next => cases h

theorem decodeLedFrame_canonical (h : decodeLedFrame bs = .ok i) : IsPacketOf ⟨.ledFrame, bs⟩ i := by
  unfold decodeLedFrame at h
  split at h
  next v b g r =>
    split_ifs at h with hpixel hstart
    · cases h; exact ⟨rfl, by rw [encode, pixelBytes, led_br v hpixel]⟩
    · cases h; obtain ⟨rfl, rfl, rfl, rfl⟩ := hstart; exact ⟨rfl, rfl⟩
  next => cases h

theorem decodeLedEnd_canonical (h : decodeLedEnd bs = .ok i) : IsPacketOf ⟨.ledEnd, bs⟩ i := by
  unfold decodeLedEnd at h
  split_ifs at h with hend
  cases h
  subst hend
  exact ⟨rfl, rfl⟩

theorem decodePinSeq_canonical (h : decodePinSeq bs = .ok i) : IsPacketOf ⟨.pinSeq, bs⟩ i := by
  unfold decodePinSeq at h
  split at h
  next b =>
    split_ifs at h with hlow hhigh
    · cases h; subst hlow; exact ⟨rfl, rfl⟩
    · cases h; subst hhigh; exact ⟨rfl, rfl⟩
  next => cases h

theorem decodeMask_canonical (h : decodeMask bs = .ok i) : IsPacketOf ⟨.mask16, bs⟩ i := by
  unfold decodeMask at h
  split at h
  next lo hi =>
    simp only at h
    split_ifs at h with hok
    cases h
    exact ⟨hok, by rw [encode, BitVec.setWidth_append_eq_right, BitVec.extractLsb'_append_eq_left]⟩
  next => cases h

/-- Settles O2: a packet decodes only through the decoder of its own format. -/
theorem decodedPacketsAreCanonical : Obligations.DecodedPacketsAreCanonical := by
  rintro ⟨fmt, bytes⟩ i h
  cases fmt with
  | op => exact decodeRecord_canonical h
  | input => exact decodeInput_canonical h
  | i2c1 => exact decodeI2c1_canonical h
  | i2c2 => exact decodeI2c2_canonical h
  | ledFrame => exact decodeLedFrame_canonical h
  | ledEnd => exact decodeLedEnd_canonical h
  | pinSeq => exact decodePinSeq_canonical h
  | mask16 => exact decodeMask_canonical h

/-- Settles O3: each word is read by evaluation. -/
theorem sampleWordsDecode : Obligations.SampleWordsDecode := ⟨rfl, rfl, rfl, rfl, rfl, rfl, rfl, rfl, rfl⟩

/-! ### Operation numbers -/

/-- The 23 operation numbers of R71. -/
def operationNumbers : List Byte :=
  [Op.linit, Op.setpixel, Op.setall, Op.lsetbright, Op.lclear, Op.getpixel, Op.lshow, Op.lteardown, Op.encodeChar, Op.dinit,
    Op.dsetbright, Op.dsetblink, Op.dclear, Op.flush, Op.setchar, Op.bufrd, Op.bufwr, Op.disptext, Op.dispnum, Op.dispfloat,
    Op.disphex, Op.dteardown, Op.scroll]

/-- R86 (g): the last arm of the decoder takes every number outside R71. -/
theorem decodeOp_unknown {n : Byte} (h : n ∉ operationNumbers) (bs : List Byte) :
    decodeOp n bs = .error (.unknownOperation n) := by
  unfold decodeOp
  split
  case h_24 => rfl
  all_goals
    next hn =>
      refine absurd ?_ h
      rw [op_eq hn]
      decide

theorem decode_unknown {n : Byte} (h : n ∉ operationNumbers) (operands : List Byte) :
    decode ⟨.op, n :: operands⟩ = .error (.unknownOperation n) := by
  simp only [decode, decodeRecord, decodeOp_unknown h]

theorem decodeTableWord_eq_some {nbits w : Nat} : decodeTableWord nbits w = some i ↔ decode (tablePacket nbits w) = .ok i := by
  unfold decodeTableWord
  cases decode (tablePacket nbits w) <;> simp

end Sys2Proof
end

section
/-! What a step makes of a packet: an operation number outside R71 (30_encoding.md R86 (g)), and a placed table word. -/

namespace Sys2Proof.Machine

theorem deliver_of_error {p : Packet} {e : DecodeError} (he : decode p = .error e) (s : State) :
    deliver p s = .reject (.undecodable e) := by
  simp only [deliver, he]

theorem step_of_reject {s : State} {r : Refusal} (h : nextAction s = .reject r) : step s = .refused r := by
  simp only [step, h]

/-- Settles O4: the packet is the next event, and its number takes the last arm of the decoder. -/
theorem unknownOperationNumbersAreRefused : Obligations.UnknownOperationNumbersAreRefused := by
  intro s n operands rest hn hb hin
  have hfetch : nextAction s = deliver ⟨.op, n :: operands⟩ { s with inbox := rest } :=
    (nextAction_take hb).trans (takeEvent_packet hin)
  exact step_of_reject (hfetch.trans (deliver_of_error (decode_unknown hn operands) _))

/-- Placing a word takes out a scroll whose own step would come first. -/
theorem withFetchWord_not_busy (s : State) (nbits w : Nat) : (s.withFetchWord nbits w).ste.busy = false := by
  show Ste.busy (if s.ste.busy then .idle else s.ste) = false
  split
  next => rfl
  next h => exact Bool.eq_false_iff.2 h

/-- Settles O6: the placed packet is the next to arrive and STE is not busy, so O5 applies. -/
theorem placedTableWordsAreExecuted : Obligations.PlacedTableWordsAreExecuted := fun s nbits w i h =>
  stepRunsTheDecodedInstruction.1 (s.withFetchWord nbits w) (tablePacket nbits w) s.inbox i rfl
    (decodeTableWord_eq_some.1 h) (.inl (withFetchWord_not_busy s nbits w))

end Sys2Proof.Machine
end

section
/-! The LED items (30_encoding.md R75 to R78) and SEG.MASK (R85). -/

namespace Sys2Proof.Machine

/-- An operation whose calls are a list of pin writes makes them and reports how they went. -/
theorem finish_pinWrites (op : Option Byte) (ws : List PinStep) (s : State) :
    finish op (pinWrites ws s) = .next (Spec.pinnedReply op ws s) := by
  rw [pinWrites_spec]
  simp [finish, Run.status, Spec.pinnedReply, Spec.pinned, Spec.ioStatus, afterPins]

/-- While `lseq` is dead and stays so, putting it aside hides nothing. -/
theorem eq_pinWrites_of_dropLseq {r : Run} {ws : List PinStep} {s : State} (hr : r.st.lseq = none) (hs : s.lseq = none)
    (h : r.always State.dropLseq = pinWrites ws s.dropLseq) : r = pinWrites ws s := by
  have hr' : r.always State.dropLseq = r := by rw [Run.always, State.dropLseq_none hr]
  rw [← hr', h, State.dropLseq_none hs]

section
variable {s : State} (hs : s.lseq = none)
include hs

/-- Outside SHOW, bits are sent as their cells (R78). -/
theorem sendBits_eq (bits : List Bool) : sendBits bits s = pinWrites (cells bits) s :=
  eq_pinWrites_of_dropLseq (sendBits_lseq bits s hs) hs (sendBits_dropLseq bits s)

theorem sendBit_eq (b : Bool) : sendBit b s = pinWrites (cells [b]) s :=
  eq_pinWrites_of_dropLseq (sendBit_lseq b s hs) hs (sendBit_dropLseq b s)

/-- Outside SHOW, the end frame is DAT low and its pulses (R77). -/
theorem endFrame_eq : endFrame s = pinWrites ((.dat, false) :: pulseEvents Config.endPulses) s :=
  eq_pinWrites_of_dropLseq (endFrame_lseq s hs) hs (endFrame_dropLseq s)

end

/-- Settles O30: each item is a list of pin writes, and the bits of a pixel frame are R79's. -/
theorem ledItemsSendTheirFrames : Obligations.LedItemsSendTheirFrames := by
  intro s hopen hs
  refine ⟨?_, fun br b g r => ?_, ?_, fun bit => ?_⟩
  · rw [exec, execLedStart, whenLseOpen_opened hopen, startFrame, sendBits_eq hs, finish_pinWrites]; rfl
  · rw [exec, execLedPixel, whenLseOpen_opened hopen, ← pixelBits_frame, ← finish_pinWrites, ← sendBits_eq hs]; rfl
  · rw [exec, execLedEnd, whenLseOpen_opened hopen, endFrame_eq hs, finish_pinWrites]; rfl
  · rw [exec, execLedBitcell, whenLseOpen_opened hopen, sendBit_eq hs, finish_pinWrites]; rfl

/-- Settles O35: bit 15 is the check of SEG.MASK. -/
theorem segMaskIsAValue : Obligations.SegMaskIsAValue := fun s m =>
  ⟨fun h => if_pos (by rw [maskOk, h]; rfl), fun h => if_neg (by rw [maskOk, h]; decide)⟩

end Sys2Proof.Machine
end

section
/-! The fraction conversions (30_encoding.md R87). -/

namespace Sys2Proof.Machine

/-- A product that fits its field is stored whole. -/
theorem toNat_ofInt_mulFloor {w k : Nat} (hk : k < 2 ^ w) {f : Frac} (h0 : 0 ≤ f) (h1 : f ≤ 1) :
    ((BitVec.ofInt w (mulFloor k f)).toNat : Int) = mulFloor k f := by
  obtain ⟨hlow, hhigh⟩ := mulFloor_bounds k h0 h1
  have hlt : mulFloor k f < ((2 ^ w : Nat) : Int) := by omega
  rw [BitVec.toNat_ofInt, Int.emod_eq_of_lt hlow hlt, Int.toNat_of_nonneg hlow]

theorem mulFloor_mono (k : Nat) {f g : Frac} (h : f ≤ g) : mulFloor k f ≤ mulFloor k g := by
  rw [mulFloor_eq, mulFloor_eq]
  exact Rat.floor_monotone (mul_le_mul_of_nonneg_left h k.cast_nonneg)

/-- The top value is reached at 1 only. -/
theorem mulFloor_eq_top {k : Nat} (hk : 0 < k) {f : Frac} (h1 : f ≤ 1) : mulFloor k f = k ↔ f = 1 := by
  constructor
  · intro htop
    have hle : (k : Frac) ≤ k * f := by
      have := Rat.floor_le ((k : Frac) * f)
      rwa [← mulFloor_eq, htop, Int.cast_natCast] at this
    exact le_antisymm h1 (le_of_mul_le_mul_left (by simpa using hle) (Nat.cast_pos.2 hk))
  · rintro rfl
    simp [mulFloor]

theorem br5_toNat {f : Frac} (h0 : 0 ≤ f) (h1 : f ≤ 1) : ((br5 f).toNat : Int) = mulFloor 31 f :=
  toNat_ofInt_mulFloor (by decide) h0 h1

theorem lv4_toNat {f : Frac} (h0 : 0 ≤ f) (h1 : f ≤ 1) : ((lv4 f).toNat : Int) = mulFloor 15 f :=
  toNat_ofInt_mulFloor (by decide) h0 h1

theorem br5_eq_top {f : Frac} (h0 : 0 ≤ f) (h1 : f ≤ 1) : br5 f = 31#5 ↔ f = 1 := by
  rw [← mulFloor_eq_top (k := 31) (by decide) h1, ← br5_toNat h0 h1, ← BitVec.toNat_inj, ← Nat.cast_inj (R := Int)]
  rfl

theorem lv4_eq_top {f : Frac} (h0 : 0 ≤ f) (h1 : f ≤ 1) : lv4 f = 15#4 ↔ f = 1 := by
  rw [← mulFloor_eq_top (k := 15) (by decide) h1, ← lv4_toNat h0 h1, ← BitVec.toNat_inj, ← Nat.cast_inj (R := Int)]
  rfl

/-- Settles O36: on `[0, 1]` both fields are the floor of an exact product that fits them. -/
theorem fractionConversionsAreFloors : Obligations.FractionConversionsAreFloors := by
  refine ⟨fun f h0 h1 => ⟨?_, ?_, br5_eq_top h0 h1, lv4_eq_top h0 h1⟩, fun f g h0 hfg h1 => ?_, by decide, by decide,
    fun speed _ => delay_eq speed⟩
  · rw [br5_toNat h0 h1, mulFloor_eq]; rfl
  · rw [lv4_toNat h0 h1, mulFloor_eq]; rfl
  · have hf1 := hfg.trans h1
    have hg0 := h0.trans hfg
    rw [BitVec.le_def, BitVec.le_def, ← Int.ofNat_le, ← Int.ofNat_le, br5_toNat h0 hf1, br5_toNat hg0 h1, lv4_toNat h0 hf1,
      lv4_toNat hg0 h1]
    exact ⟨mulFloor_mono 31 hfg, mulFloor_mono 15 hfg⟩

end Sys2Proof.Machine
end

section
/-! SHOW on the LED wire: its event list (40_led_strip.md R106, R107) and the samples that list makes (R108,
30_encoding.md R79). -/

namespace Sys2Proof.Machine

/-! ### The event list -/

/-- Settles O27: with `lseq` dead, the stepping form is the list of R107 as pin writes. -/
theorem showSendsItsEventList : Obligations.ShowSendsItsEventList := by
  intro s hopen hs
  refine ⟨?_, by rw [showEvents_length]; omega⟩
  rw [exec, execLshow, whenLseOpen_opened hopen, showSeq_eq, State.dropLseq_none hs, finish_pinWrites]

/-! ### The samples -/

/-- A write after which CLK is low is no rising edge. -/
theorem samples_cons_low {v : Levels} {w : PinStep} (h : (v.after w).clk = false) (ws : List PinStep) :
    samples v (w :: ws) = samples (v.after w) ws := by
  simp [samples, h]

/-- The end of a transmission, from a low clock: one zero sample per pulse, then the idle levels. -/
theorem samples_endEvents (d : Level) (n : Nat) :
    samples ⟨Config.csActive, d, false⟩ ((.dat, false) :: (pulseEvents n ++ [(.cs, !Config.csActive)])) =
        List.replicate n false ∧
      levelsAfter ⟨Config.csActive, d, false⟩ ((.dat, false) :: (pulseEvents n ++ [(.cs, !Config.csActive)])) =
        ⟨!Config.csActive, false, false⟩ := by
  obtain ⟨hsamples, hlevels⟩ := samples_pulses n
  have hdat : Levels.after ⟨Config.csActive, d, false⟩ (.dat, false) = ⟨Config.csActive, false, false⟩ := rfl
  constructor
  · rw [samples_cons_low rfl, hdat, samples_append, hsamples, hlevels, samples_cons_low rfl, samples, List.append_nil]
  · rw [levelsAfter_cons, hdat, levelsAfter_append, hlevels]; rfl

/-- From a low clock, SHOW samples the start frame, the pixel frames and the end frame, and ends idle. -/
theorem samples_showEvents (pix : List Pixel) {v : Levels} (hv : v.clk = false) :
    samples v (showEvents pix) = List.replicate 32 false ++ (pix.flatMap pixelBits ++ List.replicate 36 false) ∧
      levelsAfter v (showEvents pix) = ⟨!Config.csActive, false, false⟩ := by
  have hcs : v.after (.cs, Config.csActive) = ⟨Config.csActive, v.dat, false⟩ := by simp [Levels.after, hv]
  obtain ⟨hstart, hstart'⟩ := samples_cells v.dat (List.replicate Config.startBits false)
  obtain ⟨hpix, hpix'⟩ := samples_cells ((List.replicate Config.startBits false).getLastD v.dat) (pix.flatMap pixelBits)
  unfold showEvents
  constructor
  · rw [samples_cons_low (w := (.cs, Config.csActive)) hv, hcs, samples_append, hstart, hstart',
      samples_append, hpix, hpix', (samples_endEvents _ _).1]
    rfl
  · rw [levelsAfter_cons, hcs, levelsAfter_append, hstart', levelsAfter_append, hpix', (samples_endEvents _ _).2]

/-- R79, frame by frame: the wire carries 32 zero bits, the words of the pixels, and 36 zero bits. -/
theorem frameBits_eq (pix : List Pixel) :
    (List.range (Spec.sampleCount pix)).map (frameBit pix) =
      List.replicate 32 false ++ (pix.flatMap pixelBits ++ List.replicate 36 false) := by
  have hpixels : (List.range (32 * pix.length)).map (fun k => frameBit pix (32 + k)) = pix.flatMap pixelBits := by
    refine List.ext_getElem? fun k => ?_
    by_cases hk : k < 32 * pix.length
    · rw [List.getElem?_map, List.getElem?_range hk, flatMap_pixelBits_get pix k hk, Option.map_some, frameBit,
        if_neg (by omega), if_pos (by omega), Nat.add_sub_cancel_left]
    · rw [List.getElem?_eq_none (by simpa using hk), List.getElem?_eq_none (by rw [flatMap_pixelBits_length]; omega)]
  have hstart : (List.range 32).map (frameBit pix) = List.replicate 32 false :=
    List.eq_replicate_iff.2 ⟨by simp, by simp +contextual [frameBit]⟩
  have hend : (List.range 36).map (fun k => frameBit pix (32 + 32 * pix.length + k)) = List.replicate 36 false := by
    refine List.eq_replicate_iff.2 ⟨by simp, fun b hb => ?_⟩
    obtain ⟨k, -, rfl⟩ := List.mem_map.1 hb
    rw [frameBit, if_neg (by omega), if_neg (by omega)]
  rw [Spec.sampleCount, List.range_add, List.range_add, List.map_append, List.map_append, List.map_map, List.map_map,
    List.append_assoc]
  exact congrArg₂ (· ++ ·) hstart (congrArg₂ (· ++ ·) hpixels hend)

/-- Settles O28: both sides are the three frames. -/
theorem showSamplesAreTheFrames : Obligations.ShowSamplesAreTheFrames := fun pix _ hv =>
  ⟨(samples_showEvents pix hv).1.trans (frameBits_eq pix).symm, (samples_showEvents pix hv).2⟩

end Sys2Proof.Machine
end

section
/-! The lifecycle of LSE: what is refused outside its state (40_led_strip.md R112), LINIT (R100) and LTEARDOWN (R111). -/

namespace Sys2Proof.Machine

/-- The meaning is refused unless `LST = OPEN` (R112). -/
def RefusedUnlessOpen (f : State → Answer) : Prop := ∀ s, s.lst ≠ .opened → f s = .refused .lseNotOpen

theorem refusedUnlessOpen_lse (k : State → Answer) : RefusedUnlessOpen fun s => whenLseOpen s k := by
  intro s h
  show whenLseOpen s k = _
  unfold whenLseOpen
  split
  next hopen => exact absurd hopen h
  next => rfl

/-- Every LSE instruction but LINIT and LTEARDOWN stands under the guard. -/
theorem exec_refusedUnlessOpen {i : Instr} (hi : Spec.ofStrip i = true) (hlinit : i ≠ .linit) (hdown : i ≠ .lteardown) :
    RefusedUnlessOpen (exec i) := by
  cases i with
  | linit => exact absurd rfl hlinit
  | lteardown => exact absurd rfl hdown
  | setpixel | setall | lsetbright | lclear | getpixel | lshow | ledStart | ledPixel | ledEnd | ledBitcell =>
    exact refusedUnlessOpen_lse _
  | _ => cases hi

theorem execLinit_refused {s : State} (h : s.lst ≠ .uninit) : execLinit s = .refused .lseNotUninit := by
  unfold execLinit
  split
  next huninit => exact absurd huninit h
  next => rfl

theorem execLinit_uninit {s : State} (h : s.lst = .uninit) : execLinit s = finish (some Op.linit) (linitSeq s) := by
  simp only [execLinit, h]

theorem execLteardown_uninit {s : State} (h : s.lst = .uninit) : execLteardown s = .refused .lseNotOpen := by
  simp only [execLteardown, h]

theorem execLteardown_opened {s : State} (h : s.lst = .opened) :
    execLteardown s = complete Op.lteardown .none (lteardownSteps s) := by
  simp only [execLteardown, h]

theorem execLteardown_closed {s : State} (h : s.lst = .closed) : execLteardown s = complete Op.lteardown .none s := by
  simp only [execLteardown, h]

/-- Settles O20: by the guard, and for LTEARDOWN by its own three cases. -/
theorem lseIsRefusedOutsideOpen : Obligations.LseIsRefusedOutsideOpen := by
  refine ⟨fun i s hi hlinit hopen hclosed => ?_, fun s => execLinit_refused, fun s => execLteardown_closed⟩
  by_cases hdown : i = .lteardown
  · subst hdown
    cases hlst : s.lst with
    | uninit => exact execLteardown_uninit hlst
    | opened => exact absurd hlst hopen
    | closed => exact absurd ⟨rfl, hlst⟩ hclosed
  · exact exec_refusedUnlessOpen hi hlinit hdown s hopen

/-- What the body of LINIT does, for every environment. -/
theorem linitSeq_spec (s : State) :
    linitSeq s =
      let s0 : State := { s with pix := List.replicate s.pix.length Pixel.zero, io := answersLeft 3 s.io }
      if okCalls 3 s.io = 3 then
        ⟨{ s0 with
            pinTrace := s.pinTrace ++ [.pinsOpen], cs := !Config.csActive, dat := false, clk := false, lst := .opened },
          true⟩
      else ⟨s0, false⟩ := by
  rw [linitSeq, openPins, forThreePins_spec, List.map_const']
  by_cases h : okCalls 3 s.io = 3 <;> simp [h]

/-- Settles O21: the three opens succeed together, or LINIT stops with the pixels zeroed. -/
theorem linitOpensTheStrip : Obligations.LinitOpensTheStrip := by
  intro s huninit
  show execLinit s = _
  rw [execLinit_uninit huninit, linitSeq_spec, finish]
  by_cases h : okCalls 3 s.io = 3
  · simp only [h, if_true]; rfl
  · simp only [h, if_false]; rfl

/-- With `lseq` dead, SHOW leaves what its pin writes leave. -/
theorem showSeq_st {s : State} (hs : s.lseq = none) : (showSeq s).st = Spec.pinned (showEvents s.pix) s := by
  rw [showSeq_eq, State.dropLseq_none hs, pinWrites_spec]; rfl

theorem lteardownSteps_eq {s : State} (hs : s.lseq = none) :
    lteardownSteps s =
      let shown := Spec.pinned (showEvents (blackened s).pix) (blackened s)
      { shown with
        pinTrace := shown.pinTrace ++ (if okCalls 3 shown.io = 3 then [.pinsClose] else []),
        io := answersLeft 3 shown.io, lst := .closed } := by
  have hblack : (blackened s).lseq = none := hs
  rw [lteardownSteps, showSeq_st hblack, closePins, forThreePins_spec]

/-- Settles O29: SHOW on the blackened pixels, then the close, each as far as it gets. -/
theorem lteardownBlanksAndCloses : Obligations.LteardownBlanksAndCloses := by
  intro s hopen hs
  show execLteardown s = _
  rw [execLteardown_opened hopen, lteardownSteps_eq hs]
  rfl

end Sys2Proof.Machine
end

section
/-! The pixel operations (40_led_strip.md R101 to R105). -/

namespace Sys2Proof.Machine

theorem br5_eq_floor (f : Frac) : br5 f = BitVec.ofInt 5 (31 * f).floor := by
  rw [br5, mulFloor_eq]; rfl

/-- Settles O22: the check of index and brightness, then one pixel set. -/
theorem setpixelStoresThePixel : Obligations.SetpixelStoresThePixel := by
  intro s index r g b f hopen
  have hcheck : (outOfRange index s.nPix = true ∨ fracOutOfRange f = true) ↔
      index < 0 ∨ (s.pix.length : Int) ≤ index ∨ f < 0 ∨ 1 < f := by
    rw [outOfRange_eq_true, fracOutOfRange_eq_true, or_assoc, State.nPix_eq]
  rw [exec, execSetpixel, whenLseOpen_opened hopen]
  refine ⟨fun h => if_pos (hcheck.2 h), fun hlow hhigh h0 h1 => ?_⟩
  rw [if_neg (by rw [hcheck]; simp only [not_or, not_lt, not_le]; exact ⟨hlow, hhigh, h0, h1⟩), br5_eq_floor]
  rfl

/-- Settles O23: the check of the brightness, then every pixel replaced. -/
theorem setallStoresEveryPixel : Obligations.SetallStoresEveryPixel := by
  intro s r g b f hopen
  rw [exec, execSetall, whenLseOpen_opened hopen]
  refine ⟨fun h => if_pos (fracOutOfRange_eq_true.2 h), fun h0 h1 => ?_⟩
  rw [fracOutOfRange_eq_false.2 ⟨h0, h1⟩, br5_eq_floor, List.map_const']
  rfl

/-- Settles O24: the check of the brightness, then a map over the pixels that keeps the colours. -/
theorem lsetbrightKeepsTheColours : Obligations.LsetbrightKeepsTheColours := by
  intro s f hopen
  rw [exec, execLsetbright, whenLseOpen_opened hopen]
  refine ⟨fun h => if_pos (fracOutOfRange_eq_true.2 h), fun h0 h1 =>
    ⟨s.pix.map fun p => { p with br := br5 f }, ?_, List.length_map _, fun n p hp => ?_⟩⟩
  · rw [fracOutOfRange_eq_false.2 ⟨h0, h1⟩]; rfl
  · rw [List.getElem?_map, hp, ← br5_eq_floor]; rfl

/-- Settles O25: a map over the pixels that keeps the brightness. -/
theorem lclearKeepsTheBrightness : Obligations.LclearKeepsTheBrightness := by
  intro s hopen
  refine ⟨(blackened s).pix, whenLseOpen_opened hopen (fun s => complete Op.lclear .none (blackened s)), List.length_map _,
    fun n p hp => ?_⟩
  show (s.pix.map _)[n]? = _
  rw [List.getElem?_map, hp]; rfl

/-- Settles O26: the check of the index, then the pixel that stands there. -/
theorem getpixelReturnsThePixel : Obligations.GetpixelReturnsThePixel := by
  intro s index hopen
  rw [exec, execGetpixel, whenLseOpen_opened hopen, State.nPix_eq]
  refine ⟨fun h => if_pos (outOfRange_eq_true.2 h), fun n p hn hp => ?_⟩
  subst hn
  obtain ⟨hlt, -⟩ := List.getElem?_eq_some_iff.1 hp
  rw [outOfRange_eq_false.2 ⟨by omega, by omega⟩, Int.toNat_natCast, List.getD_eq_getElem?_getD, hp]
  rfl

end Sys2Proof.Machine
end

section
/-! What LSE leaves unchanged: the pixel operations (40_led_strip.md R101 to R105), and sending on the LED wire (R106,
R111; 30_encoding.md R75 to R78). -/

namespace Sys2Proof.Machine

/-! ### The pixel operations -/

/-- `t` is `s` but for its replies and for its pixels, which are related to those of `s`. -/
def PixelsOnly (P : List Pixel → List Pixel → Prop) (s t : State) : Prop :=
  P s.pix t.pix ∧ t = { s with pix := t.pix, replies := t.replies }

theorem PixelsOnly.exists_pix {P : List Pixel → List Pixel → Prop} {s t : State} (h : PixelsOnly P s t) :
    ∃ pix, t = { s with pix := pix, replies := t.replies } :=
  ⟨_, h.2⟩

section
variable {P : List Pixel → List Pixel → Prop} (hP : ∀ q, P q q)
include hP

theorem ignoresReplies_pixelsOnly : IgnoresReplies (PixelsOnly P) where
  refl s := ⟨hP s.pix, rfl⟩
  reply op st r := fun ⟨hpix, heq⟩ => ⟨hpix, congrArg (State.reply · op st r) heq⟩

theorem leads_setPix {w : List Pixel → List Pixel} (hw : ∀ q, P q (w q)) (op : Byte) (r : Result) :
    Leads (PixelsOnly P) fun s => complete op r { s with pix := w s.pix } :=
  leads_complete (ignoresReplies_pixelsOnly hP) (fun s => ⟨hw s.pix, rfl⟩) op r

/-- An operation that checks its brightness before it changes the pixels. -/
theorem leads_checkedSetPix {w : List Pixel → List Pixel} (hw : ∀ q, P q (w q)) (f : Frac) (op : Byte) :
    Leads (PixelsOnly P) fun s => whenLseOpen s fun s =>
      if fracOutOfRange f then raise op .rangeError s else complete op .none { s with pix := w s.pix } :=
  leads_lse (leads_ite (leads_raise (ignoresReplies_pixelsOnly hP) op .rangeError) (leads_setPix hP hw op .none))

end

/-- SETPIXEL leaves every pixel but the one at its index, which is none where it raises RangeError. -/
theorem leads_setpixel (index : Int) (r g b : Byte) (f : Frac) :
    Leads (PixelsOnly fun q q' => ∀ n : Nat, (n : Int) ≠ index → q'[n]? = q[n]?) (execSetpixel index r g b f) := by
  refine leads_lse fun s t h => ?_
  split at h
  next =>
    obtain rfl := raise_next.1 h
    exact ⟨fun _ _ => rfl, rfl⟩
  next hrange =>
    obtain ⟨hlow, -⟩ := outOfRange_eq_false.1 (Bool.eq_false_iff.2 fun hout => hrange (.inl hout))
    obtain rfl := complete_next.1 h
    exact ⟨fun n hn => List.getElem?_set_ne (by omega), rfl⟩

theorem leads_setall (r g b : Byte) (f : Frac) :
    Leads (PixelsOnly fun q q' => q'.length = q.length) (execSetall r g b f) := by
  refine leads_checkedSetPix (w := List.map fun _ => ⟨r, g, b, br5 f⟩) (fun _ => ?_) (fun _ => ?_) f Op.setall
  · rfl
  · exact List.length_map _

theorem leads_lsetbright (f : Frac) :
    Leads (PixelsOnly fun q q' => (q'.map fun p => (p.r, p.g, p.b)) = q.map fun p => (p.r, p.g, p.b))
      (execLsetbright f) := by
  refine leads_checkedSetPix (w := List.map fun p => { p with br := br5 f }) (fun _ => ?_) (fun _ => ?_) f Op.lsetbright
  · rfl
  · exact List.map_map

theorem leads_lclear : Leads (PixelsOnly fun q q' => (q'.map fun p => p.br) = q.map fun p => p.br) execLclear := by
  refine leads_lse (leads_setPix (w := List.map fun p => { p with r := 0#8, g := 0#8, b := 0#8 }) (fun _ => ?_)
    (fun _ => ?_) Op.lclear .none)
  · rfl
  · exact List.map_map

theorem leads_getpixel (index : Int) : Leads (PixelsOnly fun q q' => q' = q) (execGetpixel index) := by
  have c := ignoresReplies_pixelsOnly (P := fun q q' => q' = q) fun _ => rfl
  exact leads_lse (leads_ite (leads_raise c _ _) fun s => leads_complete_only c _ _ s)

/-- Settles O31: each pixel operation changes the pixels only, and them as its relation says. -/
theorem pixelOperationFrames : Obligations.PixelOperationFrames := by
  refine ⟨fun index r g b f s t h => ?_, fun r g b f s t h => ?_, fun f s t h => ?_, fun s t h => ?_, fun index s t h => ?_⟩
  · have hframe := leads_setpixel index r g b f s t h
    exact ⟨hframe.1, hframe.exists_pix⟩
  · obtain ⟨hlength, heq⟩ := leads_setall r g b f s t h
    exact ⟨_, heq, hlength⟩
  · have hframe := leads_lsetbright f s t h
    exact ⟨hframe.1, hframe.exists_pix⟩
  · have hframe := leads_lclear s t h
    exact ⟨hframe.1, hframe.exists_pix⟩
  · obtain ⟨hpix, heq⟩ := leads_getpixel index s t h
    rwa [hpix] at heq

/-! ### Sending -/

/-- What is to arrive is the same. -/
def InboxKept (s t : State) : Prop := t.inbox = s.inbox

theorem ignoresReplies_inboxKept : IgnoresReplies InboxKept := ⟨fun _ => rfl, fun _ _ _ h => h⟩

theorem inboxKept_stripOnly {f : State → Run} (hf : StripOnly f) (s : State) : InboxKept s (f s).st := by
  obtain ⟨⟨-, -, -, -, -, -, -, -, hinbox, -⟩, -⟩ := hf s
  exact hinbox

theorem inboxKept_linit (s : State) : InboxKept s (linitSeq s).st := by
  rw [linitSeq_spec]
  by_cases h : okCalls 3 s.io = 3
  · simp only [h, if_true]; rfl
  · simp only [h, if_false]; rfl

theorem inboxKept_lteardown (s : State) : InboxKept s (lteardownSteps s) :=
  (inboxKept_stripOnly (stripOnly_threePins .pinsClose) (showSeq (blackened s)).st).trans
    (inboxKept_stripOnly stripOnly_show (blackened s))

theorem PixelsOnly.inboxKept {P : List Pixel → List Pixel → Prop} {s t : State} (h : PixelsOnly P s t) : InboxKept s t :=
  (congrArg State.inbox h.2).trans rfl

theorem exec_strip_keeps_inbox {i : Instr} (hi : Spec.ofStrip i = true) : Leads InboxKept (exec i) := by
  have c := ignoresReplies_inboxKept
  have sending : ∀ {f : State → Run}, StripOnly f → ∀ op, Leads InboxKept fun s => whenLseOpen s fun s => finish op (f s) :=
    fun hf op => leads_lse (leads_finish c (inboxKept_stripOnly hf) op)
  cases i with
  | linit =>
    intro s t h
    rw [exec, execLinit] at h
    split at h
    next => exact leads_finish c inboxKept_linit _ s t h
    next => cases h
  | setpixel => exact fun s t h => (leads_setpixel _ _ _ _ _ s t h).inboxKept
  | setall => exact fun s t h => (leads_setall _ _ _ _ s t h).inboxKept
  | lsetbright => exact fun s t h => (leads_lsetbright _ s t h).inboxKept
  | lclear => exact fun s t h => (leads_lclear s t h).inboxKept
  | getpixel => exact fun s t h => (leads_getpixel _ s t h).inboxKept
  | lteardown =>
    intro s t h
    rw [exec, execLteardown] at h
    split at h
    next => exact leads_complete_only c _ _ s t h
    next => exact leads_complete c inboxKept_lteardown _ _ s t h
    next => cases h
  | lshow => exact sending stripOnly_show _
  | ledStart => exact sending (stripOnly_sendBits _) _
  | ledPixel => exact sending (stripOnly_sendBits _) _
  | ledEnd => exact sending stripOnly_end _
  | ledBitcell => exact sending (stripOnly_sendBit _) _
  | _ => cases hi

/-- The pixels and `LST` are the same. -/
def PixelsKept (s t : State) : Prop := t.pix = s.pix ∧ t.lst = s.lst

theorem leads_sending {f : State → Run} (hf : StripOnly f) (op : Option Byte) :
    Leads PixelsKept fun s => whenLseOpen s fun s => finish op (f s) :=
  leads_lse (leads_finish ⟨fun _ => ⟨rfl, rfl⟩, fun _ _ _ h => h⟩ (fun s => (hf s).2) op)

/-- Settles O32: what is sent moves neither the pixels nor `LST`, and no LSE instruction moves what the display owns or
what is to arrive. -/
theorem stripIoFrames : Obligations.StripIoFrames := by
  refine fun i s t h => ⟨?_, fun hi => ?_⟩
  · rintro (rfl | rfl | ⟨br, b, g, r, rfl⟩ | rfl | ⟨x, rfl⟩)
    · exact leads_sending stripOnly_show _ s t h
    · exact leads_sending (stripOnly_sendBits _) _ s t h
    · exact leads_sending (stripOnly_sendBits _) _ s t h
    · exact leads_sending stripOnly_end _ s t h
    · exact leads_sending (stripOnly_sendBit _) _ s t h
  · obtain ⟨hbuf, hdst, hste, hdseq, hcon, hbus, hwait, htokens⟩ :=
      sameDisplay_of_withDisplayOf (exec_strip_keeps_display hi h)
    exact ⟨hbuf, hdst, hste, hdseq, hcon, hbus, hwait, htokens, exec_strip_keeps_inbox hi s t h⟩

end Sys2Proof.Machine
end

section
/-! The character ROM: ENCODE (41_char_rom.md R121) and the masks of displayed characters (R122, R124). -/

namespace Sys2Proof.Machine

theorem exec_encodeChar (c : CharCode) (s : State) :
    exec (.encodeChar c) s = .next (s.reply (some Op.encodeChar) .ok (.mask (encodeMask c))) := rfl

/-- ENCODE falls back to entry 31, that of `'?'` (R121). -/
theorem encodeMask_eq (c : CharCode) :
    encodeMask c = if 0x20 ≤ c ∧ c ≤ 0x7E then segRom (c - 0x20) else segRom 31 := rfl

/-- Settles O33: ENCODE answers with `encodeMask`, which is R121's choice of an entry. -/
theorem encodeReturnsTheMask : Obligations.EncodeReturnsTheMask := fun s c => by
  rw [exec_encodeChar, encodeMask_eq]

/-- A decimal flag and a dot each set the point; without either, nothing is added (R124). -/
theorem charMask_eq_or (c : CharCode) (dp : Bool) :
    charMask c dp = encodeMask c ||| (if dp = true ∨ c = dotChar then dpMask else 0#16) := by
  unfold charMask
  split
  · rfl
  · exact BitVec.or_zero.symm

/-- Settles O34: bit 15 is clear in every entry and in the point, and entry 0 is blank by definition. -/
theorem masksMeetTheirConstraints : Obligations.MasksMeetTheirConstraints :=
  ⟨segRom_bit15, rfl, fun c dp => ⟨charMask_eq_or c dp, charMask_bit15 c dp⟩⟩

end Sys2Proof.Machine
end

section
/-! The sequences of DCS as lists of bus calls on a free display: the commands (42_display.md R131, R132), the flushes
(R133, R135), and the lifecycle (R130, R151). -/

namespace Sys2Proof.Machine

/-! ### The transactions of a flush -/

/-- A position 0..15 is sent as one byte (30_encoding.md R83). -/
theorem flushEvent_eq (m : Memory) {p : Nat} (hp : p < 16) :
    flushEvent m p = .xfer 0x70#8 [BitVec.ofNat 8 p, Memory.read m p] := by
  have hposition : (BitVec.ofNat 4 p).setWidth 8 = BitVec.ofNat 8 p := BitVec.eq_of_toNat_eq (by simp; omega)
  rw [flushEvent, dataBytes, hposition]; rfl

theorem flushEvents_eq (m : Memory) : flushEvents m = Spec.flushOf (Memory.read m) :=
  List.map_congr_left fun _ hp => flushEvent_eq m (List.mem_range.1 hp)

theorem flushEvents_zeroed : flushEvents Memory.zeroed = Spec.flushZeros := flushEvents_eq _

/-- With no flush under way, a flush that ends an operation sends the buffer (R135). -/
theorem finish_flushSeq {s : State} (h : s.dseq = none) (op : Option Byte) :
    finish op (flushSeq s) = .next (Spec.sentReply op (Spec.flushOf (Memory.read s.buf)) s) := by
  rw [flushSeq_calls h, finish_busCalls, flushEvents_eq]

/-- Settles O42: a flush is the list of its sixteen transactions. -/
theorem flushSendsTheBuffer : Obligations.FlushSendsTheBuffer := by
  intro s hopen hidle hdseq
  rw [exec, execFlush, whenDcsFree_free hopen hidle, finish_flushSeq hdseq]

/-- Settles O41: DCLEAR is the flush of the zeroed buffer. -/
theorem dclearZeroesThenFlushes : Obligations.DclearZeroesThenFlushes := by
  intro s hopen hidle hdseq
  refine ⟨Memory.zeroed, Memory.read_zeroed, ?_⟩
  rw [exec, execDclear, whenDcsFree_free hopen hidle, clearSeq_calls hdseq, finish_busCalls, flushEvents_zeroed]

/-! ### Commands -/

theorem blinkBytes_eq (rate : BlinkRate) :
    blinkBytes rate = [match rate with | .off => 0x81#8 | .hz2 => 0x83#8 | .hz1 => 0x85#8 | .hzHalf => 0x87#8] := by
  cases rate <;> rfl

/-- Settles O40: the command byte and the flush are one list of calls. -/
theorem dsetblinkSendsThenFlushes : Obligations.DsetblinkSendsThenFlushes := by
  intro s rate hopen hidle hdseq
  rw [exec, execDsetblink, whenDcsFree_free hopen hidle, blinkSeq_calls hdseq, finish_busCalls, flushEvents_eq,
    blinkBytes_eq]
  rfl

/-- The four bits of a level stand in the low half of its command byte (30_encoding.md R82). -/
theorem lv4_setWidth {f : Frac} (h0 : 0 ≤ f) (h1 : f ≤ 1) : (lv4 f).setWidth 8 = BitVec.ofInt 8 (15 * f).floor := by
  have hfloor : (15 * f).floor = mulFloor 15 f := (mulFloor_eq 15 f).symm
  apply BitVec.eq_of_toNat_eq
  rw [hfloor, BitVec.toNat_setWidth, ← Nat.cast_inj (R := Int), toNat_ofInt_mulFloor (by decide) h0 h1,
    Nat.mod_eq_of_lt (by have := (lv4 f).isLt; omega), lv4_toNat h0 h1]

/-- Settles O39: the check of the level, then one command. -/
theorem dsetbrightSendsTheLevel : Obligations.DsetbrightSendsTheLevel := by
  intro s f hopen hidle
  rw [exec, execDsetbright, whenDcsFree_free hopen hidle]
  refine ⟨fun h => if_pos (fracOutOfRange_eq_true.2 h), fun h0 h1 => ?_⟩
  rw [fracOutOfRange_eq_false.2 ⟨h0, h1⟩, if_neg Bool.false_ne_true, finish_i2cWrite, brightBytes, lv4_setWidth h0 h1]
  rfl

/-! ### The lifecycle -/

theorem execDteardown_closed {s : State} (h : s.dst = .closed) : execDteardown s = complete Op.dteardown .none s := by
  simp only [execDteardown, h]

theorem execDteardown_not_closed {s : State} (h : s.dst ≠ .closed) :
    execDteardown s = whenDcsFree s fun s => finish (some Op.dteardown) (dteardownSeq s) := by
  unfold execDteardown
  split
  next hclosed => exact absurd hclosed h
  next => rfl

theorem execDinit_refused {s : State} (h : s.dst ≠ .uninit) : execDinit s = .refused .dcsNotUninit := by
  unfold execDinit
  split
  next huninit => exact absurd huninit h
  next => rfl

theorem execDinit_uninit {s : State} (h : s.dst = .uninit) : execDinit s = finish (some Op.dinit) (dinitSeq s) := by
  simp only [execDinit, h]

theorem execDinit_next {s t : State} (h : execDinit s = .next t) :
    s.dst = .uninit ∧ finish (some Op.dinit) (dinitSeq s) = .next t := by
  unfold execDinit at h
  split at h
  next huninit => exact ⟨huninit, h⟩
  next => cases h

theorem dinitCalls_eq_spec :
    dinitCalls = [.busOpen, Spec.command 0x21#8, Spec.command 0x81#8] ++
      (if Config.initBlinkFlush then Spec.flushZeros else []) ++ [Spec.command 0xEF#8] ++ Spec.flushZeros := by
  rw [List.append_assoc, List.append_assoc, ← flushEvents_zeroed]; rfl

/-- Settles O38: DINIT is its list of calls, after which `DST` says whether all succeeded. -/
theorem dinitSendsItsSequence : Obligations.DinitSendsItsSequence := by
  intro s huninit hdseq
  dsimp only
  rw [← dinitCalls_eq_spec, exec, execDinit_uninit huninit, dinitSeq_spec hdseq, huninit]
  simp [finish, Run.status, Spec.sentReply, Spec.sent, Spec.ioStatus, State.reply]

/-- What DTEARDOWN does on an open display, for every environment. -/
theorem dteardownSeq_spec {s : State} (h : s.dseq = none) :
    dteardownSeq s =
      let cleared := Spec.sent Spec.flushZeros { s with buf := Memory.zeroed }
      ⟨{ Spec.sent [.busClose] cleared with dst := .closed },
        decide (okCalls 16 s.io = 16) && decide (okCalls 1 cleared.io = 1)⟩ := by
  have hlength : Spec.flushZeros.length = 16 := rfl
  rw [dteardownSeq, clearSeq_calls h, flushEvents_zeroed, closeBus_eq, busCalls_spec, busCalls_spec]
  simp [Spec.sent, hlength]

/-- Settles O49: the clear as far as it gets, then the release, then CLOSED. -/
theorem dteardownBlanksAndReleases : Obligations.DteardownBlanksAndReleases := by
  intro s hopen hidle hdseq
  refine ⟨Memory.zeroed, Memory.read_zeroed, ?_⟩
  rw [exec, execDteardown_not_closed (by simp [hopen]), whenDcsFree_free hopen hidle, dteardownSeq_spec hdseq]
  simp [finish, Run.status]

end Sys2Proof.Machine
end

section
/-! What the display shows: texts (42_display.md R140, R141), numbers (R142, R143, R147) and base-16 values (R148, R149). -/

namespace Sys2Proof.Machine

/-! ### Slots in the buffer -/

/-- The mask of a digit position, from `START` on (R141). -/
theorem slotMask_eq (slots : List Slot) (j : Bool) (p : Nat) :
    Spec.slotMask slots j p =
      if startPos slots.length j ≤ p then
        (slots[p - startPos slots.length j]?).elim 0#16 fun x => charMask x.ch x.dp
      else 0#16 := by
  have hstart : startPos slots.length j = if j then 4 - slots.length else 0 := rfl
  rw [hstart, Spec.slotMask]
  cases slots[p - if j then 4 - slots.length else 0]? <;> rfl

/-- Slots that fit the display are what it shows once they are rendered. -/
theorem shows_render {slots : List Slot} (h : slots.length ≤ 4) (j : Bool) : Spec.Shows (render slots j) slots j := by
  have hfit := startPos_add_le h j
  refine ⟨wf_render slots j, fun p _ => ?_, fun a ha => read_place_high slots _ hfit _ ha⟩
  rw [render, read2_place slots _ hfit, Memory.read2_zeroed, slotMask_eq]
  by_cases hstart : startPos slots.length j ≤ p
  · by_cases hend : p - startPos slots.length j < slots.length
    · rw [dif_pos ⟨hstart, by omega⟩, if_pos hstart, List.getElem?_eq_getElem hend, Option.elim_some]
    · rw [dif_neg (by omega), if_pos hstart, List.getElem?_eq_none (by omega), Option.elim_none]
  · rw [dif_neg fun hp => hstart hp.1, if_neg hstart]

/-- Slots shown at the end of an operation: the buffer that shows them, and its flush (R140, R143). -/
theorem finish_slotsSeq {s : State} (hdseq : s.dseq = none) {slots : List Slot} (h : slots.length ≤ 4) (j : Bool)
    (op : Option Byte) :
    ∃ m, Spec.Shows m slots j ∧
      finish op (slotsSeq slots j s) = .next (Spec.sentReply op (Spec.flushOf (Memory.read m)) { s with buf := m }) :=
  ⟨render slots j, shows_render h j, finish_flushSeq (s := { s with buf := render slots j }) hdseq op⟩

/-! ### Texts -/

/-- The empty text has no slots, and the clear is the flush of the buffer that shows none (R140). -/
theorem textSeq_eq (t : Text) (j : Bool) (s : State) : textSeq t j s = slotsSeq (textSlots t) j s := by
  cases t <;> rfl

/-- Settles O45: the slots of a text are its first four characters. -/
theorem disptextShowsTheText : Obligations.DisptextShowsTheText := by
  intro s t j hopen hidle hdseq
  rw [exec, execDisptext, whenDcsFree_free hopen hidle, textSeq_eq]
  exact finish_slotsSeq hdseq (textSlots_length t) j _

/-! ### Numbers -/

theorem numberSlots_dotted (gs : List (CharCode × Nat)) : numberSlots (Spec.dottedSlots gs) = Spec.numberShown gs := by
  rw [numberSlots, Spec.numberShown, Spec.dottedSlots, List.length_map]; rfl

/-- A string with no leading dot is shown as its slots, or as the fallback (R142, R143). -/
theorem showNumber_dotted {s : State} (hdseq : s.dseq = none) {gs : List (CharCode × Nat)} (hgs : ∀ g ∈ gs, g.1 ≠ 0x2E)
    (j : Bool) (op : Byte) :
    ∃ m, Spec.Shows m (Spec.numberShown gs) j ∧
      showNumber op (Spec.dotted gs) j s =
        .next (Spec.sentReply (some op) (Spec.flushOf (Memory.read m)) { s with buf := m }) := by
  have hparse : parseSlots (Spec.dotted gs) = some (Spec.dottedSlots gs) := parseSlots_groups gs hgs
  rw [showNumber, hparse, ← numberSlots_dotted]
  exact finish_slotsSeq hdseq (numberSlots_length _) j _

theorem showNumber_leadingDot (op : Byte) (rest : Text) (j : Bool) (s : State) :
    showNumber op (0x2E :: rest) j s = .refused .leadingDot := by
  have hparse : parseSlots (0x2E :: rest) = none := parseSlots_leadingDot rest
  rw [showNumber, hparse]

/-- Settles O46: the groups of the string are its slots, and a leading dot is in no group. -/
theorem dispnumShowsTheSlots : Obligations.DispnumShowsTheSlots := by
  refine ⟨fun s gs j hopen hidle hdseq hgs => ?_, fun s rest j hopen hidle => ?_⟩
  · rw [exec, execDispnum, whenDcsFree_free hopen hidle]
    exact showNumber_dotted hdseq hgs j _
  · rw [exec, execDispnum, whenDcsFree_free hopen hidle, showNumber_leadingDot]

/-- Every text is some dots and then dotted characters. -/
theorem exists_dotted (t : Text) :
    ∃ (n : Nat) (gs : List (CharCode × Nat)), (∀ g ∈ gs, g.1 ≠ 0x2E) ∧ t = List.replicate n 0x2E ++ Spec.dotted gs := by
  induction t with
  | nil => exact ⟨0, [], List.forall_mem_nil _, rfl⟩
  | cons c t ih =>
    obtain ⟨n, gs, hgs, rfl⟩ := ih
    by_cases hc : c = 0x2E
    · exact ⟨n + 1, gs, hgs, by rw [hc]; rfl⟩
    · exact ⟨0, (c, n) :: gs, List.forall_mem_cons.2 ⟨hc, hgs⟩, rfl⟩

theorem exists_dotted_of_head {t : Text} (h : t.head? ≠ some 0x2E) :
    ∃ gs : List (CharCode × Nat), (∀ g ∈ gs, g.1 ≠ 0x2E) ∧ t = Spec.dotted gs := by
  obtain ⟨n, gs, hgs, rfl⟩ := exists_dotted t
  cases n with
  | zero => exact ⟨gs, hgs, rfl⟩
  | succ n => exact absurd rfl h

/-- The integer place count of R147, clamped at 0, is the model's in natural numbers. -/
theorem floatString_eq (fmt : Frac → Nat → Text) (v : Frac) (n : Nat) :
    Spec.floatString fmt v n = floatTextBy fmt v n := by
  refine if_congr Iff.rfl (congrArg (fmt v) ?_) rfl
  rw [Config.maxDecimals, reducedPlaces]
  generalize fmt v (min n 3) = t
  have hdot : t.findIdx? (fun c => decide (c = 0x2E)) = dotIndex t := rfl
  rw [hdot]
  cases dotIndex t with
  | none => dsimp only; omega
  | some i => dsimp only; split <;> omega

theorem dispfloatBy_free {s : State} (hopen : s.dst = .opened) (hidle : s.ste = .idle) (fmt : Frac → Nat → Text)
    (v : Frac) (n : Nat) (j : Bool) :
    dispfloatBy fmt v n j s = showNumber Op.dispfloat (Spec.floatString fmt v n) j s := by
  rw [dispfloatBy, whenDcsFree_free hopen hidle, floatString_eq]

/-- Settles O47: the formula gives the string, which is shown or refused as by DISPNUM. -/
theorem dispfloatFollowsTheFormula : Obligations.DispfloatFollowsTheFormula := by
  intro s v n j hopen hidle hdseq
  refine ⟨fun fmt gs hgs ht => ?_, fun hhead => ?_, fun hhead => ?_⟩
  · rw [dispfloatBy_free hopen hidle, ht]
    exact showNumber_dotted hdseq hgs j _
  · obtain ⟨gs, hgs, ht⟩ := exists_dotted_of_head hhead
    obtain ⟨m, hm, hshow⟩ := showNumber_dotted hdseq hgs j Op.dispfloat
    refine ⟨gs, m, hgs, ht, hm, ?_⟩
    rw [exec, execDispfloat, dispfloatBy_free hopen hidle, ht, hshow]
  · obtain ⟨rest, ht⟩ := List.head?_eq_some_iff.1 hhead
    rw [exec, execDispfloat, dispfloatBy_free hopen hidle, ht, showNumber_leadingDot]

/-! ### Base 16 -/

theorem hexValue_hexDigit : ∀ d < 16, Spec.hexValue (hexDigit d) = some d := by decide

theorem spellsHex_digit {d : Nat} (hd : d < 16) : Spec.SpellsHex [hexDigit d] d := by
  simp [Spec.SpellsHex, hexValue_hexDigit d hd]

/-- A number that is not 0 is spelled with a first digit that is not 0. -/
theorem spellsHex_head {t : Text} {v : Nat} (h : Spec.SpellsHex t v) (hv : 0 < v) : t.head? ≠ some 0x30 := by
  obtain ⟨-, -, hvalue, hlead⟩ := h
  intro hhead
  obtain ⟨rest, rfl⟩ := List.head?_eq_some_iff.1 hhead
  cases rest with
  | nil => exact hv.ne (hvalue ▸ rfl)
  | cons => exact hlead (by simp) rfl

/-- One more digit at the end of a spelling. -/
theorem spellsHex_snoc {t : Text} {v d : Nat} (h : Spec.SpellsHex t v) (hv : 0 < v) (hd : d < 16) :
    Spec.SpellsHex (t ++ [hexDigit d]) (16 * v + d) := by
  have hhead := spellsHex_head h hv
  obtain ⟨hne, hdigits, hvalue, -⟩ := h
  refine ⟨by simp, fun c hc => ?_, ?_, fun _ => ?_⟩
  · rcases List.mem_append.1 hc with hc | hc
    · exact hdigits c hc
    · rw [List.mem_singleton.1 hc, hexValue_hexDigit d hd]; rfl
  · rw [List.foldl_append, hvalue, List.foldl_cons, hexValue_hexDigit d hd]; rfl
  · rwa [List.head?_append_of_ne_nil _ hne]

/-- The digits put before a tail spell a value that they suffice for. -/
theorem hexDigits_spells (fuel v : Nat) (hv : v < 16 ^ (fuel + 1)) (tail : Text) :
    ∃ t, hexDigits (fuel + 1) v tail = t ++ tail ∧ Spec.SpellsHex t v ∧ t.length ≤ fuel + 1 := by
  induction fuel generalizing v tail with
  | zero => exact ⟨[hexDigit v], if_pos hv, spellsHex_digit hv, le_rfl⟩
  | succ fuel ih =>
    by_cases hsmall : v < 16
    · exact ⟨[hexDigit v], if_pos hsmall, spellsHex_digit hsmall, by simp⟩
    · obtain ⟨t, ht, hspells, hlength⟩ := ih (v / 16) (by rw [pow_succ] at hv; omega) (hexDigit (v % 16) :: tail)
      have hsnoc := spellsHex_snoc hspells (by omega) (Nat.mod_lt v (by decide : 0 < 16))
      rw [Nat.div_add_mod] at hsnoc
      refine ⟨t ++ [hexDigit (v % 16)], ?_, hsnoc, by simpa using hlength⟩
      rw [hexDigits, if_neg hsmall, ht, List.append_assoc]; rfl

theorem hexText_spells {v : Nat} (hv : v < 0x10000) : Spec.SpellsHex (hexText v) v ∧ (hexText v).length ≤ 4 := by
  obtain ⟨t, ht, hspells, hlength⟩ := hexDigits_spells 3 v hv []
  rw [List.append_nil] at ht
  rw [hexText, ht]
  exact ⟨hspells, hlength⟩

/-- At most four characters are all shown. -/
theorem textSlots_eq_plain {t : Text} (h : t.length ≤ 4) : textSlots t = Spec.plain t := by
  rw [textSlots, Config.nDigits, List.take_of_length_le h]; rfl

/-- Settles O48: the digits of DISPHEX spell its value. -/
theorem disphexShowsTheSpelling : Obligations.DisphexShowsTheSpelling := by
  intro s v j hopen hidle hdseq
  rw [exec, execDisphex, whenDcsFree_free hopen hidle]
  refine ⟨fun ⟨hlow, hhigh⟩ => ?_, fun h => if_pos (outOfRange_eq_true.2 (by omega))⟩
  obtain ⟨hspells, hlength⟩ := hexText_spells (v := v.toNat) (by omega)
  obtain ⟨m, hm, hshow⟩ := finish_slotsSeq hdseq (textSlots_length (hexText v.toNat)) j (some Op.disphex)
  refine ⟨hexText v.toNat, m, hspells, hlength, textSlots_eq_plain hlength ▸ hm, ?_⟩
  rw [outOfRange_eq_false.2 ⟨hlow, by omega⟩, if_neg Bool.false_ne_true, textSeq_eq, hshow]

end Sys2Proof.Machine
end

section
/-! The byte and character writes (42_display.md R136, R138, R139), and what is refused outside a free display (R130, R134,
43_scroll.md R170). -/

namespace Sys2Proof.Machine

/-! ### Writes -/

theorem putChar_of_outside {p : Int} (h : p < 0 ∨ 3 < p) (c : CharCode) (dp : Bool) (m : Memory) : putChar p c dp m = m :=
  if_pos (outOfRange_eq_true.2 (h.imp_right fun h => h))

/-- Settles O43: SETCHAR is `putChar`, which writes two bytes inside 0..3. -/
theorem setcharWritesItsSlot : Obligations.SetcharWritesItsSlot := by
  intro s p c dp hopen hidle
  refine ⟨putChar p c dp s.buf, ?_, fun h => putChar_of_outside h c dp s.buf, fun ⟨hlow, hhigh⟩ => ?_⟩
  · rw [exec, execSetchar, whenDcsFree_free hopen hidle]; rfl
  · obtain ⟨n, rfl⟩ := Int.eq_ofNat_of_zero_le hlow
    have hread := read_putChar (p := n) (by omega) c dp s.buf
    rw [Int.toNat_natCast]
    refine ⟨?_, ?_, fun a ha ha' => ?_⟩
    · rw [hread, if_pos rfl, BitVec.setWidth_eq_extractLsb' (by decide)]
    · rw [hread, if_neg (by omega), if_pos rfl]
    · rw [hread, if_neg ha, if_neg ha']

/-- Settles O44: the check of the position, then one byte read or written. -/
theorem byteAccessorsReadAndWrite : Obligations.ByteAccessorsReadAndWrite := by
  intro s p v hopen hidle
  rw [exec, execBufrd, whenDcsFree_free hopen hidle, exec, execBufwr, whenDcsFree_free hopen hidle]
  refine ⟨fun h => ?_, fun hlow hhigh => ?_⟩
  · have hout : outOfRange p Config.bufLen = true := outOfRange_eq_true.2 h
    exact ⟨if_pos hout, if_pos hout⟩
  · have hin : outOfRange p Config.bufLen = false := outOfRange_eq_false.2 ⟨hlow, hhigh⟩
    rw [hin]
    exact ⟨rfl, Memory.write s.buf p.toNat v, rfl, Memory.read_write_self _ _ _, fun a ha => Memory.read_write_other _ v ha⟩

/-! ### Refusals -/

/-- The meaning is refused unless `DST = OPEN` and no scroll is active (R134, R170). -/
def RefusedUnlessFree (f : State → Answer) : Prop :=
  ∀ s, (s.dst ≠ .opened → f s = .refused .dcsNotOpen) ∧ (s.dst = .opened → s.ste ≠ .idle → f s = .refused .scrollActive)

theorem refusedUnlessFree_dcs (k : State → Answer) : RefusedUnlessFree fun s => whenDcsFree s k := by
  intro s
  refine ⟨fun hdst => ?_, fun hopen hste => ?_⟩
  · cases h : s.dst with
    | opened => exact absurd h hdst
    | _ => simp only [whenDcsFree, h]
  · cases h : s.ste with
    | idle => exact absurd h hste
    | _ => simp only [whenDcsFree, hopen, h]

/-- Every instruction outside LSE stands under the guard, but for the seven that have a guard of their own or none. -/
theorem exec_refusedUnlessFree {i : Instr} (hi : Spec.ofStrip i = false) (hdinit : i ≠ .dinit) (hosc : i ≠ .i2cOscOn)
    (hdata : ∀ p v, i ≠ .i2cData p v) (hcancel : i ≠ .cancel) (hencode : ∀ c, i ≠ .encodeChar c)
    (hmask : ∀ m, i ≠ .segMask m) (hdown : i ≠ .dteardown) : RefusedUnlessFree (exec i) := by
  cases i with
  | dinit => exact absurd rfl hdinit
  | i2cOscOn => exact absurd rfl hosc
  | i2cData p v => exact absurd rfl (hdata p v)
  | cancel => exact absurd rfl hcancel
  | encodeChar c => exact absurd rfl (hencode c)
  | segMask m => exact absurd rfl (hmask m)
  | dteardown => exact absurd rfl hdown
  | dsetbright | dsetblink | dclear | flush | setchar | bufrd | bufwr | disptext | dispnum | dispfloat | disphex | scroll
  | i2cBlink | i2cBright => exact refusedUnlessFree_dcs _
  | _ => cases hi

/-- Settles O37: by the guard of the free display, but for the instructions with a guard of their own. -/
theorem dcsIsRefusedUnlessFree : Obligations.DcsIsRefusedUnlessFree := by
  refine ⟨fun i s hi hdinit hosc hdata hcancel hencode hmask hdown => ?_, fun s => execDinit_refused, fun s =>
    execDteardown_closed, fun s hidle => if_neg (by simp [hidle]), fun s p v hp => if_neg (by rwa [not_and_or])⟩
  by_cases hteardown : i = .dteardown
  · subst hteardown
    have hrun := execDteardown_not_closed fun hclosed => hdown ⟨rfl, hclosed⟩
    rw [exec, hrun]
    exact refusedUnlessFree_dcs _ s
  · exact exec_refusedUnlessFree hi hdinit hosc hdata hcancel hencode hmask hteardown s

end Sys2Proof.Machine
end

section
/-! How many transactions an operation sends when it succeeds (42_display.md R152). -/

namespace Sys2Proof.Machine

/-! ### Sequences of calls -/

/-- From `s` to `t` the bus history grows by `n` transactions, beside lifecycle events. -/
def Transacts (n : Nat) (s t : State) : Prop :=
  ∃ es, t.i2cTrace = s.i2cTrace ++ es ∧ (es.filter Spec.isXfer).length = n

theorem transacts_none {s t : State} (h : t.i2cTrace = s.i2cTrace) : Transacts 0 s t := ⟨[], by simpa using h, rfl⟩

theorem Transacts.trans {m n : Nat} {s t u : State} (hst : Transacts m s t) (htu : Transacts n t u) :
    Transacts (m + n) s u := by
  obtain ⟨es, hes, rfl⟩ := hst
  obtain ⟨fs, hfs, rfl⟩ := htu
  exact ⟨es ++ fs, by rw [hfs, hes, List.append_assoc], by rw [List.filter_append, List.length_append]⟩

/-- A sequence that sends `n` transactions if every call succeeds. -/
def SendsWhenOk (n : Nat) (f : State → Run) : Prop := ∀ s, (f s).ok = true → Transacts n s (f s).st

theorem sendsWhenOk_busCalls (es : List BusEvent) : SendsWhenOk (es.filter Spec.isXfer).length (busCalls es) := by
  intro s hok
  rw [busCalls_spec] at hok ⊢
  exact ⟨es, by rw [of_decide_eq_true hok, List.take_length], rfl⟩

theorem sendsWhenOk_i2c (bytes : List Byte) : SendsWhenOk 1 (i2cWrite bytes) := by
  rw [funext (i2cWrite_eq bytes)]
  exact sendsWhenOk_busCalls [.xfer Config.i2cAddr bytes]

theorem sendsWhenOk_openBus : SendsWhenOk 0 openBus := by
  rw [funext openBus_eq]
  exact sendsWhenOk_busCalls [.busOpen]

theorem sendsWhenOk_closeBus : SendsWhenOk 0 closeBus := by
  rw [funext closeBus_eq]
  exact sendsWhenOk_busCalls [.busClose]

/-- A flush sends sixteen transactions and nothing else (R135). -/
theorem sendsWhenOk_flush : SendsWhenOk 16 flushSeq := by
  intro s hok
  have hxfer : (flushEvents s.buf).filter Spec.isXfer = flushEvents s.buf :=
    List.filter_eq_self.2 (List.forall_mem_map.2 fun _ _ => rfl)
  have hsent := sendsWhenOk_busCalls (flushEvents s.buf) { s with dseq := none } (by rwa [← flushSeq_eq])
  rw [hxfer, flushEvents_length, ← flushSeq_eq] at hsent
  exact hsent

theorem sendsWhenOk_andThen {m n : Nat} {f g : State → Run} (hf : SendsWhenOk m f) (hg : SendsWhenOk n g) :
    SendsWhenOk (m + n) fun s => (f s).andThen g := by
  intro s hok
  have hfirst := hf s
  rcases hr : f s with ⟨t, _ | _⟩
  · simp [hr] at hok
  · rw [hr] at hfirst
    simp only [hr, Run.andThen_true] at hok ⊢
    exact (hfirst rfl).trans (hg t hok)

theorem sendsWhenOk_flushOne : SendsWhenOk 1 flushOne := fun s =>
  sendsWhenOk_andThen (sendsWhenOk_i2c _) (fun _ _ => transacts_none rfl) s

theorem sendsWhenOk_blink (rate : BlinkRate) : SendsWhenOk 17 (blinkSeq rate) :=
  sendsWhenOk_andThen (sendsWhenOk_i2c _) sendsWhenOk_flush

theorem sendsWhenOk_clear : SendsWhenOk 16 clearSeq := fun s => sendsWhenOk_flush { s with buf := Memory.zeroed }

theorem sendsWhenOk_slots (slots : List Slot) (j : Bool) : SendsWhenOk 16 (slotsSeq slots j) := fun s =>
  sendsWhenOk_flush { s with buf := render slots j }

theorem sendsWhenOk_text (x : Text) (j : Bool) : SendsWhenOk 16 (textSeq x j) := by
  rw [funext (textSeq_eq x j)]
  exact sendsWhenOk_slots _ j

/-- DINIT sends three commands and a clear, and one more flush where the blink step carries it (R130, D15). -/
theorem sendsWhenOk_dinit : SendsWhenOk (if Config.initBlinkFlush then 35 else 19) dinitSeq := by
  have hblink : SendsWhenOk (if Config.initBlinkFlush then 17 else 1) fun s =>
      if Config.initBlinkFlush then blinkSeq .off s else i2cWrite (blinkBytes .off) s := by
    split
    · exact sendsWhenOk_blink _
    · exact sendsWhenOk_i2c _
  have hbody := sendsWhenOk_andThen sendsWhenOk_openBus (sendsWhenOk_andThen (sendsWhenOk_i2c oscOnBytes)
    (sendsWhenOk_andThen hblink (sendsWhenOk_andThen (sendsWhenOk_i2c (brightBytes 15#4))
      (sendsWhenOk_andThen (g := fun s => ⟨{ s with dst := .opened }, true⟩) sendsWhenOk_clear
        fun _ _ => transacts_none rfl))))
  intro s hok
  have hsum : (if Config.initBlinkFlush then 35 else 19) =
      0 + (1 + ((if Config.initBlinkFlush then 17 else 1) + (1 + (16 + 0)))) := by split <;> rfl
  rw [hsum]
  exact hbody { s with constructing := true, buf := Memory.zeroed } hok

theorem sendsWhenOk_dteardown : SendsWhenOk 16 dteardownSeq := by
  intro s hok
  obtain ⟨hcleared, hreleased⟩ := Bool.and_eq_true_iff.1 hok
  exact (sendsWhenOk_clear s hcleared).trans (sendsWhenOk_closeBus (clearSeq s).st hreleased)

/-! ### Instructions -/

/-- If the status is OK, `n` transactions were sent. -/
def TransactsIfOk (n : Nat) (s t : State) : Prop :=
  (∃ op r, t.replies = s.replies ++ [⟨op, .ok, r⟩]) → Transacts n s t

theorem transactsIfOk_none {s t : State} (h : t.i2cTrace = s.i2cTrace) : TransactsIfOk 0 s t := fun _ => transacts_none h

theorem leads_transacts_raise (n : Nat) (op : Byte) (st : Status) (hst : st ≠ .ok) :
    Leads (TransactsIfOk n) (raise op st) := by
  rintro s t h ⟨op', r, hreply⟩
  rw [raise_next.1 h] at hreply
  have hlast := List.append_cancel_left hreply
  simp [hst] at hlast

/-- The status OK says that every call succeeded. -/
theorem leads_transacts_finish {n : Nat} {f : State → Run} (hf : SendsWhenOk n f) (hreplies : KeepsReplies f)
    (op : Option Byte) : Leads (TransactsIfOk n) fun s => finish op (f s) := by
  rintro s t h ⟨op', r, hreply⟩
  rw [finish_next.1 h, State.reply_replies, hreplies s] at hreply
  have hlast := List.append_cancel_left hreply
  have hok : (f s).ok = true := by
    by_contra hfail
    simp [Run.status, hfail] at hlast
  rw [finish_next.1 h]
  exact hf s hok

theorem leads_transacts_next {k : State → State} (hk : ∀ s, (k s).i2cTrace = s.i2cTrace) :
    Leads (TransactsIfOk 0) fun s => .next (k s) := leads_next fun s => transactsIfOk_none (hk s)

theorem leads_transacts_complete (op : Byte) (r : Result) : Leads (TransactsIfOk 0) (complete op r) :=
  leads_transacts_next fun _ => rfl

theorem leads_transacts_number (op : Byte) (x : Text) (j : Bool) : Leads (TransactsIfOk 16) (showNumber op x j) := by
  unfold showNumber
  cases parseSlots x with
  | none => exact leads_refused _
  | some slots => exact leads_transacts_finish (sendsWhenOk_slots _ j) (keepsReplies_slots _ j) _

theorem execDisphex_transacts (v : Int) (j : Bool) (s t : State) (h : execDisphex v j s = .next t) :
    TransactsIfOk (if v < 0 ∨ 0xFFFF < v then 0 else 16) s t := by
  obtain ⟨-, -, hrun⟩ := whenDcsFree_next h
  have hrange : outOfRange v 0x10000 = true ↔ v < 0 ∨ 0xFFFF < v := by rw [outOfRange_eq_true]; omega
  by_cases hv : v < 0 ∨ 0xFFFF < v
  · rw [if_pos (hrange.2 hv)] at hrun
    rw [if_pos hv]
    exact leads_transacts_complete _ _ s t hrun
  · rw [if_neg (mt hrange.1 hv)] at hrun
    rw [if_neg hv]
    exact leads_transacts_finish (sendsWhenOk_text _ j) (keepsReplies_text _ j) _ s t hrun

theorem execDteardown_transacts (s t : State) (h : execDteardown s = .next t) :
    TransactsIfOk (if s.dst = .closed then 0 else 16) s t := by
  by_cases hclosed : s.dst = .closed
  · rw [execDteardown_closed hclosed] at h
    rw [if_pos hclosed]
    exact leads_transacts_complete _ _ s t h
  · rw [execDteardown_not_closed hclosed] at h
    rw [if_neg hclosed]
    exact leads_dcs (leads_transacts_finish sendsWhenOk_dteardown keepsReplies_dteardown _) s t h

theorem leads_transacts_cancel : Leads (TransactsIfOk 0) execCancel := by
  intro s t h
  unfold execCancel at h
  split at h <;> cases h <;> exact transactsIfOk_none rfl

theorem exec_display_transacts {i : Instr} (hi : Spec.ofStrip i = false) (s t : State) (h : exec i s = .next t) :
    TransactsIfOk (Spec.transactions s i) s t := by
  have raised : ∀ n op, Leads (TransactsIfOk n) (raise op .rangeError) := fun n op =>
    leads_transacts_raise n op _ (by decide)
  have command : ∀ bytes op, Leads (TransactsIfOk 1) fun s => finish op (i2cWrite bytes s) := fun bytes op =>
    leads_transacts_finish (sendsWhenOk_i2c bytes) (keepsReplies_i2c bytes) op
  revert s t
  cases i with
  | encodeChar => exact leads_transacts_complete _ _
  | dinit => exact fun s t h =>
      leads_transacts_finish sendsWhenOk_dinit keepsReplies_dinit _ s t (execDinit_next h).2
  | dsetbright => exact leads_dcs (leads_ite (raised _ _) (command _ _))
  | dsetblink => exact leads_dcs (leads_transacts_finish (sendsWhenOk_blink _) (keepsReplies_blink _) _)
  | dclear => exact leads_dcs (leads_transacts_finish sendsWhenOk_clear keepsReplies_clear _)
  | flush => exact leads_dcs (leads_transacts_finish sendsWhenOk_flush keepsReplies_flush _)
  | setchar => exact leads_dcs (leads_transacts_next fun _ => rfl)
  | bufrd => exact leads_dcs (leads_ite (raised _ _) (leads_transacts_next fun _ => rfl))
  | bufwr => exact leads_dcs (leads_ite (raised _ _) (leads_transacts_next fun _ => rfl))
  | disptext => exact leads_dcs (leads_transacts_finish (sendsWhenOk_text _ _) (keepsReplies_text _ _) _)
  | dispnum => exact leads_dcs (leads_transacts_number _ _ _)
  | dispfloat => exact leads_dcs (leads_transacts_number _ _ _)
  | disphex => exact execDisphex_transacts _ _
  | dteardown => exact execDteardown_transacts
  | scroll => exact leads_dcs (leads_ite (raised _ _) (leads_transacts_next fun _ => rfl))
  | cancel => exact leads_transacts_cancel
  | i2cOscOn => exact leads_ite (command _ _) (leads_refused _)
  | i2cBlink => exact leads_dcs (command _ _)
  | i2cBright => exact leads_dcs (command _ _)
  | i2cData => exact leads_ite (leads_transacts_finish sendsWhenOk_flushOne keepsReplies_flushOne _) (leads_refused _)
  | segMask => exact leads_ite (leads_transacts_next fun _ => rfl) (leads_refused _)
  | _ => cases hi

theorem transactions_strip {i : Instr} (hi : Spec.ofStrip i = true) (s : State) : Spec.transactions s i = 0 := by
  cases i with
  | linit | setpixel | setall | lsetbright | lclear | getpixel | lshow | lteardown | ledStart | ledPixel | ledEnd
  | ledBitcell => rfl
  | _ => cases hi

/-- Settles O51: a display instruction that reports OK has made all the calls of its sequence; LSE's leave the bus. -/
theorem transactionsPerOperation : Obligations.TransactionsPerOperation := by
  intro i s t op r h hreply
  cases hi : Spec.ofStrip i with
  | false => exact exec_display_transacts hi s t h ⟨op, r, hreply⟩
  | true =>
    rw [transactions_strip hi]
    exact transacts_none (congrArg State.i2cTrace (exec_strip_keeps_display hi h)).symm

end Sys2Proof.Machine
end

section
/-! What an instruction outside LSE may store in the buffer, and what else it changes (20_memory.md R56, R58; 42_display.md
R131 to R139). -/

namespace Sys2Proof.Machine

/-! ### The buffer -/

/-- The operations that replace the whole buffer by slots, or by none where they clear it. -/
def rendersBuffer : Instr → Bool
  | .dinit | .dclear | .dteardown | .disptext _ _ | .dispnum _ _ | .dispfloat _ _ _ | .disphex _ _ => true
  | _ => false

/-- The operations that store single bytes and leave the others. -/
def storesInPlace : Instr → Bool
  | .setchar _ _ _ | .bufwr _ _ => true
  | _ => false

/-- The buffers that an instruction may leave where it finds `m`. -/
inductive Stores (m : Memory) : Instr → Memory → Prop
  | nothing {i : Instr} : Stores m i m
  | slots {i : Instr} (hi : rendersBuffer i = true) (slots : List Slot) (j : Bool) : Stores m i (render slots j)
  | char (p : Int) (c : CharCode) (dp : Bool) : Stores m (.setchar p c dp) (putChar p c dp m)
  | byte {p : Int} (hp : outOfRange p Config.bufLen = false) (v : Byte) : Stores m (.bufwr p v) (Memory.write m p.toNat v)

theorem stores_zeroed {i : Instr} (hi : rendersBuffer i = true) (m : Memory) : Stores m i Memory.zeroed := .slots hi [] false

/-- What stores no single byte stores as much in two parts as in one. -/
theorem Stores.trans {i : Instr} (hi : storesInPlace i = false) {m n k : Memory} (hmn : Stores m i n)
    (hnk : Stores n i k) : Stores m i k := by
  cases hnk with
  | nothing => exact hmn
  | slots hi slots j => exact .slots hi slots j
  | char | byte => cases hi

theorem Stores.eq_of_storesNothing {i : Instr} (hrender : rendersBuffer i = false) (hplace : storesInPlace i = false)
    {m n : Memory} (h : Stores m i n) : n = m := by
  cases h with
  | nothing => rfl
  | slots hi => rw [hi] at hrender; cases hrender
  | char | byte => cases hplace

/-- The rest of what an instruction outside LSE leaves of the display's state and of the inputs. -/
structure DisplayFrame (i : Instr) (s t : State) : Prop where
  buf : Stores s.buf i t.buf
  waitTrace : t.waitTrace = s.waitTrace
  inbox : t.inbox = s.inbox
  tokens : (∀ x f l, i ≠ .scroll x f l) → t.tokens = s.tokens
  ste : (∀ x f l, i ≠ .scroll x f l) → i ≠ .cancel → t.ste = s.ste
  dst : i ≠ .dinit → i ≠ .dteardown → t.dst = s.dst
  constructing : i ≠ .dinit → t.constructing = s.constructing
  dseq : s.dseq = none → t.dseq = none

variable {i : Instr}

theorem DisplayFrame.refl (s : State) : DisplayFrame i s s :=
  ⟨.nothing, rfl, rfl, fun _ => rfl, fun _ _ => rfl, fun _ _ => rfl, fun _ => rfl, id⟩

theorem ignoresReplies_displayFrame (i : Instr) : IgnoresReplies (DisplayFrame i) := ⟨.refl, fun _ _ _ h => { h with }⟩

theorem DisplayFrame.trans (hi : storesInPlace i = false) {s t u : State} (hst : DisplayFrame i s t)
    (htu : DisplayFrame i t u) : DisplayFrame i s u where
  buf := hst.buf.trans hi htu.buf
  waitTrace := htu.waitTrace.trans hst.waitTrace
  inbox := htu.inbox.trans hst.inbox
  tokens h := (htu.tokens h).trans (hst.tokens h)
  ste h h' := (htu.ste h h').trans (hst.ste h h')
  dst h h' := (htu.dst h h').trans (hst.dst h h')
  constructing h := (htu.constructing h).trans (hst.constructing h)
  dseq h := htu.dseq (hst.dseq h)

theorem frame_setBuf {s : State} {m : Memory} (hm : Stores s.buf i m) : DisplayFrame i s { s with buf := m } :=
  { DisplayFrame.refl s with buf := hm }

/-! ### Sequences -/

theorem frame_busCalls (es : List BusEvent) (s : State) : DisplayFrame i s (busCalls es s).st := by
  rw [busCalls_spec]
  exact { DisplayFrame.refl s with }

theorem frame_i2c (bytes : List Byte) (s : State) : DisplayFrame i s (i2cWrite bytes s).st := by
  rw [i2cWrite_eq]
  exact frame_busCalls _ s

/-- A flush of a buffer that the instruction stores. -/
theorem frame_flush {s : State} {m : Memory} (hm : Stores s.buf i m) :
    DisplayFrame i s (flushSeq { s with buf := m }).st := by
  rw [flushSeq_spec]
  exact { frame_setBuf hm with dseq := fun _ => rfl }

theorem frame_clear (hi : rendersBuffer i = true) (s : State) : DisplayFrame i s (clearSeq s).st :=
  frame_flush (stores_zeroed hi _)

theorem frame_slots (hi : rendersBuffer i = true) (slots : List Slot) (j : Bool) (s : State) :
    DisplayFrame i s (slotsSeq slots j s).st :=
  frame_flush (.slots hi slots j)

theorem frame_text (hi : rendersBuffer i = true) (x : Text) (j : Bool) (s : State) :
    DisplayFrame i s (textSeq x j s).st := by
  rw [textSeq_eq]
  exact frame_slots hi _ j s

theorem frame_andThen (hi : storesInPlace i = false) {f g : State → Run} (hf : ∀ s, DisplayFrame i s (f s).st)
    (hg : ∀ s, DisplayFrame i s (g s).st) (s : State) : DisplayFrame i s ((f s).andThen g).st := by
  have h := hf s
  rcases hr : f s with ⟨t, _ | _⟩ <;> rw [hr] at h
  · exact h
  · exact h.trans hi (hg t)

theorem frame_blink (hi : storesInPlace i = false) (rate : BlinkRate) (s : State) :
    DisplayFrame i s (blinkSeq rate s).st :=
  frame_andThen hi (frame_i2c _) (fun _ => frame_flush .nothing) s

theorem frame_dinit (s : State) : DisplayFrame .dinit s (dinitSeq s).st := by
  have hblink : ∀ s, DisplayFrame .dinit s
      (if Config.initBlinkFlush then blinkSeq .off s else i2cWrite (blinkBytes .off) s).st := by
    split
    · exact frame_blink rfl _
    · exact frame_i2c _
  have hopen : ∀ s, DisplayFrame .dinit s (openBus s).st := fun s => openBus_eq s ▸ frame_busCalls _ s
  have hopened : ∀ s, DisplayFrame .dinit s { s with dst := .opened } := fun s =>
    { DisplayFrame.refl s with dst := fun h => absurd rfl h }
  have hbody := frame_andThen rfl hopen (frame_andThen rfl (frame_i2c oscOnBytes) (frame_andThen rfl hblink
    (frame_andThen rfl (frame_i2c (brightBytes 15#4)) (frame_andThen rfl (frame_clear rfl)
      (g := fun s => ⟨{ s with dst := .opened }, true⟩) hopened))))
  have hstart : DisplayFrame .dinit s { s with buf := Memory.zeroed } := frame_setBuf (stores_zeroed rfl _)
  have hrun := hbody { s with constructing := true, buf := Memory.zeroed }
  exact hstart.trans rfl { hrun with constructing := fun h => absurd rfl h }

theorem frame_dteardown (s : State) : DisplayFrame .dteardown s (dteardownSeq s).st := by
  have hclose : DisplayFrame .dteardown (clearSeq s).st (closeBus (clearSeq s).st).st :=
    closeBus_eq (clearSeq s).st ▸ frame_busCalls _ _
  exact { (frame_clear rfl s).trans rfl hclose with dst := fun _ h => absurd rfl h }

/-! ### Instructions -/

theorem leads_frame_number (hi : rendersBuffer i = true) (op : Byte) (x : Text) (j : Bool) :
    Leads (DisplayFrame i) (showNumber op x j) := by
  unfold showNumber
  cases parseSlots x with
  | none => exact leads_refused _
  | some slots => exact leads_finish (ignoresReplies_displayFrame i) (frame_slots hi _ j) _

theorem leads_frame_bufwr (p : Int) (v : Byte) : Leads (DisplayFrame (.bufwr p v)) (execBufwr p v) := by
  have c := ignoresReplies_displayFrame (.bufwr p v)
  refine leads_dcs fun s t h => ?_
  split at h
  next => exact leads_raise c _ _ s t h
  next hp =>
    obtain rfl := complete_next.1 h
    exact c.reply _ _ _ (frame_setBuf (.byte (Bool.eq_false_iff.2 hp) v))

theorem leads_frame_dteardown : Leads (DisplayFrame .dteardown) execDteardown := by
  have c := ignoresReplies_displayFrame .dteardown
  intro s t h
  by_cases hclosed : s.dst = .closed
  · rw [execDteardown_closed hclosed] at h
    exact leads_complete_only c _ _ s t h
  · rw [execDteardown_not_closed hclosed] at h
    exact leads_dcs (leads_finish c frame_dteardown _) s t h

theorem leads_frame_scroll (x : Text) (f : Frac) (l : Bool) : Leads (DisplayFrame (.scroll x f l)) (execScroll x f l) := by
  refine leads_dcs (leads_ite (leads_raise (ignoresReplies_displayFrame _) _ _) (leads_next fun s => ?_))
  exact { DisplayFrame.refl s with tokens := fun h => absurd rfl (h x f l), ste := fun h => absurd rfl (h x f l) }

theorem leads_frame_cancel : Leads (DisplayFrame .cancel) execCancel := by
  intro s t h
  unfold execCancel at h
  split at h <;> cases h <;> exact { DisplayFrame.refl s with ste := fun _ h => absurd rfl h }

theorem leads_frame_data (p : BitVec 4) (v : Byte) : Leads (DisplayFrame (.i2cData p v)) (execI2cData p v) := by
  intro s t h
  unfold execI2cData at h
  split at h
  next hp =>
    obtain ⟨hdseq, -⟩ := hp
    rw [flushOne_spec hdseq, finish_next] at h
    subst h
    exact { DisplayFrame.refl s with dseq := fun hdead => by rw [hdead] at hdseq; cases hdseq }
  next => cases h

/-- Everything an instruction outside LSE does to the display's state and the inputs. -/
theorem exec_displayFrame (hi : Spec.ofStrip i = false) : Leads (DisplayFrame i) (exec i) := by
  have c := ignoresReplies_displayFrame i
  cases i with
  | encodeChar => exact leads_complete_only c _ _
  | dinit => exact fun s t h => leads_finish c frame_dinit _ s t (execDinit_next h).2
  | dsetbright => exact leads_dcs (leads_ite (leads_raise c _ _) (leads_finish c (frame_i2c _) _))
  | dsetblink => exact leads_dcs (leads_finish c (frame_blink rfl _) _)
  | dclear => exact leads_dcs (leads_finish c (frame_clear rfl) _)
  | flush => exact leads_dcs (leads_finish c (fun _ => frame_flush .nothing) _)
  | setchar => exact leads_dcs (leads_complete c (fun _ => frame_setBuf (.char _ _ _)) _ _)
  | bufrd =>
    refine leads_dcs (leads_ite (leads_raise c _ _) ?_)
    exact fun s => leads_complete_only c _ _ s
  | bufwr => exact leads_frame_bufwr _ _
  | disptext => exact leads_dcs (leads_finish c (frame_text rfl _ _) _)
  | dispnum => exact leads_dcs (leads_frame_number rfl _ _ _)
  | dispfloat => exact leads_dcs (leads_frame_number rfl _ _ _)
  | disphex => exact leads_dcs (leads_ite (leads_complete_only c _ _) (leads_finish c (frame_text rfl _ _) _))
  | dteardown => exact leads_frame_dteardown
  | scroll => exact leads_frame_scroll _ _ _
  | cancel => exact leads_frame_cancel
  | i2cOscOn => exact leads_ite (leads_finish c (frame_i2c _) _) (leads_refused _)
  | i2cBlink => exact leads_dcs (leads_finish c (frame_i2c _) _)
  | i2cBright => exact leads_dcs (leads_finish c (frame_i2c _) _)
  | i2cData => exact leads_frame_data _ _
  | segMask => exact leads_ite (leads_next fun s => c.reply _ _ _ (c.refl s)) (leads_refused _)
  | _ => cases hi

theorem sameLse_of_withLseOf {s t : State} (h : s.withLseOf t = t) : s.sameLse t := by
  rw [← h]
  exact ⟨rfl, rfl, rfl, rfl, rfl, rfl, rfl⟩

/-- SETCHAR leaves every byte but the two of its slot. -/
theorem Stores.setchar_other {p : Int} {c : CharCode} {d : Bool} {m n : Memory} (h : Stores m (.setchar p c d) n) {a : Nat}
    (hlow : (a : Int) ≠ 2 * p) (hhigh : (a : Int) ≠ 2 * p + 1) : Memory.read n a = Memory.read m a := by
  cases h with
  | nothing => rfl
  | slots hi => cases hi
  | char =>
    by_cases hp : outOfRange p Config.nDigits = true
    · rw [putChar, if_pos hp]
    · obtain ⟨hnonneg, -⟩ := outOfRange_eq_false.1 (Bool.eq_false_iff.2 hp)
      rw [putChar, if_neg hp, Memory.read_write2, if_neg (by omega), if_neg (by omega)]

/-- BUFWR leaves every byte but the one at its position. -/
theorem Stores.bufwr_other {p : Int} {v : Byte} {m n : Memory} (h : Stores m (.bufwr p v) n) {a : Nat}
    (ha : (a : Int) ≠ p) : Memory.read n a = Memory.read m a := by
  cases h with
  | nothing => rfl
  | slots hi => cases hi
  | byte hp =>
    obtain ⟨hnonneg, -⟩ := outOfRange_eq_false.1 hp
    exact Memory.read_write_other m v (by omega)

/-- Settles O52: by the frame of the instruction and what it may store; LSE's part is one that the display does not see. -/
theorem displayOperationFrames : Obligations.DisplayOperationFrames := by
  intro i s t h hi
  have hframe := exec_displayFrame hi s t h
  refine ⟨fun hform a => ?_, ?_, ?_, sameLse_of_withLseOf (exec_display_keeps_lse hi h), hframe.waitTrace, hframe.inbox,
    hframe.tokens, hframe.ste, hframe.dst, hframe.constructing, hframe.dseq⟩
  · have hnothing : rendersBuffer i = false ∧ storesInPlace i = false := by
      rcases hform with rfl | ⟨p, rfl⟩ | ⟨f, rfl⟩ | ⟨r, rfl⟩ | ⟨c, rfl⟩ | rfl | ⟨x, f, l, rfl⟩ | rfl | ⟨r, rfl⟩ | ⟨l, rfl⟩ |
        ⟨p, v, rfl⟩ | ⟨m, rfl⟩ <;> exact ⟨rfl, rfl⟩
    rw [hframe.buf.eq_of_storesNothing hnothing.1 hnothing.2]
  · rintro p c d rfl a hlow hhigh
    exact hframe.buf.setchar_other hlow hhigh
  · rintro p v rfl a ha
    exact hframe.buf.bufwr_other ha

end Sys2Proof.Machine
end

section
/-! The unused bits of the buffer (42_display.md R139): slots leave them clear, and only BUFWR stores anything else. -/

namespace Sys2Proof.Machine

/-- Clear unused bits stay clear: bit 15 of every mask, and bytes 8 and up. -/
def UnusedKept (m n : Memory) : Prop := (Clean m → Clean n) ∧ (High m → High n)

theorem unusedKept_render (m : Memory) (slots : List Slot) (j : Bool) : UnusedKept m (render slots j) :=
  ⟨fun _ => clean_place slots _ _ clean_zero, fun _ => high_place slots _ _ high_zero⟩

theorem unusedKept_putChar (m : Memory) (p : Int) (c : CharCode) (dp : Bool) : UnusedKept m (putChar p c dp m) :=
  ⟨clean_putChar p c dp m, high_putChar p c dp m⟩

theorem Stores.unusedKept {i : Instr} (hi : ∀ p v, i ≠ .bufwr p v) {m n : Memory} (h : Stores m i n) : UnusedKept m n := by
  cases h with
  | nothing => exact ⟨id, id⟩
  | slots _ slots j => exact unusedKept_render m slots j
  | char p c dp => exact unusedKept_putChar m p c dp
  | byte _ v => exact absurd rfl (hi _ v)

theorem exec_unusedKept {i : Instr} (hi : ∀ p v, i ≠ .bufwr p v) {s t : State} (h : exec i s = .next t) :
    UnusedKept s.buf t.buf := by
  cases hstrip : Spec.ofStrip i with
  | false => exact (exec_displayFrame hstrip s t h).buf.unusedKept hi
  | true =>
    have hbuf : t.buf = s.buf := (congrArg State.buf (exec_strip_keeps_display hstrip h)).symm
    rw [hbuf]
    exact ⟨id, id⟩

theorem textSeq_buf (x : Text) (j : Bool) (s : State) : (textSeq x j s).st.buf = render (textSlots x) j := by
  rw [textSeq_eq, slotsSeq, flushSeq_spec]

theorem clearSeq_buf (s : State) : (clearSeq s).st.buf = render [] false := by
  rw [clearSeq, flushSeq_spec]; rfl

theorem showStep_buf (S : ScrollState) (s : State) :
    (showStep S s).buf = render (textSlots (window S.pad S.off)) false := by
  rw [← textSeq_buf (window S.pad S.off) false s]
  simp only [showStep]
  split <;> rfl

theorem advanceStep_buf (S : ScrollState) (s : State) : (advanceStep S s).buf = s.buf := by
  unfold advanceStep
  split
  · rfl
  · split <;> rfl

theorem move_unusedKept {s t : State} (h : nextAction s = .move t) : UnusedKept s.buf t.buf := by
  have cancelled : ∀ u : State, UnusedKept s.buf (cancelStep u).buf := fun u =>
    (clearSeq_buf u).symm ▸ unusedKept_render _ _ _
  rcases move_cases h with rfl | ⟨b, rest, -, -, rfl⟩ | ⟨S, -, rfl⟩ | ⟨S, -, -, rfl⟩ | ⟨S, b, rest, -, -, -, rfl⟩
  · exact ⟨id, id⟩
  · exact ⟨id, id⟩
  · rw [showStep_buf]
    exact unusedKept_render _ _ _
  · exact cancelled s
  · split
    · exact cancelled _
    · rw [advanceStep_buf]
      exact ⟨id, id⟩

/-- Settles O11: the instruction a step fetches, no BUFWR, keeps clear bits clear, and so does a move of STE's own. -/
theorem onlyBufwrDirtiesTheUnusedBits : Obligations.OnlyBufwrDirtiesTheUnusedBits := by
  intro s t h hbufwr
  rcases step_next h with ⟨i, rest, hexec, hrun⟩ | hmove
  · exact exec_unusedKept (s := { s with inbox := rest }) (fun p v hi => hbufwr p v _ (hi ▸ hrun)) hexec
  · exact move_unusedKept hmove

end Sys2Proof.Machine
end

section
/-! STE (43_scroll.md): what its show step, cancel step and advance step leave, which of them a step takes, and the start
and the end of a scroll. -/

namespace Sys2Proof.Machine

/-! ### The start of a scroll -/

/-- SCROLL with a positive speed on a free display starts its scroll (R170). -/
theorem execScroll_starts {s : State} (hopen : s.dst = .opened) (hidle : s.ste = .idle) (x : Text) {speed : Frac}
    (hspeed : 0 < speed) (l : Bool) :
    execScroll x speed l s =
      .next { s with ste := .showing (newScroll x speed l (s.tokens.headD false)), tokens := s.tokens.tail } := by
  rw [execScroll, whenDcsFree_free hopen hidle, speedOutOfRange_eq_false.2 hspeed, if_neg Bool.false_ne_true]

/-! ### The steps of STE's own -/

/-- The window of an offset, as slots: four characters fit the display (R174, R176). -/
theorem textSlots_window (pad : Text) (o : Nat) : textSlots (window pad o) = Spec.plain ((pad.drop o).take 4) :=
  textSlots_eq_plain (List.length_take_le 4 _)

theorem shows_window (pad : Text) (o : Nat) :
    Spec.Shows (render (Spec.plain ((pad.drop o).take 4)) false) (Spec.plain ((pad.drop o).take 4)) false := by
  rw [← textSlots_window]
  exact shows_render (textSlots_length _) false

/-- With no flush under way, a flush sends the buffer as far as the environment lets it (R135, R202). -/
theorem flushSeq_sent {s : State} (hdseq : s.dseq = none) :
    flushSeq s = ⟨Spec.sent (Spec.flushOf (Memory.read s.buf)) s, decide (okCalls 16 s.io = 16)⟩ := by
  rw [flushSeq_calls hdseq, busCalls_spec, flushEvents_length, flushEvents_eq]
  rfl

/-- The show step with the flush of its window (R176), or the end of the scroll (R182). -/
theorem showStep_sent (S : ScrollState) {s : State} (hdseq : s.dseq = none) :
    let m := render (Spec.plain ((S.pad.drop S.off).take 4)) false
    let u := Spec.sent (Spec.flushOf (Memory.read m)) { s with buf := m }
    showStep S s =
      if okCalls 16 s.io = 16 then { u with ste := .waiting S, waitTrace := s.waitTrace ++ [S.delay] }
      else ({ u with ste := .idle } : State).reply (some 0x40#8) .resourceError .none := by
  intro m u
  have hshown : textSeq (window S.pad S.off) false s = ⟨u, decide (okCalls 16 s.io = 16)⟩ := by
    rw [textSeq_eq, textSlots_window]
    exact flushSeq_sent (s := { s with buf := m }) hdseq
  simp only [showStep, hshown, decide_eq_true_eq]
  rfl

/-- The cancel step with the flush of its clear (R181, R182). -/
theorem cancelStep_sent {s : State} (hdseq : s.dseq = none) :
    cancelStep s = (Spec.sent Spec.flushZeros { s with buf := Memory.zeroed, ste := .idle }).reply (some 0x40#8)
      (if okCalls 16 s.io = 16 then .cancelled else .resourceError) .none := by
  have hclear := flushSeq_sent (s := { s with buf := Memory.zeroed }) hdseq
  simp only [cancelStep, clearSeq, hclear, decide_eq_true_eq]
  rfl

section
variable {S : ScrollState} (s : State)

theorem advanceStep_of_lt (h : S.off + 4 < S.pad.length) :
    advanceStep S s = { s with ste := .showing { S with off := S.off + 1 } } := if_pos (by omega)

theorem advanceStep_of_loop (h : S.off + 4 = S.pad.length) (hloop : S.loop = true) :
    advanceStep S s = { s with ste := .showing { S with off := 0 } } := by
  rw [advanceStep, if_neg (by omega), if_pos hloop]

theorem advanceStep_of_last (h : S.off + 4 = S.pad.length) (hloop : S.loop = false) :
    advanceStep S s = ({ s with ste := .idle } : State).reply (some 0x40#8) .ok .none := by
  rw [advanceStep, if_neg (by omega), hloop, if_neg Bool.false_ne_true]
  rfl

end

/-! ### Which of them a step takes -/

/-- In phase SHOW the show step, unless the CANCEL input comes first (R30). -/
theorem step_showing {s : State} {S : ScrollState} (hS : s.ste = .showing S)
    (hin : ∀ p rest, s.inbox = .packet p :: rest → p.fmt ≠ .input) : step s = .next (showStep S s) := by
  refine step_of_move ?_
  simp only [nextAction, hS, takeInputOr]
  split
  next hp => exact if_neg (hin _ _ hp)
  next => rfl

section
variable {s : State} {S : ScrollState} (hS : s.ste = .waiting S)
include hS

/-- In phase WAIT the cancel step as soon as the flag is set (R178). -/
theorem step_waiting_cancel (hc : S.cancel = true) : step s = .next (cancelStep s) :=
  step_of_move (by simp only [nextAction, hS, hc, if_true])

/-- The expiry ends the wait, and a cancel request at the same moment wins (R178). -/
theorem step_waiting_expiry {b : Bool} {rest : List Event} (hc : S.cancel = false) (hin : s.inbox = .expiry b :: rest) :
    step s = .next (if b then cancelStep { s with inbox := rest } else advanceStep S { s with inbox := rest }) := by
  have hfree : s.ste.busy = false := by rw [hS]; exact hc
  refine step_of_move ((nextAction_take hfree).trans ?_)
  simp only [takeEvent, hin, expireStep, hS, hc, Bool.false_eq_true, false_or]

end

/-! ### The settled statements -/

/-- Settles O53: the check of the speed, then the ScrollState with its padded text and exact delay. -/
theorem scrollStarts : Obligations.ScrollStarts := by
  intro s x speed l hopen hidle
  constructor
  · intro hspeed
    rw [exec, execScroll, whenDcsFree_free hopen hidle]
    exact if_pos (decide_eq_true hspeed)
  · intro hspeed
    rw [exec, execScroll_starts hopen hidle x hspeed, newScroll, delay_eq]
    rfl

/-- Settles O55: with no CANCEL in front the step is the show step, which renders the window and flushes it. -/
theorem showStepShowsTheWindow : Obligations.ShowStepShowsTheWindow := by
  intro s S hS _ hdseq hin
  exact ⟨_, shows_window S.pad S.off, (step_showing hS hin).trans (congrArg _ (showStep_sent S hdseq))⟩

/-- Settles O56: the flag and the simultaneous expiry both lead to the cancel step, which flushes a zeroed buffer. -/
theorem waitEndsByCancel : Obligations.WaitEndsByCancel := by
  intro s S hS hdseq
  refine ⟨Memory.zeroed, Memory.read_zeroed, fun hc => ?_, fun rest hc hin => ?_⟩
  · rw [step_waiting_cancel hS hc, cancelStep_sent hdseq]
  · rw [step_waiting_expiry hS hc hin, if_pos rfl, cancelStep_sent (s := { s with inbox := rest }) hdseq]

/-- Settles O57: the expiry leads to the advance step and its three branches. -/
theorem waitEndsByTimer : Obligations.WaitEndsByTimer := by
  intro s S rest hS _ hc hin
  rw [step_waiting_expiry hS hc hin, if_neg Bool.false_ne_true]
  exact ⟨fun hlt => congrArg _ (advanceStep_of_lt _ hlt), fun hlast hloop => congrArg _ (advanceStep_of_loop _ hlast hloop),
    fun hlast hloop => congrArg _ (advanceStep_of_last _ hlast hloop)⟩

end Sys2Proof.Machine
end

section
/-! A looping scroll (43_scroll.md R184): instructions leave a scroll active, and its own steps end it only early. -/

namespace Sys2Proof.Machine

/-- A scroll that is active stays active. -/
def StaysActive (s t : State) : Prop := s.ste ≠ .idle → t.ste ≠ .idle

theorem staysActive_of_ste {s t : State} (h : t.ste = s.ste) : StaysActive s t := fun hactive => h ▸ hactive

/-- SCROLL is refused while a scroll is active (R170). -/
theorem leads_staysActive_scroll (x : Text) (f : Frac) (l : Bool) : Leads StaysActive (execScroll x f l) := by
  intro s t h hactive
  obtain ⟨-, hidle, -⟩ := whenDcsFree_next h
  exact absurd hidle hactive

/-- CANCEL only sets the latch of an active scroll (R207). -/
theorem leads_staysActive_cancel : Leads StaysActive execCancel := by
  intro s t h hactive
  unfold execCancel at h
  split at h
  next hidle => exact absurd hidle hactive
  all_goals cases h; exact Ste.noConfusion

/-- No instruction ends a scroll: none but SCROLL and CANCEL touches STE. -/
theorem exec_staysActive (i : Instr) : Leads StaysActive (exec i) := by
  intro s t h
  cases hi : Spec.ofStrip i with
  | true => exact staysActive_of_ste (congrArg State.ste (exec_strip_keeps_display hi h)).symm
  | false =>
    have hframe := exec_displayFrame hi s t h
    cases i with
    | scroll x f l => exact leads_staysActive_scroll x f l s t h
    | cancel => exact leads_staysActive_cancel s t h
    | _ => exact staysActive_of_ste (hframe.ste (fun _ _ _ => Instr.noConfusion) Instr.noConfusion)

/-- A show step that ends the scroll delivers ResourceError (R182). -/
theorem showStep_replies_of_idle {S : ScrollState} {s : State} (h : (showStep S s).ste = .idle) :
    (showStep S s).replies = s.replies ++ [⟨some 0x40#8, .resourceError, .none⟩] := by
  have hkept := keepsReplies_text (window S.pad S.off) false s
  simp only [showStep] at h ⊢
  split at h
  next => cases h
  next hfail => rw [if_neg hfail, ← hkept]; rfl

/-- The cancel step delivers Cancelled, or ResourceError if its clear failed (R181, R182). -/
theorem cancelStep_replies (s : State) :
    (cancelStep s).replies = s.replies ++ [⟨some 0x40#8, .cancelled, .none⟩] ∨
      (cancelStep s).replies = s.replies ++ [⟨some 0x40#8, .resourceError, .none⟩] := by
  rw [← keepsReplies_clear s]
  simp only [cancelStep]
  split
  next => exact .inl rfl
  next => exact .inr rfl

/-- At the end of a wait that the timer ends, a looping scroll shows again (R179). -/
theorem advanceStep_active {S : ScrollState} (hloop : S.loop = true) (s : State) : (advanceStep S s).ste ≠ .idle := by
  rw [advanceStep, if_pos hloop]
  split <;> exact Ste.noConfusion

/-- Settles O58: of the steps that leave STE idle only a failing show step and the cancel step can belong to a looping
scroll. -/
theorem loopingScrollsEndOnlyEarly : Obligations.LoopingScrollsEndOnlyEarly := by
  intro s t S hS hloop h hidle
  have hactive : s.ste ≠ .idle := fun hs => by rw [hs] at hS; cases hS
  rcases step_next h with ⟨i, rest, hexec, -⟩ | hmove
  · exact absurd hidle (exec_staysActive i { s with inbox := rest } t hexec hactive)
  · rcases move_cases hmove with rfl | ⟨b, rest, -, hs, -⟩ | ⟨S', -, rfl⟩ | ⟨S', -, -, rfl⟩ | ⟨S', b, rest, hS', -, -, rfl⟩
    · exact absurd hidle hactive
    · exact absurd hs hactive
    · exact .inr (showStep_replies_of_idle hidle)
    · exact cancelStep_replies s
    · rw [hS'] at hS
      cases hS
      cases b with
      | true => exact cancelStep_replies { s with inbox := rest }
      | false => exact absurd hidle (advanceStep_active hloop _)

end Sys2Proof.Machine
end

section
/-! One sweep of a scroll that does not loop (43_scroll.md R183): a show step and an expiry for each window, by induction
on the windows that are left. -/

namespace Sys2Proof.Machine

theorem steps_succ {s t : State} (h : step s = .next t) (k : Nat) : steps (k + 1) s = steps k t := by
  simp only [steps, h]

/-- The windows of a sweep are the first and those after it. -/
theorem windowFlushes_succ (pad : Text) (o n : Nat) :
    Spec.windowFlushes pad o (n + 1) =
      Spec.flushOf (Memory.read (render (Spec.plain ((pad.drop o).take 4)) false)) ++ Spec.windowFlushes pad (o + 1) n := by
  simp only [Spec.windowFlushes, List.range_succ_eq_map, List.flatMap_cons, List.flatMap_map, Nat.add_zero,
    Nat.succ_eq_add_one, Nat.add_assoc, Nat.add_comm 1]

/-- `s` after the show steps of the `n + 1` windows from the offset of `S` on, every call of which succeeded: the last
window is in the buffer, each has been flushed, and the delay of each is on `WAITTRACE`. STE and the inbox are as said. -/
def State.swept (S : ScrollState) (n : Nat) (x : Ste) (es : List Event) (s : State) : State :=
  { s with
    buf := render (Spec.plain ((S.pad.drop (S.off + n)).take 4)) false,
    i2cTrace := s.i2cTrace ++ Spec.windowFlushes S.pad S.off (n + 1),
    waitTrace := s.waitTrace ++ List.replicate (n + 1) S.delay,
    ste := x, inbox := es }

/-- Where every call succeeds, the show step sweeps one window and waits. -/
theorem showStep_swept (S : ScrollState) {s : State} (hdseq : s.dseq = none) (hio : s.io = []) :
    showStep S s = s.swept S 0 (.waiting S) s.inbox := by
  rw [showStep_sent S hdseq, if_pos (by rw [hio, okCalls_nil])]
  simp [State.swept, Spec.sent, hio, Spec.windowFlushes, Spec.flushOf]

/-- A window and the rest of its sweep are one sweep. -/
theorem swept_swept (S : ScrollState) (n : Nat) (x y : Ste) (es rest : List Event) (s : State) :
    (s.swept S 0 x es).swept { S with off := S.off + 1 } n y rest = s.swept S (n + 1) y rest := by
  have hfirst := windowFlushes_succ S.pad S.off 0
  simp only [State.swept, windowFlushes_succ S.pad S.off (n + 1), hfirst, Nat.add_assoc, Nat.add_comm 1]
  simp [Spec.windowFlushes, List.replicate_succ]

/-- A show step and an expiry: one window is swept, and its wait ends. -/
theorem steps_window {S : ScrollState} {s : State} {rest : List Event} (hS : s.ste = .showing S) (hc : S.cancel = false)
    (hdseq : s.dseq = none) (hio : s.io = []) (hin : s.inbox = .expiry false :: rest) (n : Nat) :
    steps (n + 2) s = steps n (advanceStep S (s.swept S 0 (.waiting S) rest)) := by
  have hshow := step_showing hS (by simp [hin])
  have hexpire := step_waiting_expiry (s := s.swept S 0 (.waiting S) s.inbox) rfl hc hin
  rw [showStep_swept S hdseq hio] at hshow
  rw [steps_succ hshow, steps_succ hexpire, if_neg Bool.false_ne_true]
  rfl

/-- While windows are left, the end of a wait leads to the next (R179). -/
theorem advanceStep_swept {S : ScrollState} (h : S.off + 4 < S.pad.length) (s : State) (rest : List Event) :
    advanceStep S (s.swept S 0 (.waiting S) rest) = s.swept S 0 (.showing { S with off := S.off + 1 }) rest :=
  advanceStep_of_lt _ h

/-- The sweep from some window on, with `n` more after it, to the end of the scroll (R180, R183). -/
theorem steps_sweep {rest : List Event} (n : Nat) {S : ScrollState} {s : State} (hS : s.ste = .showing S)
    (hlast : S.off + n + 4 = S.pad.length) (hloop : S.loop = false) (hc : S.cancel = false) (hdseq : s.dseq = none)
    (hio : s.io = []) (hin : s.inbox = List.replicate (n + 1) (.expiry false) ++ rest) :
    steps (2 * (n + 1)) s = .next ((s.swept S n .idle rest).reply (some 0x40#8) .ok .none) := by
  induction n generalizing S s with
  | zero =>
    rw [steps_window hS hc hdseq hio hin, advanceStep_of_last _ hlast hloop]
    rfl
  | succ n ih =>
    have hnext : s.inbox = .expiry false :: (List.replicate (n + 1) (.expiry false) ++ rest) := hin
    rw [Nat.mul_succ, steps_window hS hc hdseq hio hnext, advanceStep_swept (by omega),
      ih (S := { S with off := S.off + 1 }), swept_swept]
    exacts [rfl, (show S.off + 1 + n + 4 = S.pad.length by omega), hloop, hc, hdseq, hio, rfl]

/-- The SCROLL packet and the sweep of its windows, `n` after the first. -/
theorem steps_scroll {s : State} {x : Text} {speed : Frac} {rest : List Event} {n : Nat} (hopen : s.dst = .opened)
    (hidle : s.ste = .idle) (hdseq : s.dseq = none) (hio : s.io = []) (htoken : s.tokens.headD false = false)
    (hspeed : 0 < speed) (htext : textOk x = true) (hpad : (padText x false).length = n + 4)
    (hin : s.inbox = .packet (encode (.scroll x speed false)) :: (List.replicate (n + 1) (.expiry false) ++ rest)) :
    steps (2 * (n + 1) + 1) s =
      .next ((State.swept (newScroll x speed false false) n .idle rest { s with tokens := s.tokens.tail }).reply
        (some 0x40#8) .ok .none) := by
  have hrun := stepRunsTheDecodedInstruction.1 s _ _ _ hin (decodingInvertsEncoding _ htext) (.inl (by rw [hidle]; rfl))
  have hstart := execScroll_starts (s := { s with inbox := List.replicate (n + 1) (.expiry false) ++ rest }) hopen hidle x
    hspeed false
  rw [htoken] at hstart
  rw [steps_succ (hrun.trans hstart), steps_sweep n (S := newScroll x speed false false)]
  exacts [rfl, rfl, (by rw [newScroll, hpad, Nat.zero_add]), rfl, rfl, hdseq, hio, rfl]

/-- The last window of a text that does not loop is its four closing spaces (R172, R183). -/
theorem drop_padText {x : Text} {n : Nat} (hpad : (padText x false).length = n + 4) :
    (padText x false).drop n = [0x20, 0x20, 0x20, 0x20] := by
  rw [padText] at hpad ⊢
  exact List.drop_left' (by simpa using hpad)

/-- Settles O59: the packet starts the scroll with as many windows as there are expiries, and the sweep runs through
them to the closing spaces. -/
theorem oneSweepRunsToCompletion : Obligations.OneSweepRunsToCompletion := by
  intro s x speed rest hopen hidle hdseq hio htoken hspeed htext pad n hin
  obtain ⟨k, hpad⟩ : ∃ k, pad.length = k + 4 := Nat.exists_eq_add_of_le' (padText_length x false)
  have hn : n = k + 1 := by simp only [n, hpad]; omega
  rw [hn] at hin ⊢
  have hlast : pad.drop k = [0x20, 0x20, 0x20, 0x20] := drop_padText hpad
  refine ⟨_, hlast ▸ shows_window pad k, (steps_scroll hopen hidle hdseq hio htoken hspeed htext hpad hin).trans ?_⟩
  have hpadText : padText x false = pad := rfl
  simp only [State.swept, newScroll, delay_eq, Nat.zero_add, hpadText, hlast, hidle]

end Sys2Proof.Machine
end

section
/-! How an instruction ends (60_exceptions.md R200 to R202): with the RangeError of its raising condition, with one delivery
under its own number, or, for SCROLL and CANCEL, with none yet. -/

namespace Sys2Proof.Machine

/-- The number under which an instruction's status is delivered (R71): that of an operation record; an item has none. -/
def replyNumber (i : Instr) : Option Byte := if (encode i).fmt = .op then (encode i).bytes.head? else none

/-- What an instruction that raises no RangeError delivers from `s` to `t`. -/
inductive Delivers (i : Instr) (s t : State) : Prop
  | completes (r : Result) (h : t.replies = s.replies ++ [⟨replyNumber i, .ok, r⟩])
  | fails (hi : Spec.canFail i = true) (h : t.replies = s.replies ++ [⟨replyNumber i, .resourceError, .none⟩])
  | cancels (hi : i = .cancel) (h : t.replies = s.replies)
  | starts {x : Text} {f : Frac} {l : Bool} (hi : i = .scroll x f l) (hphase : t.ste.phase = .shows)
      (h : t.replies = s.replies)

/-- How an instruction ends: it raises RangeError under its condition (R201) and leaves all else as it was, or it delivers
what it delivers where the condition does not hold. -/
inductive Ends (i : Instr) (s t : State) : Prop
  | raises (hc : Spec.RangeCondition s i) (h : t = s.reply (replyNumber i) .rangeError .none)
  | delivers (hc : ¬ Spec.RangeCondition s i) (h : Delivers i s t)

variable {i : Instr}

/-! ### Ends of the meanings -/

theorem delivers_complete {op : Byte} (hop : replyNumber i = some op) {s t u : State} {r : Result}
    (hu : u.replies = s.replies) (h : complete op r u = .next t) : Delivers i s t := by
  rw [complete_next] at h
  subst h
  exact .completes r (by rw [State.reply_replies, hu, hop])

/-- The status of a sequence of calls is OK, or ResourceError at the first that failed (R202). -/
theorem leads_delivers_finish (hi : Spec.canFail i = true) {op : Option Byte} (hop : replyNumber i = op) {f : State → Run}
    (hf : KeepsReplies f) : Leads (Delivers i) fun s => finish op (f s) := by
  subst hop
  refine leads_next fun s => ?_
  have hreply := State.reply_replies (f s).st (replyNumber i) (f s).status .none
  rw [hf s] at hreply
  cases hok : (f s).ok with
  | true => exact .completes .none (by simpa [Run.status, hok] using hreply)
  | false => exact .fails hi (by simpa [Run.status, hok] using hreply)

theorem leads_delivers_number (hi : Spec.canFail i = true) {op : Byte} (hop : replyNumber i = some op) (x : Text)
    (j : Bool) : Leads (Delivers i) (showNumber op x j) := by
  unfold showNumber
  cases parseSlots x with
  | none => exact leads_refused _
  | some slots => exact leads_delivers_finish hi hop (keepsReplies_slots _ j)

/-- An instruction whose check is its raising condition. -/
theorem leads_ends_checked {op : Byte} (hop : replyNumber i = some op) {b : State → Prop} [DecidablePred b]
    (hb : ∀ s, b s ↔ Spec.RangeCondition s i) {f : State → Answer} (hf : Leads (Delivers i) f) :
    Leads (Ends i) fun s => if b s then raise op .rangeError s else f s := by
  intro s t h
  by_cases hcheck : b s
  · simp only [hcheck, if_true] at h
    exact .raises ((hb s).1 hcheck) (hop ▸ raise_next.1 h)
  · simp only [hcheck, if_false] at h
    exact .delivers (mt (hb s).2 hcheck) (hf s t h)

/-! ### The instructions -/

theorem leads_delivers_linit : Leads (Delivers .linit) execLinit := by
  intro s t h
  by_cases huninit : s.lst = .uninit
  · rw [execLinit_uninit huninit] at h
    exact leads_delivers_finish rfl rfl keepsReplies_linit s t h
  · rw [execLinit_refused huninit] at h
    cases h

theorem leads_delivers_lteardown : Leads (Delivers .lteardown) execLteardown := by
  intro s t h
  cases hlst : s.lst with
  | uninit => rw [execLteardown_uninit hlst] at h; cases h
  | opened =>
    rw [execLteardown_opened hlst] at h
    exact delivers_complete rfl (keepsReplies_steps s) h
  | closed =>
    rw [execLteardown_closed hlst] at h
    exact delivers_complete rfl rfl h

theorem leads_delivers_dteardown : Leads (Delivers .dteardown) execDteardown := by
  intro s t h
  by_cases hclosed : s.dst = .closed
  · rw [execDteardown_closed hclosed] at h
    exact delivers_complete rfl rfl h
  · rw [execDteardown_not_closed hclosed] at h
    exact leads_dcs (leads_delivers_finish rfl rfl keepsReplies_dteardown) s t h

theorem execCancel_idle {s : State} (h : s.ste = .idle) : execCancel s = .next s := by
  simp only [execCancel, h]

section
variable {s : State} {S : ScrollState}

theorem execCancel_showing (h : s.ste = .showing S) :
    execCancel s = .next { s with ste := .showing { S with cancel := true } } := by
  simp only [execCancel, h]

theorem execCancel_waiting (h : s.ste = .waiting S) :
    execCancel s = .next { s with ste := .waiting { S with cancel := true } } := by
  simp only [execCancel, h]

end

theorem leads_delivers_cancel : Leads (Delivers .cancel) execCancel := by
  intro s t h
  cases hS : s.ste with
  | idle => rw [execCancel_idle hS] at h; cases h; exact .cancels rfl rfl
  | showing S => rw [execCancel_showing hS] at h; cases h; exact .cancels rfl rfl
  | waiting S => rw [execCancel_waiting hS] at h; cases h; exact .cancels rfl rfl

/-- The operations that check an argument (R201). -/
def checksArgument : Instr → Bool
  | .setpixel _ _ _ _ _ | .setall _ _ _ _ | .lsetbright _ | .getpixel _ | .dsetbright _ | .bufrd _ | .bufwr _ _
  | .scroll _ _ _ => true
  | _ => false

theorem not_rangeCondition (hi : checksArgument i = false) (s : State) : ¬ Spec.RangeCondition s i := by
  cases i with
  | setpixel | setall | lsetbright | getpixel | dsetbright | bufrd | bufwr | scroll => cases hi
  | _ => exact id

theorem exec_delivers (hi : checksArgument i = false) : Leads (Delivers i) (exec i) := by
  cases i with
  | linit => exact leads_delivers_linit
  | lclear => exact leads_lse fun _ _ => delivers_complete rfl rfl
  | lshow => exact leads_lse (leads_delivers_finish rfl rfl (keepsReplies_strip stripOnly_show))
  | lteardown => exact leads_delivers_lteardown
  | encodeChar => exact fun _ _ => delivers_complete rfl rfl
  | dinit => exact fun s t h => leads_delivers_finish rfl rfl keepsReplies_dinit s t (execDinit_next h).2
  | dsetblink => exact leads_dcs (leads_delivers_finish rfl rfl (keepsReplies_blink _))
  | dclear => exact leads_dcs (leads_delivers_finish rfl rfl keepsReplies_clear)
  | flush => exact leads_dcs (leads_delivers_finish rfl rfl keepsReplies_flush)
  | setchar => exact leads_dcs fun _ _ => delivers_complete rfl rfl
  | disptext => exact leads_dcs (leads_delivers_finish rfl rfl (keepsReplies_text _ _))
  | dispnum | dispfloat => exact leads_dcs (leads_delivers_number rfl rfl _ _)
  | disphex =>
    exact leads_dcs (leads_ite (fun _ _ => delivers_complete rfl rfl)
      (leads_delivers_finish rfl rfl (keepsReplies_text _ _)))
  | dteardown => exact leads_delivers_dteardown
  | cancel => exact leads_delivers_cancel
  | i2cOscOn => exact leads_ite (leads_delivers_finish rfl rfl (keepsReplies_i2c _)) (leads_refused _)
  | i2cBlink | i2cBright => exact leads_dcs (leads_delivers_finish rfl rfl (keepsReplies_i2c _))
  | i2cData => exact leads_ite (leads_delivers_finish rfl rfl keepsReplies_flushOne) (leads_refused _)
  | ledStart | ledPixel => exact leads_lse (leads_delivers_finish rfl rfl (keepsReplies_strip (stripOnly_sendBits _)))
  | ledEnd => exact leads_lse (leads_delivers_finish rfl rfl (keepsReplies_strip stripOnly_end))
  | ledBitcell => exact leads_lse (leads_delivers_finish rfl rfl (keepsReplies_strip (stripOnly_sendBit _)))
  | segMask m => exact leads_ite (leads_next fun _ => .completes (.mask m) rfl) (leads_refused _)
  | _ => cases hi

/-- Every instruction ends in one of these ways. -/
theorem exec_ends (i : Instr) : Leads (Ends i) (exec i) := by
  cases hi : checksArgument i with
  | false => exact fun s t h => .delivers (not_rangeCondition hi s) (exec_delivers hi s t h)
  | true =>
    cases i with
    | setpixel =>
      exact leads_lse (leads_ends_checked rfl
        (fun _ => (or_congr outOfRange_eq_true fracOutOfRange_eq_true).trans or_assoc)
        fun _ _ => delivers_complete rfl rfl)
    | setall | lsetbright =>
      exact leads_lse (leads_ends_checked rfl (fun _ => fracOutOfRange_eq_true) fun _ _ => delivers_complete rfl rfl)
    | getpixel =>
      exact leads_lse (leads_ends_checked rfl (fun _ => outOfRange_eq_true) fun _ _ => delivers_complete rfl rfl)
    | dsetbright =>
      exact leads_dcs (leads_ends_checked rfl (fun _ => fracOutOfRange_eq_true)
        (leads_delivers_finish rfl rfl (keepsReplies_i2c _)))
    | bufrd | bufwr =>
      exact leads_dcs (leads_ends_checked rfl (fun _ => outOfRange_eq_true) fun _ _ => delivers_complete rfl rfl)
    | scroll _ f _ =>
      exact leads_dcs (leads_ends_checked rfl (fun _ => decide_eq_true_iff (p := f ≤ 0))
        (leads_next fun _ => .starts rfl rfl rfl))
    | _ => cases hi

/-! ### The status -/

theorem eq_of_replies_append {s t : State} {a b : Reply} (ha : t.replies = s.replies ++ [a])
    (hb : t.replies = s.replies ++ [b]) : a = b :=
  List.singleton_inj.1 (List.append_cancel_left (ha.symm.trans hb))

theorem not_replies_append {s t : State} {a : Reply} (h : t.replies = s.replies) : t.replies ≠ s.replies ++ [a] := by
  simp [h]

/-- The statuses that an instruction can end with (R200 to R203). -/
inductive CanEndWith (s : State) (i : Instr) : Status → Prop
  | ok : CanEndWith s i .ok
  | rangeError (hc : Spec.RangeCondition s i) : CanEndWith s i .rangeError
  | resourceError (hi : Spec.canFail i = true) : CanEndWith s i .resourceError

theorem Ends.canEndWith {s t : State} (h : Ends i s t) {a : Reply} (ha : t.replies = s.replies ++ [a]) :
    CanEndWith s i a.status := by
  rcases h with ⟨hc, rfl⟩ | ⟨-, ⟨r, hr⟩ | ⟨hi, hr⟩ | ⟨-, hr⟩ | ⟨-, -, hr⟩⟩
  · rw [eq_of_replies_append ha (State.reply_replies s _ _ _)]
    exact .rangeError hc
  · rw [eq_of_replies_append ha hr]
    exact .ok
  · rw [eq_of_replies_append ha hr]
    exact .resourceError hi
  · exact absurd ha (not_replies_append hr)
  · exact absurd ha (not_replies_append hr)

/-- Settles O16: the status RangeError comes with the condition, and under the condition it is all that happens. -/
theorem rangeErrorsAreExactlyTheListed : Obligations.RangeErrorsAreExactlyTheListed := by
  intro i s t h
  have hends := exec_ends i s t h
  have hall : Spec.RangeCondition s i → t = s.reply (replyNumber i) .rangeError .none := fun hc => by
    cases hends with
    | raises _ ht => exact ht
    | delivers hnot => exact absurd hc hnot
  refine ⟨⟨fun ⟨_, _, hr⟩ => ?_, fun hc => ?_⟩, fun hc => ⟨_, hall hc⟩⟩
  · cases hends.canEndWith hr with
    | rangeError hc => exact hc
  · exact ⟨_, _, congrArg State.replies (hall hc)⟩

/-- Settles O17: the status ResourceError is only delivered by an instruction that can fail. -/
theorem onlyIoOperationsRaiseResourceError : Obligations.OnlyIoOperationsRaiseResourceError := by
  intro i s t op r h hr
  cases (exec_ends i s t h).canEndWith hr with
  | resourceError hi => exact hi

/-- Settles O19: by the ways in which an instruction ends. -/
theorem everyOperationEndsWithOneStatus : Obligations.EveryOperationEndsWithOneStatus := by
  intro i s t h
  rcases exec_ends i s t h with ⟨-, rfl⟩ | ⟨hc, ⟨r, hr⟩ | ⟨-, hr⟩ | ⟨hi, hr⟩ | ⟨rfl, hphase, hr⟩⟩
  · exact .inl ⟨⟨replyNumber i, .rangeError, .none⟩, rfl, rfl⟩
  · exact .inl ⟨_, hr, rfl⟩
  · exact .inl ⟨_, hr, rfl⟩
  · exact .inr (.inl ⟨hi, hr⟩)
  · exact .inr (.inr ⟨_, _, _, rfl, not_le.1 hc, hphase, hr⟩)

end Sys2Proof.Machine
end

section
/-! Cancelling a scroll (60_exceptions.md R203, R207, R215; 10_state.md R30): the latch of a cancel request, and the
Cancelled that the cancel step delivers after its clear. -/

namespace Sys2Proof.Machine

/-! ### What the steps of a scroll deliver -/

/-- A flush that succeeds has sent the whole buffer (R135). -/
theorem flushSeq_i2cTrace_of_ok {s : State} (h : (flushSeq s).ok = true) :
    (flushSeq s).st.i2cTrace = s.i2cTrace ++ Spec.flushOf (Memory.read s.buf) := by
  rw [flushSeq_eq, busCalls_spec] at h ⊢
  have hall : okCalls (flushEvents s.buf).length s.io = (flushEvents s.buf).length := of_decide_eq_true h
  simp only [hall, List.take_length]
  rw [flushEvents_eq]

theorem showStep_not_cancelled {S : ScrollState} {s : State} {op : Option Byte} {r : Result} :
    (showStep S s).replies ≠ s.replies ++ [⟨op, .cancelled, r⟩] := by
  intro hr
  by_cases hidle : (showStep S s).ste = .idle
  · cases eq_of_replies_append hr (showStep_replies_of_idle hidle)
  · refine not_replies_append ?_ hr
    simp only [showStep] at hidle ⊢
    split at hidle
    next hok => rw [if_pos hok]; exact keepsReplies_text _ _ s
    next => exact absurd rfl hidle

theorem advanceStep_not_cancelled {S : ScrollState} {s : State} {op : Option Byte} {r : Result} :
    (advanceStep S s).replies ≠ s.replies ++ [⟨op, .cancelled, r⟩] := by
  unfold advanceStep
  split
  · exact not_replies_append rfl
  · split
    · exact not_replies_append rfl
    · intro hr
      cases eq_of_replies_append (t := endScroll .ok s) hr rfl

/-- The cancel step delivers Cancelled only if its clear succeeded (R181, R182). -/
theorem clearSeq_ok_of_cancelled {s : State} {op : Option Byte} {r : Result}
    (hr : (cancelStep s).replies = s.replies ++ [⟨op, .cancelled, r⟩]) : op = some Op.scroll ∧ (clearSeq s).ok = true := by
  rw [← keepsReplies_clear s] at hr
  have hreply := eq_of_replies_append (t := cancelStep s) hr rfl
  cases hok : (clearSeq s).ok with
  | true => exact ⟨congrArg Reply.op hreply, rfl⟩
  | false => rw [hok] at hreply; cases hreply

/-- What the cancel step leaves where it delivers Cancelled. -/
theorem cancelStep_cleared {s : State} {op : Option Byte} {r : Result}
    (hr : (cancelStep s).replies = s.replies ++ [⟨op, .cancelled, r⟩]) :
    op = some 0x40#8 ∧ (cancelStep s).ste = .idle ∧ (∀ a, Memory.read (cancelStep s).buf a = 0x00#8) ∧
      (cancelStep s).i2cTrace = s.i2cTrace ++ Spec.flushZeros := by
  obtain ⟨hop, hok⟩ := clearSeq_ok_of_cancelled hr
  have hbuf : (cancelStep s).buf = Memory.zeroed := clearSeq_buf s
  exact ⟨hop, rfl, fun a => by rw [hbuf, Memory.read_zeroed],
    flushSeq_i2cTrace_of_ok (s := { s with buf := Memory.zeroed }) hok⟩

/-- Settles O18: no instruction ends with Cancelled, and of STE's own steps only the cancel step, which leaves a wait. -/
theorem cancelledOnlyAfterTheClear : Obligations.CancelledOnlyAfterTheClear := by
  intro s t op r h hr
  have waits : ∀ {S}, s.ste = .waiting S → s.ste.phase = .waits := fun hS => congrArg Ste.phase hS
  rcases step_next h with ⟨i, rest, hexec, -⟩ | hmove
  · cases (exec_ends i { s with inbox := rest } t hexec).canEndWith hr
  · rcases move_cases hmove with rfl | ⟨b, rest, -, -, rfl⟩ | ⟨S, -, rfl⟩ | ⟨S, hS, -, rfl⟩ | ⟨S, b, rest, hS, -, -, rfl⟩
    · exact absurd hr (not_replies_append rfl)
    · exact absurd hr (not_replies_append rfl)
    · exact absurd hr showStep_not_cancelled
    · obtain ⟨hop, hcleared⟩ := cancelStep_cleared hr
      exact ⟨hop, waits hS, hcleared⟩
    · cases b with
      | true =>
        obtain ⟨hop, hcleared⟩ := cancelStep_cleared (s := { s with inbox := rest }) hr
        exact ⟨hop, waits hS, hcleared⟩
      | false => exact absurd hr (advanceStep_not_cancelled (s := { s with inbox := rest }))

/-! ### The latch -/

/-- A set latch stays set as long as the scroll is active (R30). -/
def LatchKept (s t : State) : Prop :=
  ∀ S S', s.ste.scrollState = some S → S.cancel = true → t.ste.scrollState = some S' → S'.cancel = true

theorem latchKept_of_scrollState {s t : State} (h : t.ste.scrollState = s.ste.scrollState) : LatchKept s t := by
  intro S S' hS hc hS'
  rw [h, hS] at hS'
  cases hS'
  exact hc

theorem latchKept_of_idle {s t : State} (h : t.ste = .idle) : LatchKept s t := by
  intro S S' _ _ hS'
  rw [h] at hS'
  cases hS'

/-- SCROLL is refused while a scroll is active (R170). -/
theorem leads_latchKept_scroll (x : Text) (f : Frac) (l : Bool) : Leads LatchKept (execScroll x f l) := by
  intro s t h S S' hS
  obtain ⟨-, hidle, -⟩ := whenDcsFree_next h
  rw [hidle] at hS
  cases hS

theorem leads_latchKept_cancel : Leads LatchKept execCancel := by
  intro s t h
  cases hS : s.ste with
  | idle =>
    rw [execCancel_idle hS] at h
    cases h
    exact latchKept_of_scrollState rfl
  | showing S =>
    rw [execCancel_showing hS] at h
    cases h
    rintro _ _ - - ⟨⟩
    rfl
  | waiting S =>
    rw [execCancel_waiting hS] at h
    cases h
    rintro _ _ - - ⟨⟩
    rfl

/-- No other instruction touches STE. -/
theorem exec_latchKept (i : Instr) : Leads LatchKept (exec i) := by
  intro s t h
  have kept : t.ste = s.ste → LatchKept s t := fun hste => latchKept_of_scrollState (congrArg Ste.scrollState hste)
  cases hi : Spec.ofStrip i with
  | true => exact kept (congrArg State.ste (exec_strip_keeps_display hi h)).symm
  | false =>
    have hframe := exec_displayFrame hi s t h
    cases i with
    | scroll x f l => exact leads_latchKept_scroll x f l s t h
    | cancel => exact leads_latchKept_cancel s t h
    | _ => exact kept (hframe.ste (fun _ _ _ => Instr.noConfusion) Instr.noConfusion)

/-- The show step keeps ScrollState for the wait, or ends the scroll (R176, R182). -/
theorem latchKept_showStep {s : State} {S : ScrollState} (hS : s.ste = .showing S) : LatchKept s (showStep S s) := by
  simp only [showStep]
  split
  · exact latchKept_of_scrollState (by rw [hS]; rfl)
  · exact latchKept_of_idle rfl

/-- A wait whose latch is set ends by the cancel step, so the advance step never meets a set latch (R178). -/
theorem move_latchKept {s t : State} (h : nextAction s = .move t) : LatchKept s t := by
  rcases move_cases h with rfl | ⟨b, rest, -, -, rfl⟩ | ⟨S, hS, rfl⟩ | ⟨S, -, -, rfl⟩ | ⟨S, b, rest, hS, hunset, -, rfl⟩
  · exact latchKept_of_scrollState rfl
  · exact latchKept_of_scrollState rfl
  · exact latchKept_showStep hS
  · exact latchKept_of_idle rfl
  · intro S₀ S' hS₀ hc
    rw [hS] at hS₀
    cases hS₀
    rw [hunset] at hc
    cases hc

/-- Settles O54: CANCEL sets the latch of an active scroll, and every instruction and move keeps it set. -/
theorem cancelSetsTheLatch : Obligations.CancelSetsTheLatch := by
  refine ⟨fun _ => execCancel_idle, fun _ _ => execCancel_showing, fun _ _ => execCancel_waiting,
    fun s t S S' hS hc h => ?_⟩
  rcases step_next h with ⟨i, rest, hexec, -⟩ | hmove
  · exact exec_latchKept i { s with inbox := rest } t hexec S S' hS hc
  · exact move_latchKept hmove S S' hS hc

end Sys2Proof.Machine
end

section
/-! What has a meaning before construction (70_reset_and_hazards.md R231): the refusals of O20 and O37, read for a machine
with both lifecycles in UNINIT. -/

namespace Sys2Proof.Machine

theorem eq_linit_of_next_of_uninit {i : Instr} {s t : State} (hi : Spec.ofStrip i = true) (hlst : s.lst = .uninit)
    (h : exec i s = .next t) : i = .linit := by
  by_contra hlinit
  have hclosed : ¬ (i = .lteardown ∧ s.lst = .closed) := fun hc => by cases hlst.symm.trans hc.2
  have hrefused := lseIsRefusedOutsideOpen.1 i s hi hlinit (by rw [hlst]; decide) hclosed
  cases hrefused.symm.trans h

/-- The instructions outside LSE that have a meaning before construction; the items of DINIT and of a flush have none,
as neither is under way. -/
theorem cases_of_next_of_uninit {i : Instr} {s t : State} (hi : Spec.ofStrip i = false) (hdst : s.dst = .uninit)
    (hcon : s.constructing = false) (hseq : s.dseq = none) (h : exec i s = .next t) :
    i = .dinit ∨ (∃ c, i = .encodeChar c) ∨ i = .cancel ∨ ∃ m, i = .segMask m := by
  obtain ⟨hguard, -, -, hoscRefused, hdataRefused⟩ := dcsIsRefusedUnlessFree
  have hosc : i ≠ .i2cOscOn := by
    rintro rfl
    cases (hoscRefused s hcon).symm.trans h
  have hdata : ∀ p v, i ≠ .i2cData p v := by
    rintro p v rfl
    cases (hdataRefused s p v (.inl (by simp [hseq]))).symm.trans h
  have hclosed : ¬ (i = .dteardown ∧ s.dst = .closed) := fun hc => by cases hdst.symm.trans hc.2
  by_contra hnone
  simp only [not_or, not_exists] at hnone
  obtain ⟨hdinit, hencode, hcancel, hmask⟩ := hnone
  have hrefused := (hguard i s hi hdinit hosc hdata hcancel hencode hmask hclosed).1 (by rw [hdst]; decide)
  cases hrefused.symm.trans h

/-- Settles O9: every other instruction is refused, and CANCEL moves nothing while STE is IDLE. -/
theorem onlyInitialisersRunBeforeConstruction : Obligations.OnlyInitialisersRunBeforeConstruction := by
  intro i s t hlst hdst hidle hcon hseq h
  cases hi : Spec.ofStrip i with
  | true => exact .inl (eq_linit_of_next_of_uninit hi hlst h)
  | false =>
    rcases cases_of_next_of_uninit hi hdst hcon hseq h with hdinit | hencode | rfl | hmask
    · exact .inr (.inl hdinit)
    · exact .inr (.inr (.inl hencode))
    · have hkept : exec .cancel s = .next s := execCancel_idle hidle
      cases hkept.symm.trans h
      exact .inr (.inr (.inr (.inl ⟨rfl, rfl⟩)))
    · exact .inr (.inr (.inr (.inr hmask)))

end Sys2Proof.Machine
end
